-- ==== Sys2Proof/Word.lean ====
section
/-! DEFINITION. The word types of the hardware (spec 00_scope R12): everything is unsigned. -/

namespace Sys2Proof

/-- A byte of the stream, of a lane or of a frame. -/
abbrev Byte := BitVec 8

/-- A 16-bit field (`pixels`). -/
abbrev Half := BitVec 16

/-- A 32-bit field (`freq`, the trailer). -/
abbrev Word := BitVec 32

end Sys2Proof
end

