-- ==== Sys2Proof/Config.lean ====
section
/-! DEFINITION. What an implementation fixes (spec 00_scope R10) and the free values (R16). -/

namespace Sys2Proof

/-- `APA102_TAIL_FILL` (00_scope R10, 41 R147). -/
inductive TailFill where
  | zero
  | one
  | none
  deriving DecidableEq, Repr, Inhabited

/-- The configuration inputs of 00_scope R10. They are fixed for a machine; `State.cfg` carries them. -/
structure Config where
  /-- `CAP`: bytes per channel. -/
  cap : Nat
  /-- `MAX_BITCYCLES`: the largest bit-cycle count of one transfer. -/
  maxBitCycles : Nat
  /-- `LATCH_TICKS`: ticks of the latch window. -/
  latchTicks : Nat
  /-- `BUS_ID` (10_state R36). -/
  busId : BitVec 3
  /-- `APA102_BRIGHTNESS`. -/
  brightness : BitVec 5
  /-- `APA102_TAIL_FILL`. -/
  tailFill : TailFill
  /-- `TRIGGER_MIN` (41 R131). -/
  triggerMin : Nat
  /-- `CNT_W`: width of each counter in bits (10_state R33). -/
  cntW : Nat
  deriving DecidableEq, Repr

namespace Config

/-- The constraints of 00_scope R10's table (those its field widths do not already make). -/
abbrev Legal (c : Config) : Prop :=
  1 ≤ c.cap ∧ 8 ≤ c.maxBitCycles ∧ 1 ≤ c.latchTicks ∧ 1 ≤ c.triggerMin ∧ 1 ≤ c.cntW

/-- `CAP - 1` of the device at hand: OPEN (92 D1). -/
opaque capLess1 : Nat

/-- `MAX_BITCYCLES - 8` of the device at hand: OPEN (92 D2). -/
opaque maxBitCyclesLess8 : Nat

/-- `LATCH_TICKS - 1` of the device at hand: OPEN (92 D3). -/
opaque latchTicksLess1 : Nat

/-- `BUS_ID` of the device at hand: OPEN (92 D4). -/
opaque deviceBusId : BitVec 3

/-- `APA102_BRIGHTNESS` of the device at hand: OPEN (92 D14). -/
opaque deviceBrightness : BitVec 5

/-- `APA102_TAIL_FILL` of the device at hand: OPEN (92 D17). -/
opaque deviceTailFill : TailFill

/-- The device at hand: any legal values of the parameters 00_scope R10 leaves open;
`TRIGGER_MIN` is 1 (92 D25), `CNT_W` 32 (92 D24). See assumption 2. -/
def device : Config where
  cap := capLess1 + 1
  maxBitCycles := maxBitCyclesLess8 + 8
  latchTicks := latchTicksLess1 + 1
  busId := deviceBusId
  brightness := deviceBrightness
  tailFill := deviceTailFill
  triggerMin := 1
  cntW := 32

/-- `ANY` (00_scope R16): the free value of draw number `draw`, at place `place` within that draw. -/
opaque anyBits (draw place : Nat) : Word

/-- `ANY` at the width of a byte. -/
def anyByte (draw place : Nat) : Byte := (anyBits draw place).setWidth 8

end Config

end Sys2Proof
end

