-- ==== Sys2Proof/Syntax.lean ====
section
/-! DEFINITION. The instructions: one constructor per row of spec/opcode_table.json (30_encoding R95). -/

namespace Sys2Proof

/-- What follows the parameter block of a frame that passes the precheck: the pixel bytes and the
4-byte trailer (30_encoding R84, R87, R89). -/
structure Payload where
  data : List Byte
  crc : Word
  deriving DecidableEq, Repr

/-- The fields of the parameter block of a set-channel record (30_encoding R84, R87, R88). -/
inductive Record where
  | ws (elemCount orders : Byte) (pixels : Half)
  | apaData (freq : Word) (orders : Byte) (pixels : Half)
  | apaClk (freq : Word)
  deriving DecidableEq, Repr

/-- One invocation of the decoder (the four wire frames and the magic miss), one internal operation,
or one event. A set-channel frame has body `none` when the precheck refuses it: the invocation then
ends at its parameter block (30_encoding R91, 41 R139). -/
inductive Instr where
  /-- `SET_WS2812` (42 R161): channel byte, `elemCount`, `orders`, `pixels`, what follows. -/
  | setWs2812 (ch elemCount orders : Byte) (pixels : Half) (body : Option Payload)
  /-- `DRAW_ALL` (43 R190): channel byte, trailer. -/
  | drawAll (ch : Byte) (crc : Word)
  /-- `SET_APA102_DATA` (42 R165). -/
  | setApa102Data (ch : Byte) (freq : Word) (orders : Byte) (pixels : Half) (body : Option Payload)
  /-- `SET_APA102_CLOCK` (42 R169); no pixel bytes, so what follows is the trailer alone. -/
  | setApa102Clock (ch : Byte) (freq : Word) (crc : Option Word)
  /-- `ENCODE(off, c, bytes, n)` (40 R111). -/
  | encode (off : Nat) (c : Byte) (bytes : List Byte) (n : Nat)
  /-- `FILL_ZERO(off, c, blockCount)` (40 R114). -/
  | fillZero (off : Nat) (c : Byte) (blockCount : Nat)
  /-- `FILL_ONE(off, c, blockCount)` (40 R115). -/
  | fillOne (off : Nat) (c : Byte) (blockCount : Nat)
  /-- `DRAW_ATTEMPT` (43 R192). -/
  | drawAttempt
  /-- `XFER_DONE` (43 R196). -/
  | xferDone
  /-- `TICK` (43 R197). -/
  | tick
  /-- `MAGIC_MISS` (41 R133): `i` magic bytes, then the byte `b` that is not `MAGIC[i]`. -/
  | magicMiss (i : Fin 4) (b : Byte)
  deriving DecidableEq, Repr

end Sys2Proof
end

