-- ==== Sys2Proof/Machine/Operands.lean ====
section
/-! DEFINITION. Operand forms: the fields of the channel byte and the orders byte, little-endian
assembly, the parameter block, the precheck, and the assembly of a pixel (spec 20, 30, 41, 42). -/

namespace Sys2Proof.Machine

/-! ### Magic and little-endian fields -/

/-- `MAGIC` (00_scope R9, 20_memory R57), each byte with its index. -/
def magicIndexed : List (Fin 4 × Byte) := [(0, 0x55), (1, 0x50), (2, 0x58), (3, 0x4C)]

/-- `MAGIC[i]`. -/
def magicByte : Fin 4 → Byte
  | 0 => 0x55
  | 1 => 0x50
  | 2 => 0x58
  | 3 => 0x4C

/-- The four magic bytes in order of arrival. -/
def magic : List Byte := [0x55, 0x50, 0x58, 0x4C]

/-- `le16` (00_scope R17): the first byte received is the least significant. -/
def le16 (b0 b1 : Byte) : Half := b1 ++ b0

/-- `le32` (00_scope R17). -/
def le32 (b0 b1 b2 b3 : Byte) : Word := b3 ++ b2 ++ b1 ++ b0

/-- The wire bytes of a 16-bit field, in order of arrival (20_memory R56). -/
def le16Bytes (v : Half) : List Byte := [v.extractLsb' 0 8, v.extractLsb' 8 8]

/-- The wire bytes of a 32-bit field, in order of arrival (20_memory R56). -/
def le32Bytes (v : Word) : List Byte :=
  [v.extractLsb' 0 8, v.extractLsb' 8 8, v.extractLsb' 16 8, v.extractLsb' 24 8]

/-! ### The channel byte -/

/-- `busField`, bits 7:3 (30_encoding R82, conflict C1). -/
def busField (ch : Byte) : BitVec 5 := ch.extractLsb' 3 5

/-- `chanInBus`, bits 2:0 (30_encoding R82). -/
def chanInBus (ch : Byte) : BitVec 3 := ch.extractLsb' 0 3

/-- `addressed` (41 R135): the bus field equals `zext_5(BUS_ID)`. -/
def isAddressed (cfg : Config) (ch : Byte) : Bool := busField ch == cfg.busId.setWidth 5

/-- The invalid channel index the decoder uses (10_state R39, 40 R112). -/
def invalidChannel : Byte := 0xFF

/-- `phys` (41 R135): `7 - hChannel[2:0]` when addressed, else the invalid index. -/
def physOf (cfg : Config) (ch : Byte) : Byte :=
  if isAddressed cfg ch then 7 - (chanInBus ch).setWidth 8 else invalidChannel

/-! ### The parameter block -/

/-- `recordType` of `DRAW_ALL` (30_encoding R83). -/
def typeDrawAll : Byte := 0x02

/-- `parLen` (30_encoding R83, 41 R136). -/
def parLen (hType : Byte) : Nat :=
  if hType = 0x01 then 4 else if hType = 0x03 then 7 else if hType = 0x04 then 4 else 0

/-- The fields of a complete parameter block (30_encoding R84, R87, R88); none for a type that has no
parameter block. -/
def recordOf (hType : Byte) (par : Vector Byte 7) : Option Record :=
  if hType = 0x01 then some (.ws par[0] par[1] (le16 par[2] par[3]))
  else if hType = 0x03 then
    some (.apaData (le32 par[0] par[1] par[2] par[3]) par[4] (le16 par[5] par[6]))
  else if hType = 0x04 then some (.apaClk (le32 par[0] par[1] par[2] par[3]))
  else none

/-- The record type byte of a record (30_encoding R83). -/
def recordType : Record → Byte
  | .ws _ _ _ => 0x01
  | .apaData _ _ _ => 0x03
  | .apaClk _ => 0x04

/-- The parameter block of a record as it stands on the wire. -/
def paramBytes : Record → List Byte
  | .ws n ord px => n :: ord :: le16Bytes px
  | .apaData f ord px => le32Bytes f ++ ord :: le16Bytes px
  | .apaClk f => le32Bytes f

/-- The precheck (41 R139): products are exact natural numbers (00_scope R12). -/
def precheck (cfg : Config) : Record → Bool
  | .ws n _ px => (n == 3 || n == 4) && decide (px.toNat * n.toNat ≤ cfg.cap)
  | .apaData f _ px => f != 0 && decide (px.toNat * 4 ≤ cfg.cap)
  | .apaClk f => f != 0

/-- `pixels` of a record; a clock record has none. -/
def pixelCount : Record → Nat
  | .ws _ _ px => px.toNat
  | .apaData _ _ px => px.toNat
  | .apaClk _ => 0

/-- Wire elements of one pixel, `wireElems` (41 R140). -/
def wireElems : Record → Nat
  | .ws n _ _ => n.toNat
  | .apaData _ _ _ => 3
  | .apaClk _ => 0

/-- Buffer bytes of one pixel, `n` of 41 R140. -/
def pixelBytes : Record → Nat
  | .ws n _ _ => n.toNat
  | .apaData _ _ _ => 4
  | .apaClk _ => 0

/-- `pixelByteCount` (41 R138): bytes the pixels take on the wire. -/
def wireByteCount (r : Record) : Nat := pixelCount r * wireElems r

/-- `newLen` (30_encoding R90): bytes the pixels take in the buffer. -/
def newLen (r : Record) : Nat := pixelCount r * pixelBytes r

/-! ### Pixels -/

/-- The 2-bit index of component `j` (0 red, 1 green, 2 blue, 3 white) (30_encoding R85). -/
def orderIdx (orders : Byte) (j : Nat) : Nat := (orders.extractLsb' (2 * j) 2).toNat

/-- The indices of the first `n` components. -/
def orderIdxs (orders : Byte) (n : Nat) : List Nat := (List.range n).map (orderIdx orders)

/-- `{ idx[j] : j < n } = { 0 .. n-1 }` (42 R162, R163, R166). -/
def isPermutation (orders : Byte) (n : Nat) : Bool :=
  (List.range n).all fun p => (orderIdxs orders n).contains p

/-- `for j: out[idx[j]] <- ein[j]` (42 R162). -/
def placeElems : List Nat → List Byte → List Byte → List Byte
  | i :: is, e :: es, out => placeElems is es (out.set i e)
  | _, _, out => out

/-- The `n` colour bytes of one pixel, and the number of the next free value: the wire elements in
the positions `orders` gives them, or `ANY` where the indices are no permutation (42 R162, R163). -/
def colourBytes (orders : Byte) (n : Nat) (ein : List Byte) (draw : Nat) : List Byte × Nat :=
  if isPermutation orders n then (placeElems (orderIdxs orders n) ein (List.replicate n 0), draw)
  else ((List.range n).map (Config.anyByte draw), draw + 1)

/-- `AssemblePixelWs` (42 R162). -/
def assemblePixelWs (elemCount orders : Byte) (ein : List Byte) (draw : Nat) : List Byte × Nat :=
  colourBytes orders elemCount.toNat ein draw

/-- The synthesized brightness byte of an APA102 pixel, `0xE0 | APA102_BRIGHTNESS` (42 R166). -/
def brightnessByte (cfg : Config) : Byte := 0xE0 ||| cfg.brightness.setWidth 8

/-- `AssemblePixelApa` (42 R166): the brightness byte, then the three colours. -/
def assemblePixelApa (cfg : Config) (orders : Byte) (ein : List Byte) (draw : Nat) :
    List Byte × Nat :=
  ((brightnessByte cfg :: (colourBytes orders 3 ein draw).1), (colourBytes orders 3 ein draw).2)

/-- `AssemblePixel` (41 R140); a clock record has no pixels. -/
def assemblePixel (cfg : Config) (r : Record) (ein : List Byte) (draw : Nat) : List Byte × Nat :=
  match r with
  | .ws n ord _ => assemblePixelWs n ord ein draw
  | .apaData _ ord _ => assemblePixelApa cfg ord ein draw
  | .apaClk _ => ([], draw)

end Sys2Proof.Machine
end

