-- ==== Sys2Proof/WellFormed.lean ====
section
/-! DEFINITION. Which terms of Instr are instructions of a machine with a given configuration. -/

namespace Sys2Proof

/-- What follows the parameter block of record `r` is what the decoder takes for it: pixel bytes of
the declared number and a trailer when the precheck passes, nothing when it refuses
(41 R138, R139). -/
def bodyWellFormed (cfg : Config) (r : Record) (body : Option Payload) : Bool :=
  match body with
  | some p => Machine.precheck cfg r && p.data.length == Machine.wireByteCount r
  | none => !Machine.precheck cfg r

/-- The well-formed instructions. -/
def wellFormed (cfg : Config) : Instr → Bool
  | .setWs2812 _ n ord px body => bodyWellFormed cfg (.ws n ord px) body
  | .drawAll _ _ => true
  | .setApa102Data _ f ord px body => bodyWellFormed cfg (.apaData f ord px) body
  | .setApa102Clock _ f crc => bodyWellFormed cfg (.apaClk f) (crc.map fun w => ⟨[], w⟩)
  | .encode off _ bytes n => decide (off + n ≤ cfg.cap) && decide (n ≤ bytes.length)
  | .fillZero off _ cnt => decide (off + cnt ≤ cfg.cap)
  | .fillOne off _ cnt => decide (off + cnt ≤ cfg.cap)
  | .drawAttempt => true
  | .xferDone => true
  | .tick => true
  | .magicMiss i b => b != Machine.magicByte i

end Sys2Proof
end

