-- ==== Sys2Proof/Decode.lean ====
section
/-! DEFINITION. From bytes of the stream to an instruction (spec 30_encoding, 41_frame_decoder), and
back: what one invocation of the decoder makes of the bytes in front of it. -/

namespace Sys2Proof

open Machine

/-- Why the decoder reads no instruction from the bytes given. -/
inductive DecodeReject where
  /-- The bytes end before the invocation does (41 R149). -/
  | incomplete
  /-- A record type other than 1 to 4, after 6 bytes: E_RECTYPE (41 R137). -/
  | reservedType (channel type : Byte) (rest : List Byte)
  deriving DecidableEq, Repr

/-- What the decoder makes of a stream: an instruction and the bytes it leaves, or a rejection. -/
inductive Decoded where
  | instr (i : Instr) (rest : List Byte)
  | rejected (why : DecodeReject)
  deriving DecidableEq, Repr

/-- The outcome of the magic scan (41 R132, R133). -/
inductive Scanned where
  | found (rest : List Byte)
  | missed (i : Fin 4) (b : Byte) (rest : List Byte)
  | short
  deriving DecidableEq, Repr

/-- The magic scan: compare byte by byte, stop at the first that differs (41 R132). -/
def scanMagic : List (Fin 4 × Byte) → List Byte → Scanned
  | [], rest => .found rest
  | _ :: _, [] => .short
  | (i, m) :: ms, b :: bs => if b = m then scanMagic ms bs else .missed i b bs

/-- The trailer: four bytes, little-endian (30_encoding R89). -/
def decodeTrailer : List Byte → Option (Word × List Byte)
  | t0 :: t1 :: t2 :: t3 :: rest => some (le32 t0 t1 t2 t3, rest)
  | _ => none

/-- `count` pixel bytes and the trailer. -/
def decodePayload (count : Nat) (bs : List Byte) : Option (Payload × List Byte) :=
  if bs.length < count then none
  else (decodeTrailer (bs.drop count)).map fun t => (⟨bs.take count, t.1⟩, t.2)

/-- The rest of a set-channel frame after the parameter block of `r`: nothing when the precheck
refuses (41 R139); `mk` makes the instruction. -/
def decodeBody (cfg : Config) (r : Record) (mk : Option Payload → Instr) (bs : List Byte) : Decoded :=
  if precheck cfg r then
    match decodePayload (wireByteCount r) bs with
    | some (p, rest) => .instr (mk (some p)) rest
    | none => .rejected .incomplete
  else .instr (mk none) bs

/-- The record after the header, by record type (30_encoding R83). -/
def decodeRecord (cfg : Config) (ch t : Byte) (bs : List Byte) : Decoded :=
  if t = 0x01 then
    match bs with
    | n :: ord :: p0 :: p1 :: rest =>
      decodeBody cfg (.ws n ord (le16 p0 p1)) (.setWs2812 ch n ord (le16 p0 p1)) rest
    | _ => .rejected .incomplete
  else if t = 0x02 then
    match decodeTrailer bs with
    | some (crc, rest) => .instr (.drawAll ch crc) rest
    | none => .rejected .incomplete
  else if t = 0x03 then
    match bs with
    | f0 :: f1 :: f2 :: f3 :: ord :: p0 :: p1 :: rest =>
      decodeBody cfg (.apaData (le32 f0 f1 f2 f3) ord (le16 p0 p1))
        (.setApa102Data ch (le32 f0 f1 f2 f3) ord (le16 p0 p1)) rest
    | _ => .rejected .incomplete
  else if t = 0x04 then
    match bs with
    | f0 :: f1 :: f2 :: f3 :: rest =>
      decodeBody cfg (.apaClk (le32 f0 f1 f2 f3))
        (fun body => .setApa102Clock ch (le32 f0 f1 f2 f3) (body.map Payload.crc)) rest
    | _ => .rejected .incomplete
  else .rejected (.reservedType ch t bs)

/-- The decoder on any bytes: one invocation (41 R148). -/
def decode (cfg : Config) (bs : List Byte) : Decoded :=
  match scanMagic magicIndexed bs with
  | .short => .rejected .incomplete
  | .missed i b rest => .instr (.magicMiss i b) rest
  | .found (ch :: t :: rest) => decodeRecord cfg ch t rest
  | .found _ => .rejected .incomplete

/-! ### The encoder -/

/-- The header of a frame (30_encoding R81). -/
def headerBytes (ch t : Byte) : List Byte := magic ++ [ch, t]

/-- Everything the CRC of a set-channel frame covers: header, parameter block, pixel bytes
(30_encoding R89). -/
def coveredBytes (ch : Byte) (r : Record) (data : List Byte) : List Byte :=
  headerBytes ch (recordType r) ++ (paramBytes r ++ data)

/-- The bytes of a set-channel frame that the decoder takes for it. -/
def setFrameBytes (ch : Byte) (r : Record) (body : Option Payload) : List Byte :=
  match body with
  | some p => coveredBytes ch r p.data ++ le32Bytes p.crc
  | none => coveredBytes ch r []

/-- The bytes of an instruction on the wire (30_encoding R81 to R89; 41 R133 for a miss); internal
operations and events have none (R95). -/
def encode : Instr → Option (List Byte)
  | .setWs2812 ch n ord px body => some (setFrameBytes ch (.ws n ord px) body)
  | .drawAll ch crc => some (headerBytes ch typeDrawAll ++ le32Bytes crc)
  | .setApa102Data ch f ord px body => some (setFrameBytes ch (.apaData f ord px) body)
  | .setApa102Clock ch f crc => some (setFrameBytes ch (.apaClk f) (crc.map fun w => ⟨[], w⟩))
  | .encode _ _ _ _ => none
  | .fillZero _ _ _ => none
  | .fillOne _ _ _ => none
  | .drawAttempt => none
  | .xferDone => none
  | .tick => none
  | .magicMiss i b => some (magic.take i.val ++ [b])

/-- The bytes of an instruction, none for an internal operation or an event. -/
def wireBytes (i : Instr) : List Byte := (encode i).getD []

/-- How many bytes an invocation consumes (41 R148, column `n`). -/
def consumedBytes : Instr → Nat
  | .setWs2812 _ n _ px body => if body.isSome then 14 + px.toNat * n.toNat else 10
  | .drawAll _ _ => 10
  | .setApa102Data _ _ _ px body => if body.isSome then 17 + px.toNat * 3 else 13
  | .setApa102Clock _ _ crc => if crc.isSome then 14 else 10
  | .encode _ _ _ _ => 0
  | .fillZero _ _ _ => 0
  | .fillOne _ _ _ => 0
  | .drawAttempt => 0
  | .xferDone => 0
  | .tick => 0
  | .magicMiss i _ => i.val + 1

/-! ### The opcode table's numbering -/

/-- The bytes of a value the opcode table gives as `nbits` bits: "offset 0 most significant"
(30_encoding R95), so the first byte of the stream is the most significant. -/
def tableBytes (nbits w : Nat) : List Byte :=
  (List.range (nbits / 8)).map fun k => BitVec.ofNat 8 (w >>> (8 * (nbits / 8 - 1 - k)))

/-- The table's bytes followed by operand bytes of zero, as many as the longest frame with no pixels
needs after its header (a 7-byte parameter block and a trailer). -/
def tableStream (nbits w : Nat) : List Byte := tableBytes nbits w ++ List.replicate 11 0

/-- The instruction the decoder reads from a table value. -/
def decodeTableWord (nbits w : Nat) : Option Instr :=
  match decode Config.device (tableStream nbits w) with
  | .instr i _ => some i
  | .rejected _ => none

/-- The bytes of exactly the instruction the decoder reads from a table value. -/
def tableFrame (cfg : Config) (nbits w : Nat) : List Byte :=
  match decode cfg (tableStream nbits w) with
  | .instr _ rest => (tableStream nbits w).take ((tableStream nbits w).length - rest.length)
  | .rejected _ => tableStream nbits w

end Sys2Proof
end

