-- ==== Sys2Proof/Machine/Crc.lean ====
section
/-! DEFINITION. CRC32 (spec 20_memory R66). -/

namespace Sys2Proof.Machine

/-- One of the 8 rounds of a byte (20_memory R66). -/
def crcRound (r : Word) : Word :=
  if r.getLsbD 0 then (r >>> 1) ^^^ 0xEDB88320 else r >>> 1

/-- One byte into the accumulator. -/
def crcByte (r : Word) (b : Byte) : Word :=
  (List.range 8).foldl (fun acc _ => crcRound acc) (r ^^^ b.setWidth 32)

/-- `CRC32` of a list of bytes. The constants are those of CRC-32/ISO-HDLC, which the spec marks as
general knowledge (20_memory R66, 92 D7); PRESUMED, assumption 9. -/
def crc32 (bs : List Byte) : Word := bs.foldl crcByte 0xFFFFFFFF ^^^ 0xFFFFFFFF

end Sys2Proof.Machine
end

