-- ==== Sys2Proof/Machine/State.lean ====
section
/-! DEFINITION. The state of the machine (spec 10_state R20, R40), its reset (R42), and the reasons a
step can stop. -/

namespace Sys2Proof.Machine

/-- The type tag of a channel slot (10_state R22); an enumeration, no number relied on. -/
inductive Tag where
  | none
  | ws2812
  | apaData
  | apaClk
  deriving DecidableEq, Repr

/-- A slot of the Channel Table (10_state R22 to R25). -/
structure Slot where
  tag : Tag
  elemCount : Byte
  orders : Byte
  pixels : Half
  freq : Word
  deriving DecidableEq, Repr

/-- `ZERO_SLOT` (00_scope R17). -/
def zeroSlot : Slot := ⟨.none, 0, 0, 0, 0⟩

/-- `dstate` (10_state R38). -/
inductive DState where
  | idle
  | magic (i : Fin 4)
  | hdr (j : Fin 2)
  | param (j : Fin 7)
  | pix
  | crc (k : Fin 4)
  deriving DecidableEq, Repr

/-- The frame latches (10_state R39), and `t`, the trailer bytes 41 R142 keeps between steps. -/
structure Latches where
  hChannel : Byte
  hType : Byte
  addressed : Bool
  phys : Byte
  par : Vector Byte 7
  pIdx : Half
  eIdx : BitVec 2
  ein : Vector Byte 4
  crcLocal : Word
  crcWire : Word
  t : Vector Byte 4
  deriving DecidableEq, Repr

/-- Every latch zero (10_state R42). -/
def Latches.zero : Latches where
  hChannel := 0
  hType := 0
  addressed := false
  phys := 0
  par := Vector.replicate 7 0
  pIdx := 0
  eIdx := 0
  ein := Vector.replicate 4 0
  crcLocal := 0
  crcWire := 0
  t := Vector.replicate 4 0

/-- The arguments of an `ArmTransfer` call (60 R237). -/
structure Arm where
  bitCount : Nat
  startMask : Byte
  clockMask : Byte
  freqSel : Word
  deriving DecidableEq, Repr

/-- A move of one of the agents (10_state R40, 20_memory R60, R71, 60 R229). -/
inductive Move where
  /-- The decoder takes one step: the trigger test, or one byte (41 R130). -/
  | decode
  /-- The decoder takes one invocation, from S_IDLE back to S_IDLE, if all its bytes are there. -/
  | invocation
  /-- The link appends a byte to the queue (20_memory R60). -/
  | byte (b : Byte)
  /-- The Output Pipeline raises its completion event, if its transfer has finished (60 R239). -/
  | xferDone
  /-- One tick of the latch timer (43 R197). -/
  | tick
  /-- The Output Pipeline reads its next lane, as the buffer was `version` writes ago
  (20_memory R71, 60 R237). -/
  | emit (version : Nat)
  /-- Power-up or explicit reset (10_state R43, 70 R260). -/
  | reset
  deriving DecidableEq, Repr

/-- Lanes with their values, strictly rising lane numbers, no lane listed at 0. -/
abbrev Memory := List Host.Cell

/-- The machine. -/
structure State where
  /-- The configuration inputs (00_scope R10); constant. -/
  cfg : Config
  /-- `CH[0..7]` (10_state R21). -/
  ch : Vector Slot 8
  /-- `BP` (10_state R28); an unlisted lane is 0x00. -/
  bp : Memory
  /-- The four counters, numbers below `2^CNT_W` (10_state R30 to R33). -/
  cntCrcErr : Nat
  cntFrameMiss : Nat
  cntDraws : Nat
  cntOverdraw : Nat
  /-- `busy` (10_state R34). -/
  busy : Bool
  /-- `latchCount` (10_state R35). -/
  latchCount : Nat
  /-- `dstate` (10_state R38). -/
  dstate : DState
  /-- The frame latches (10_state R39). -/
  lat : Latches
  /-- `Q`, the bytes received and not yet read (20_memory R60). -/
  queue : List Byte
  /-- `A`, the bytes read since the last `ResetCrc()` (20_memory R60). -/
  crcAcc : List Byte
  /-- The `ArmTransfer` calls made, oldest first (60 R237). -/
  arms : List Arm
  /-- The lanes the transfer last armed has emitted, in order (20_memory R50). -/
  lanesOut : List Byte
  /-- What `bp` was before each write made since the transfer in flight was armed, newest first
  (20_memory R71). -/
  pastBp : List Memory
  /-- The agents' moves still to come (assumption 4). -/
  sched : List Move
  /-- How many free values have been drawn (assumption 3). -/
  drawn : Nat
  /-- The position the last ENCODE instruction returned to its caller (40 R111). -/
  encodeResult : Nat
  deriving DecidableEq, Repr

/-- Why the machine faults. -/
inductive Fault where
  /-- The Output Pipeline's read of a lane outside `0 .. 8*CAP-1`, raised by `emitLane`: there is no
  such lane (20_memory R50). Safe: no state that meets `Invariant` reaches it. -/
  | laneOutsideBuffer (lane : Nat)
  deriving DecidableEq, Repr

/-- Why the machine gives no meaning. -/
inductive Refusal where
  /-- An instruction whose meaning is not written; raised by `exec` alone. Safe. -/
  | notModelled (mnemonic : String)
  /-- ENCODE, FILL_ZERO or FILL_ONE over blocks `off .. off+count-1` that pass CAP, raised by
  `encodeOp` and `fillOp` (40 R113). Safe. -/
  | blockRangePastCap (off count : Nat)
  /-- ENCODE with fewer than `n` source bytes, raised by `encodeOp`: 40 R111 gives it
  `bytes[0..n-1]`. Safe. -/
  | encodeSourceTooShort (n : Nat)
  /-- A decoder step in a state whose latches no run produces (a parameter byte of a record that has
  no parameter block, a physical channel past 7), raised by the decoder steps of
  Machine/Decoder.lean. Safe: no state that meets `Invariant` reaches it. -/
  | decoderStateUnreachable
  deriving DecidableEq, Repr

/-- The outcome of a step or of a meaning. -/
abbrev Outcome := Host.Outcome State Fault Refusal

/-- The state of 10_state R42 on a device with configuration `cfg`: every element zero, nothing
received, no transfer armed. -/
def State.resetWith (cfg : Config) : State where
  cfg := cfg
  ch := Vector.replicate 8 zeroSlot
  bp := []
  cntCrcErr := 0
  cntFrameMiss := 0
  cntDraws := 0
  cntOverdraw := 0
  busy := false
  latchCount := 0
  dstate := .idle
  lat := Latches.zero
  queue := []
  crcAcc := []
  arms := []
  lanesOut := []
  pastBp := []
  sched := []
  drawn := 0
  encodeResult := 0

/-- The machine right after reset (10_state R42, 70 R260). -/
def State.reset : State := State.resetWith Config.device

end Sys2Proof.Machine
end

