-- ==== Sys2Proof/Machine/Flags.lean ====
section
/-! DEFINITION. Flags and derived values: slot length and enable, the latch flag, the scheduler's
named state, the outcome counters (spec 00_scope R17, 10_state, 60_exceptions). -/

namespace Sys2Proof.Machine

/-- `len` (00_scope R17). -/
def slotLen (sl : Slot) : Nat :=
  match sl.tag with
  | .ws2812 => sl.pixels.toNat * sl.elemCount.toNat
  | .apaData => sl.pixels.toNat * 4
  | .apaClk => 0
  | .none => 0

/-- `enabled` (00_scope R17). -/
def slotEnabled (sl : Slot) : Bool :=
  match sl.tag with
  | .ws2812 => sl.elemCount != 0
  | .apaData => sl.freq != 0
  | .apaClk => sl.freq != 0
  | .none => false

/-- The slot a record builds (42 R161, R165, R169); fields outside the variant are 0
(10_state R23 to R25). -/
def slotOf : Record → Slot
  | .ws n ord px => ⟨.ws2812, n, ord, px, 0⟩
  | .apaData f ord px => ⟨.apaData, 0, ord, px, f⟩
  | .apaClk f => ⟨.apaClk, 0, 0, 0, f⟩

/-- `latchActive` (10_state R35). -/
def latchActive (s : State) : Bool := s.latchCount != 0

/-- The scheduler's named states (10_state R35, 43 R198). -/
inductive SchedState where
  | idle
  | busy
  | latchWait
  deriving DecidableEq, Repr

/-- The scheduler's state as a function of `busy` and `latchCount` (10_state R35). -/
def schedState (s : State) : SchedState :=
  if s.busy then .busy else if latchActive s then .latchWait else .idle

/-- The transfer in flight has read its last lane (60 R237, R239). -/
def transferComplete (s : State) : Bool :=
  match s.arms.getLast? with
  | some a => s.busy && decide (a.bitCount ≤ s.lanesOut.length)
  | none => false

/-- The error outcomes (60 R220). -/
inductive ErrorKind where
  | magic
  | recType
  | record
  | crc
  | overdraw
  | drawSize
  deriving DecidableEq, Repr

/-- One increment of a counter, by exactly 1, modulo `2^CNT_W` (10_state R31, R33). -/
def increment (cfg : Config) (cnt : Nat) : Nat := (cnt + 1) % 2 ^ cfg.cntW

/-- What an error outcome records (60 R220): one increment of a counter, or nothing. -/
def countError (e : ErrorKind) (s : State) : State :=
  match e with
  | .magic => { s with cntFrameMiss := increment s.cfg s.cntFrameMiss }
  | .recType => s
  | .record => s
  | .crc => { s with cntCrcErr := increment s.cfg s.cntCrcErr }
  | .overdraw => { s with cntOverdraw := increment s.cfg s.cntOverdraw }
  | .drawSize => s

end Sys2Proof.Machine
end

