-- ==== Sys2Proof/Machine/Ops.lean ====
section
/-! DEFINITION. The shared operations: lanes of the buffer, the Byte Transport's primitives, the end
of an invocation and the error outcomes, the bit-plane operations, the Output Pipeline's interface,
reset (spec 20, 40, 41, 60, 70). -/

namespace Sys2Proof.Machine

/-- Go on with `f` after a next state; a stop stays a stop. -/
def andThen (o : Outcome) (f : State → Outcome) : Outcome :=
  match o with
  | .next s => f s
  | .fault r => .fault r
  | .refused r => .refused r

/-! ### Lanes -/

/-- `BP[L]`; a lane not listed is 0x00 (10_state R42). -/
def laneRead : Memory → Nat → Byte
  | [], _ => 0
  | (a, v) :: m, L => if a = L then v else laneRead m L

/-- `BP[L] <- v`, in the canonical form: rising lanes, none listed at 0. -/
def laneWrite : Memory → Nat → Byte → Memory
  | [], L, v => if v = 0 then [] else [(L, v)]
  | (a, w) :: m, L, v =>
    if L < a then (if v = 0 then (a, w) :: m else (L, v) :: (a, w) :: m)
    else if L = a then (if v = 0 then m else (a, v) :: m)
    else (a, w) :: laneWrite m L v

/-- The canonical form above lane `lo`: lanes rise from `lo` on, and none is listed at 0. -/
def Memory.wfFrom : Nat → Memory → Bool
  | _, [] => true
  | lo, (a, v) :: m => decide (lo ≤ a) && v != 0 && Memory.wfFrom (a + 1) m

/-- The canonical form of a memory. -/
def Memory.wf (m : Memory) : Bool := Memory.wfFrom 0 m

/-- Every lane listed is below `bound`. -/
def Memory.below (bound : Nat) (m : Memory) : Bool := m.all fun e => decide (e.1 < bound)

/-- `1 << c` at the width of a lane. -/
def bitMask (c : Nat) : Byte := 1 <<< c

/-- Change bit `c` of lane `L` alone (20_memory R68, 40 R118). -/
def laneSetBit (m : Memory) (L c : Nat) (v : Bool) : Memory :=
  laneWrite m L (if v then laneRead m L ||| bitMask c else laneRead m L &&& ~~~(bitMask c))

/-- The 8 bits of one byte into block `blk` of channel `c`, most significant first (20_memory R52). -/
def putByte (m : Memory) (c blk : Nat) (b : Byte) : Memory :=
  (List.range 8).foldl (fun acc k => laneSetBit acc (8 * blk + k) c (b.getLsbD (7 - k))) m

/-- Consecutive bytes from block `off` on (40 R111). -/
def putBytes (m : Memory) (c off : Nat) : List Byte → Memory
  | [] => m
  | b :: bs => putBytes (putByte m c off b) c (off + 1) bs

/-- Bit `c` of `count` consecutive lanes from lane `L` on set to `v` (40 R114, R115). -/
def fillLanes (m : Memory) (c L : Nat) (v : Bool) : Nat → Memory
  | 0 => m
  | count + 1 => fillLanes (laneSetBit m L c v) c (L + 1) v count

/-- `ChanByte(c, i)` (00_scope R17): byte `i` of channel `c` read back. -/
def chanByte (m : Memory) (c i : Nat) : Byte :=
  (List.range 8).foldl
    (fun acc k => acc + if (laneRead m (8 * i + k)).getLsbD c then bitMask (7 - k) else 0) 0

/-- 32-bit word `w` of the buffer (20_memory R53). -/
def wordView (m : Memory) (w : Nat) : Word :=
  le32 (laneRead m (4 * w)) (laneRead m (4 * w + 1)) (laneRead m (4 * w + 2)) (laneRead m (4 * w + 3))

/-- Store `m` as the buffer. While a transfer is in flight what was there before stays readable to
it (20_memory R71). -/
def setBp (m : Memory) (s : State) : State :=
  { s with bp := m, pastBp := if s.busy && m != s.bp then s.bp :: s.pastBp else s.pastBp }

/-! ### The Byte Transport's primitives -/

/-- `Available()` (20_memory R61). -/
def available (s : State) : Nat := s.queue.length

/-- `ReadByte()` (20_memory R62): none while the queue is empty. -/
def readByte (s : State) : Option (Byte × State) :=
  match s.queue with
  | [] => none
  | b :: q => some (b, { s with queue := q, crcAcc := s.crcAcc ++ [b] })

/-- `ReadBytes(n)` (20_memory R63): `n` calls of `ReadByte()`; none while it waits. -/
def readBytes : Nat → State → Option (List Byte × State)
  | 0, s => some ([], s)
  | n + 1, s =>
    match readByte s with
    | none => none
    | some (b, t) => (readBytes n t).map fun r => (b :: r.1, r.2)

/-- `ResetCrc()` (20_memory R64). -/
def resetCrc (s : State) : State := { s with crcAcc := [] }

/-- `CurrentCrc()` (20_memory R65). -/
def currentCrc (s : State) : Word := crc32 s.crcAcc

/-- The link appends a byte to the queue (20_memory R60). -/
def linkByte (b : Byte) (s : State) : State := { s with queue := s.queue ++ [b] }

/-- The bytes of `i` stand next in the stream, and the decoder reads them as it comes to them
(41 R149: inside a frame they are taken as the rest of that frame). -/
def deliver (i : Instr) (s : State) : State := { s with queue := wireBytes i ++ s.queue }

/-! ### The end of an invocation; error outcomes -/

/-- The latches at draw `d` of the free values: `ANY` (10_state R39). -/
def anyLatches (d : Nat) : Latches where
  hChannel := Config.anyByte d 0
  hType := Config.anyByte d 1
  addressed := (Config.anyByte d 2).getLsbD 0
  phys := Config.anyByte d 3
  par := Vector.ofFn fun j => Config.anyByte d (4 + j.val)
  pIdx := (Config.anyBits d 11).setWidth 16
  eIdx := (Config.anyBits d 12).setWidth 2
  ein := Vector.ofFn fun j => Config.anyByte d (13 + j.val)
  crcLocal := Config.anyBits d 17
  crcWire := Config.anyBits d 18
  t := Vector.ofFn fun j => Config.anyByte d (19 + j.val)

/-- `dstate <- S_IDLE` (00_scope R15); the latches hold `ANY` from here on (10_state R39). -/
def endInvocation (s : State) : State :=
  { s with dstate := .idle, lat := anyLatches s.drawn, drawn := s.drawn + 1 }

/-- `raise E_X` (00_scope R15, 60 R233): the error's action, then S_IDLE. This is the whole of taking
an error outcome: nothing is saved, there is no vector, and there is no return operation
(60 R233, R234). -/
def raiseError (e : ErrorKind) (s : State) : State := endInvocation (countError e s)

/-! ### Bit-plane operations -/

/-- The destination position ENCODE returns (40 R111). -/
def encodeReturns (off n : Nat) : Nat := off + n

/-- `ENCODE(off, c, bytes, n)` (40 R111 to R113). -/
def encodeOp (off : Nat) (c : Byte) (bytes : List Byte) (n : Nat) (s : State) : Outcome :=
  if s.cfg.cap < off + n then .refused (.blockRangePastCap off n)
  else if bytes.length < n then .refused (.encodeSourceTooShort n)
  else if 8 ≤ c.toNat then .next s
  else .next (setBp (putBytes s.bp c.toNat off (bytes.take n)) s)

/-- `FILL_ZERO` (`v` false) and `FILL_ONE` (`v` true) (40 R112 to R115). -/
def fillOp (v : Bool) (off : Nat) (c : Byte) (blockCount : Nat) (s : State) : Outcome :=
  if s.cfg.cap < off + blockCount then .refused (.blockRangePastCap off blockCount)
  else if 8 ≤ c.toNat then .next s
  else .next (setBp (fillLanes s.bp c.toNat (8 * off) v (8 * blockCount)) s)

/-! ### The Output Pipeline's interface -/

/-- `ArmTransfer(..)` (60 R237): an output event; the transfer has emitted nothing yet. -/
def armTransfer (a : Arm) (s : State) : State :=
  { s with arms := s.arms ++ [a], lanesOut := [], pastBp := [] }

/-- The Output Pipeline reads its next lane, lane `t` in bit-cycle `t` (60 R237), out of the buffer as
it was `version` writes ago (20_memory R71). With no transfer in flight, or all lanes emitted, it
reads nothing (60 R239). -/
def emitLane (version : Nat) (s : State) : Outcome :=
  match s.busy, s.arms.getLast? with
  | true, some a =>
    if s.lanesOut.length < a.bitCount then
      if s.lanesOut.length < 8 * s.cfg.cap then
        .next { s with
          lanesOut := s.lanesOut ++
            [laneRead ((s.bp :: s.pastBp).getD version s.bp) s.lanesOut.length] }
      else .fault (.laneOutsideBuffer s.lanesOut.length)
    else .next s
  | _, _ => .next s

/-! ### Reset -/

/-- Reset at any time gives the state of 10_state R42 (R43). The schedule and the count of free
values are not the machine's and go on. -/
def applyReset (s : State) : State :=
  { State.resetWith s.cfg with sched := s.sched, drawn := s.drawn }

end Sys2Proof.Machine
end

