-- ==== Sys2Proof/Machine/BitPlane.lean ====
section
/-! DEFINITION. The internal bit-plane operations as instructions (spec 40_bitplane_ops). -/

namespace Sys2Proof.Machine

/-- `ENCODE` (40 R111): the operation, and the position it returns. -/
def execEncode (off : Nat) (c : Byte) (bytes : List Byte) (n : Nat) (s : State) : Outcome :=
  andThen (encodeOp off c bytes n s) fun t => .next { t with encodeResult := encodeReturns off n }

/-- `FILL_ZERO` (40 R114). -/
def execFillZero (off : Nat) (c : Byte) (blockCount : Nat) (s : State) : Outcome :=
  fillOp false off c blockCount s

/-- `FILL_ONE` (40 R115). -/
def execFillOne (off : Nat) (c : Byte) (blockCount : Nat) (s : State) : Outcome :=
  fillOp true off c blockCount s

end Sys2Proof.Machine
end

