-- ==== Sys2Proof/Machine/Draw.lean ====
section
/-! DEFINITION. DRAW_ALL, the draw attempt and the scheduler's events (spec 43_draw_scheduler). -/

namespace Sys2Proof.Machine

/-- The Draw Timing State (10_state R37): local to one draw attempt. -/
structure Timing where
  maxBytes : Nat
  startMask : Byte
  clockMask : Byte
  freqSel : Word
  deriving DecidableEq, Repr

/-- The start values of the scan (43 R192). -/
def Timing.init : Timing := ⟨0, 0, 0, 0xFFFFFFFF⟩

/-- `min` on unsigned 32-bit values. -/
def minWord (a b : Word) : Word := if a.toNat ≤ b.toNat then a else b

/-- What one slot adds to the scan, slot `c` (43 R192); none for the overdraw abort of an enabled
WS2812 slot in the latch window. -/
def scanSlot (latch : Bool) (c : Nat) (sl : Slot) (t : Timing) : Option Timing :=
  match sl.tag with
  | .ws2812 =>
    if sl.elemCount ≠ 0 then
      if latch then none
      else some { t with
        startMask := t.startMask ||| bitMask c
        maxBytes := max t.maxBytes (sl.pixels.toNat * sl.elemCount.toNat) }
    else some t
  | .apaData =>
    if sl.freq ≠ 0 then
      some { t with
        freqSel := minWord t.freqSel sl.freq
        maxBytes := max t.maxBytes (sl.pixels.toNat * 4) }
    else some t
  | .apaClk =>
    if sl.freq ≠ 0 then
      some { t with
        freqSel := minWord t.freqSel sl.freq
        clockMask := t.clockMask ||| bitMask c }
    else some t
  | .none => some t

/-- The scan of the slots from slot `c` on (43 R192). -/
def scanSlots (latch : Bool) : Nat → List Slot → Timing → Option Timing
  | _, [], t => some t
  | c, sl :: sls, t =>
    match scanSlot latch c sl t with
    | none => none
    | some t' => scanSlots latch (c + 1) sls t'

/-- The arguments of the call a draw makes (43 R193). -/
def armOf (t : Timing) : Arm := ⟨t.maxBytes * 8, t.startMask, t.clockMask, t.freqSel⟩

/-- `DrawAttempt()` (43 R192 to R195), in the order of tests of 60 R231. -/
def drawAttempt (s : State) : State :=
  if s.busy then countError .overdraw s
  else
    match scanSlots (latchActive s) 0 s.ch.toList Timing.init with
    | none => countError .overdraw s
    | some t =>
      if t.maxBytes = 0 ∨ s.cfg.maxBitCycles < t.maxBytes * 8 then countError .drawSize s
      else armTransfer (armOf t) { s with cntDraws := increment s.cfg s.cntDraws, busy := true }

/-- `DRAW_ATTEMPT` (43 R192). -/
def execDrawAttempt (s : State) : Outcome := .next (drawAttempt s)

/-- `Finish()` of a DRAW_ALL frame (41 R143, 43 R190): the channel byte plays no part (43 R191). -/
def finishDraw (crcOk : Bool) (s : State) : State :=
  if crcOk then drawAttempt s else countError .crc s

/-- One invocation on a DRAW_ALL frame (43 R190). -/
def runDrawAll (ch : Byte) (crc : Word) (s : State) : State :=
  endInvocation
    (finishDraw (crc == crc32 (headerBytes ch typeDrawAll))
      { s with crcAcc := wireBytes (.drawAll ch crc) })

/-- `DRAW_ALL` (43 R190). Inside another frame its bytes are that frame's (41 R149). -/
def execDrawAll (ch : Byte) (crc : Word) (s : State) : Outcome :=
  match s.dstate with
  | .idle => .next (runDrawAll ch crc s)
  | _ => .next (deliver (.drawAll ch crc) s)

/-- `XFER_DONE` (43 R196). The handler is unconditional (60 R240); that the event comes once for each
transfer, after its last lane, is the pipeline's duty (60 R239; `completeTransfer`). No transfer is in
flight after it, so no earlier content of the buffer can still be read (20_memory R72). -/
def execXferDone (s : State) : Outcome :=
  .next { s with busy := false, latchCount := s.cfg.latchTicks, pastBp := [] }

/-- `TICK` (43 R197). -/
def execTick (s : State) : Outcome :=
  .next (if s.latchCount != 0 then { s with latchCount := s.latchCount - 1 } else s)

end Sys2Proof.Machine
end

