-- ==== Sys2Proof/Machine/SetChannel.lean ====
section
/-! DEFINITION. The set-channel records and the commit policy (spec 41_frame_decoder R139 to R147,
42_set_channel_records). -/

namespace Sys2Proof.Machine

/-- `TailFill(hType, c, newLen)` (41 R147), for the record the frame carries. -/
def tailFill (r : Record) (c : Byte) (s : State) : Outcome :=
  match r with
  | .apaData _ _ _ =>
    match s.cfg.tailFill with
    | .zero => fillOp false (newLen r) c (s.cfg.cap - newLen r) s
    | .one => fillOp true (newLen r) c (s.cfg.cap - newLen r) s
    | .none => .next s
  | .ws _ _ _ => fillOp false (newLen r) c (s.cfg.cap - newLen r) s
  | .apaClk _ => fillOp false (newLen r) c (s.cfg.cap - newLen r) s

/-- `skip` (41 R144, conflict C4): a same-type slot no longer than the new one. -/
def skipsTailFill (old : Slot) (r : Record) : Bool :=
  old.tag == (slotOf r).tag && decide (slotLen old ≤ newLen r)

/-- `CommitMatch()` (41 R144) on slot `c`. -/
def commitMatch (c : Fin 8) (r : Record) (s : State) : Outcome :=
  let t := { s with ch := s.ch.set c.val (slotOf r) c.isLt }
  if skipsTailFill s.ch[c] r then .next t else tailFill r (BitVec.ofNat 8 c.val) t

/-- `CommitMismatch()` (41 R145) on slot `c`. -/
def commitMismatch (c : Fin 8) (s : State) : Outcome :=
  fillOp false 0 (BitVec.ofNat 8 c.val) s.cfg.cap
    { s with ch := s.ch.set c.val zeroSlot c.isLt }

/-- `Finish()` of a set-channel record (41 R143, R146). -/
def finishSet (r : Record) (addressed : Bool) (phys : Byte) (crcOk : Bool) (s : State) : Outcome :=
  let t := if crcOk then s else countError .crc s
  if addressed then
    if h : phys.toNat < 8 then
      if crcOk then commitMatch ⟨phys.toNat, h⟩ r t else commitMismatch ⟨phys.toNat, h⟩ t
    else .refused .decoderStateUnreachable
  else .next t

/-- One complete pixel, pixel number `p`: assembled and encoded at once (41 R140). -/
def loadPixel (r : Record) (phys : Byte) (p : Nat) (ein : List Byte) (s : State) : Outcome :=
  let px := assemblePixel s.cfg r ein s.drawn
  encodeOp (p * pixelBytes r) phys px.1 (pixelBytes r) { s with drawn := px.2 }

/-- `count` pixels from pixel `p` on, their wire elements taken from `data` in order (41 R140). -/
def loadPixels (r : Record) (phys : Byte) : Nat → Nat → List Byte → State → Outcome
  | 0, _, _, s => .next s
  | count + 1, p, data, s =>
    andThen (loadPixel r phys p (data.take (wireElems r)) s)
      (loadPixels r phys count (p + 1) (data.drop (wireElems r)))

/-- One invocation on a set-channel frame (42 R160): refused by the precheck at the end of the
parameter block, or pixels, trailer, `Finish()`. `A` holds the bytes read. -/
def runSet (ch : Byte) (r : Record) (body : Option Payload) (s : State) : Outcome :=
  let s0 := { s with crcAcc := setFrameBytes ch r body }
  match body with
  | none => .next (raiseError .record s0)
  | some p =>
    andThen (loadPixels r (physOf s.cfg ch) (pixelCount r) 0 p.data s0) fun s1 =>
      andThen
        (finishSet r (isAddressed s.cfg ch) (physOf s.cfg ch)
          (p.crc == crc32 (coveredBytes ch r p.data)) s1)
        fun s2 => .next (endInvocation s2)

/-- A set-channel frame as an instruction: one invocation when the decoder is at S_IDLE and the term
is such an invocation; else its bytes stand next in the stream, and the decoder reads them as it
comes to them (41 R149). -/
def execSet (i : Instr) (ch : Byte) (r : Record) (body : Option Payload) (s : State) : Outcome :=
  if s.dstate == .idle && bodyWellFormed s.cfg r body then runSet ch r body s
  else .next (deliver i s)

/-- `SET_WS2812` (42 R161). -/
def execSetWs2812 (ch elemCount orders : Byte) (pixels : Half) (body : Option Payload) (s : State) :
    Outcome :=
  execSet (.setWs2812 ch elemCount orders pixels body) ch (.ws elemCount orders pixels) body s

/-- `SET_APA102_DATA` (42 R165). -/
def execSetApa102Data (ch : Byte) (freq : Word) (orders : Byte) (pixels : Half)
    (body : Option Payload) (s : State) : Outcome :=
  execSet (.setApa102Data ch freq orders pixels body) ch (.apaData freq orders pixels) body s

/-- `SET_APA102_CLOCK` (42 R169). -/
def execSetApa102Clock (ch : Byte) (freq : Word) (crc : Option Word) (s : State) : Outcome :=
  execSet (.setApa102Clock ch freq crc) ch (.apaClk freq) (crc.map fun w => ⟨[], w⟩) s

end Sys2Proof.Machine
end

