-- ==== Sys2Proof/Machine/Decoder.lean ====
section
/-! DEFINITION. The frame decoder byte by byte (spec 41_frame_decoder R130 to R151), and the magic
miss as an instruction. -/

namespace Sys2Proof.Machine

/-- `S_IDLE` (41 R131): the trigger test; with fewer than TRIGGER_MIN bytes the decoder holds. -/
def stepIdle (s : State) : State :=
  if s.cfg.triggerMin ≤ available s then { resetCrc s with dstate := .magic 0 } else s

/-- `S_MAGIC(i)` with byte `b` read (41 R132, R133). -/
def stepMagic (i : Fin 4) (b : Byte) (s : State) : Outcome :=
  if b = magicByte i then
    .next { s with dstate := if i = 3 then .hdr 0 else .magic (i + 1) }
  else .next (raiseError .magic s)

/-- The trailer comes next: the local CRC is sampled now (41 R141). -/
def toTrailer (s : State) : State :=
  { s with dstate := .crc 0, lat := { s.lat with crcLocal := currentCrc s } }

/-- Dispatch on the record type (41 R136, R137). -/
def dispatchRecord (s : State) : State :=
  if s.lat.hType = typeDrawAll then toTrailer s
  else if parLen s.lat.hType = 0 then raiseError .recType s
  else { s with dstate := .param 0 }

/-- `S_HDR(j)` with byte `b` read (41 R134, R135). -/
def stepHdr (j : Fin 2) (b : Byte) (s : State) : Outcome :=
  if j = 0 then .next { s with dstate := .hdr 1, lat := { s.lat with hChannel := b } }
  else
    .next (dispatchRecord { s with
      lat := { s.lat with
        hType := b
        addressed := isAddressed s.cfg s.lat.hChannel
        phys := physOf s.cfg s.lat.hChannel } })

/-- The parameter block is complete (41 R138, R139). -/
def paramsDone (s : State) : Outcome :=
  match recordOf s.lat.hType s.lat.par with
  | none => .refused .decoderStateUnreachable
  | some r =>
    if precheck s.cfg r then
      if wireByteCount r = 0 then .next (toTrailer s)
      else .next { s with dstate := .pix, lat := { s.lat with pIdx := 0, eIdx := 0 } }
    else .next (raiseError .record s)

/-- `S_PARAM(j)` with byte `b` read (41 R138). -/
def stepParam (j : Fin 7) (b : Byte) (s : State) : Outcome :=
  let t := { s with lat := { s.lat with par := s.lat.par.set j.val b j.isLt } }
  if j.val + 1 < parLen s.lat.hType then .next { t with dstate := .param (j + 1) }
  else if j.val + 1 = parLen s.lat.hType then paramsDone t
  else .refused .decoderStateUnreachable

/-- After pixel `pIdx` (41 R140): the next pixel, or the trailer. -/
def nextPixel (r : Record) (s : State) : State :=
  let t := { s with lat := { s.lat with eIdx := 0, pIdx := s.lat.pIdx + 1 } }
  if t.lat.pIdx.toNat = pixelCount r then toTrailer t else t

/-- `S_PIX` with byte `b` read (41 R140). -/
def stepPix (b : Byte) (s : State) : Outcome :=
  match recordOf s.lat.hType s.lat.par with
  | none => .refused .decoderStateUnreachable
  | some r =>
    let t := { s with lat := { s.lat with ein := s.lat.ein.set s.lat.eIdx.toNat b } }
    if t.lat.eIdx.toNat + 1 < wireElems r then
      .next { t with lat := { t.lat with eIdx := t.lat.eIdx + 1 } }
    else
      andThen
        (loadPixel r t.lat.phys t.lat.pIdx.toNat (t.lat.ein.toList.take (wireElems r)) t)
        fun u => .next (nextPixel r u)

/-- `Finish()` (41 R143). -/
def finish (s : State) : Outcome :=
  let crcOk := s.lat.crcWire == s.lat.crcLocal
  if s.lat.hType = typeDrawAll then .next (finishDraw crcOk s)
  else
    match recordOf s.lat.hType s.lat.par with
    | none => .refused .decoderStateUnreachable
    | some r => finishSet r s.lat.addressed s.lat.phys crcOk s

/-- `S_CRC(k)` with byte `b` read (41 R142). -/
def stepCrc (k : Fin 4) (b : Byte) (s : State) : Outcome :=
  let t := { s with lat := { s.lat with t := s.lat.t.set k.val b k.isLt } }
  if k = 3 then
    let u := { t with
      lat := { t.lat with crcWire := le32 t.lat.t[0] t.lat.t[1] t.lat.t[2] t.lat.t[3] } }
    andThen (finish u) fun v => .next (endInvocation v)
  else .next { t with dstate := .crc (k + 1) }

/-- One `ReadByte()` and what the rules attach to that byte (41 R130). With no byte in the queue the
decoder holds (20_memory R62, 41 R149). -/
def withByte (s : State) (f : Byte → State → Outcome) : Outcome :=
  match readByte s with
  | none => .next s
  | some (b, t) => f b t

/-- One decoder step (41 R130). -/
def decoderStep (s : State) : Outcome :=
  match s.dstate with
  | .idle => .next (stepIdle s)
  | .magic i => withByte s (stepMagic i)
  | .hdr j => withByte s (stepHdr j)
  | .param j => withByte s (stepParam j)
  | .pix => withByte s stepPix
  | .crc k => withByte s (stepCrc k)

/-- `k` decoder steps, stopping at the first stop. -/
def decoderSteps : Nat → State → Outcome
  | 0, s => .next s
  | k + 1, s => andThen (decoderStep s) (decoderSteps k)

/-- `MAGIC_MISS` (41 R133) at S_IDLE: the compared bytes are read, the miss counted. -/
def execMagicMiss (i : Fin 4) (b : Byte) (s : State) : Outcome :=
  if s.dstate == .idle && wellFormed s.cfg (.magicMiss i b) then
    .next (raiseError .magic { s with crcAcc := wireBytes (.magicMiss i b) })
  else .next (deliver (.magicMiss i b) s)

end Sys2Proof.Machine
end

