-- ==== Sys2Proof/Machine/Dispatch.lean ====
section
/-! DEFINITION. One arm per row of spec/opcode_table.json. -/

namespace Sys2Proof.Machine

def exec (i : Instr) (s : State) : Host.Outcome State Fault Refusal :=
  match i with
  | .setWs2812 ch n ord px body => Sys2Proof.Machine.execSetWs2812 ch n ord px body s
  | .drawAll ch crc => Sys2Proof.Machine.execDrawAll ch crc s
  | .setApa102Data ch f ord px body => Sys2Proof.Machine.execSetApa102Data ch f ord px body s
  | .setApa102Clock ch f crc => Sys2Proof.Machine.execSetApa102Clock ch f crc s
  | .encode off c bytes n => Sys2Proof.Machine.execEncode off c bytes n s
  | .fillZero off c cnt => Sys2Proof.Machine.execFillZero off c cnt s
  | .fillOne off c cnt => Sys2Proof.Machine.execFillOne off c cnt s
  | .drawAttempt => Sys2Proof.Machine.execDrawAttempt s
  | .xferDone => Sys2Proof.Machine.execXferDone s
  | .tick => Sys2Proof.Machine.execTick s
  | .magicMiss i0 b => Sys2Proof.Machine.execMagicMiss i0 b s

end Sys2Proof.Machine
end

