-- ==== Sys2Proof/Machine/Agents.lean ====
section
/-! DEFINITION. The moves of the agents (spec 10_state R40, 41 R151, 60 R229, R232). -/

namespace Sys2Proof.Machine

/-- The six bytes read up to a reserved record type, and E_RECTYPE (41 R137). -/
def endReserved (ch t : Byte) (rest : List Byte) (s : State) : State :=
  raiseError .recType { s with queue := rest, crcAcc := headerBytes ch t }

/-- One invocation from S_IDLE, triggered by enough bytes (41 R131), on the bytes in front of the
decoder: the instruction they are (41 R148), or E_RECTYPE. -/
def idleInvocation (s : State) : Outcome :=
  if s.cfg.triggerMin ≤ available s then
    match decode s.cfg s.queue with
    | .instr i rest => exec i { s with queue := rest }
    | .rejected (.reservedType ch t rest) => .next (endReserved ch t rest s)
    | .rejected .incomplete => decoderStep s
  else decoderStep s

/-- The decoder goes on: a whole invocation where one starts here and all its bytes are there, else
one decoder step. -/
def invocation (s : State) : Outcome :=
  match s.dstate with
  | .idle => idleInvocation s
  | _ => decoderStep s

/-- The Output Pipeline raises its completion event: when it has read its last lane, and so once for
each `ArmTransfer`, and at no other time (60 R239); an event out of contract has no move (92 D29,
assumption 7). -/
def completeTransfer (s : State) : Outcome :=
  if transferComplete s then exec .xferDone s else .next s

/-- The move of one agent (each is indivisible: 41 R151, 43 R200). -/
def runMove (m : Move) (s : State) : Outcome :=
  match m with
  | .decode => decoderStep s
  | .invocation => invocation s
  | .byte b => .next (linkByte b s)
  | .xferDone => completeTransfer s
  | .tick => exec .tick s
  | .emit version => emitLane version s
  | .reset => .next (applyReset s)

end Sys2Proof.Machine
end

