-- ==== Sys2Proof/Machine/Step.lean ====
section
/-! DEFINITION. One step of the machine. -/

namespace Sys2Proof.Machine

/-- The agent the schedule names moves; with an empty schedule the decoder does (60 R232). -/
def step (s : State) : Host.Outcome State Fault Refusal :=
  match s.sched with
  | [] => invocation s
  | m :: rest => runMove m { s with sched := rest }

/-- `s` with the bytes of one table word, as the link would have delivered them, in front of an idle
decoder that is to move next (assumption 6). Enough bytes for the trigger are there. -/
def State.withFetchWord (s : State) (nbits w : Nat) : State :=
  { s with
    dstate := .idle
    sched := []
    queue := tableFrame s.cfg nbits w ++
      List.replicate (s.cfg.triggerMin - (tableFrame s.cfg nbits w).length) 0 }

end Sys2Proof.Machine
end

