-- ==== Sys2Proof/Safety.lean ====
section
/-! DEFINITION. The terms claims are stated in: the invariant of the machine, the clean tail of a
channel, the quantities of a draw, quiescence (spec 10_state R26, R29, 43 R192, R193, 70 R281). -/

namespace Sys2Proof.Machine

/-! ### The invariant -/

/-- A slot's invariants (10_state R23 to R26). -/
def slotOk (cfg : Config) (sl : Slot) : Bool :=
  match sl.tag with
  | .none => sl == zeroSlot
  | .ws2812 => (sl.elemCount == 3 || sl.elemCount == 4) && sl.freq == 0 &&
      decide (slotLen sl ≤ cfg.cap)
  | .apaData => sl.elemCount == 0 && sl.freq != 0 && decide (slotLen sl ≤ cfg.cap)
  | .apaClk => sl.elemCount == 0 && sl.orders == 0 && sl.pixels == 0 && sl.freq != 0

/-- `addressed` and `phys` are what the channel byte says (10_state R39, 41 R135). -/
def addressOk (s : State) : Bool :=
  s.lat.addressed == isAddressed s.cfg s.lat.hChannel && s.lat.phys == physOf s.cfg s.lat.hChannel

/-- The record in progress has passed the precheck (41 R139). -/
def recordOk (s : State) : Bool :=
  match recordOf s.lat.hType s.lat.par with
  | some r => precheck s.cfg r
  | none => false

/-- There is a pixel and a wire element still to come (41 R140). -/
def pixelOk (s : State) : Bool :=
  match recordOf s.lat.hType s.lat.par with
  | some r => decide (s.lat.pIdx.toNat < pixelCount r) && decide (s.lat.eIdx.toNat < wireElems r)
  | none => false

/-- The latches fit the decoder's state (41 R130 to R142). -/
def decoderOk (s : State) : Bool :=
  match s.dstate with
  | .idle => true
  | .magic _ => true
  | .hdr _ => true
  | .param j => addressOk s && decide (j.val < parLen s.lat.hType)
  | .pix => addressOk s && recordOk s && pixelOk s
  | .crc _ => addressOk s && (s.lat.hType == typeDrawAll || recordOk s)

/-- A transfer is never longer than the limit or the buffer (60 R239). -/
def armOk (cfg : Config) (a : Arm) : Bool :=
  decide (8 ≤ a.bitCount) && decide (a.bitCount ≤ cfg.maxBitCycles) &&
    decide (a.bitCount ≤ 8 * cfg.cap)

/-- The counters fit their width (10_state R33). -/
def countersOk (s : State) : Bool :=
  decide (s.cntCrcErr < 2 ^ s.cfg.cntW) && decide (s.cntFrameMiss < 2 ^ s.cfg.cntW) &&
    decide (s.cntDraws < 2 ^ s.cfg.cntW) && decide (s.cntOverdraw < 2 ^ s.cfg.cntW)

/-- While busy a transfer is in flight, and it has read no lane past its last (60 R239). -/
def flightOk (s : State) : Bool :=
  match s.arms.getLast? with
  | some a => !s.busy || decide (s.lanesOut.length ≤ a.bitCount)
  | none => !s.busy

/-- What holds at reset and at every step. -/
structure Invariant (s : State) : Prop where
  legal : s.cfg.Legal
  memWf : s.bp.wf = true
  memBelow : Memory.below (8 * s.cfg.cap) s.bp = true
  slots : ∀ c : Fin 8, slotOk s.cfg s.ch[c] = true
  latch : s.latchCount ≤ s.cfg.latchTicks
  decoder : decoderOk s = true
  arms : ∀ a ∈ s.arms, armOk s.cfg a = true
  counters : countersOk s = true
  flight : flightOk s = true

/-! ### Tails (10_state R29) -/

/-- The record whose pixels may already stand in channel `c` without being committed
(70 R271). -/
def receivedRecord (s : State) (c : Nat) : Option Record :=
  if s.lat.addressed && s.lat.phys.toNat == c then
    match s.dstate with
    | .pix => recordOf s.lat.hType s.lat.par
    | .crc _ => recordOf s.lat.hType s.lat.par
    | .idle => none
    | .magic _ => none
    | .hdr _ => none
    | .param _ => none
  else none

/-- From this byte on channel `c` holds tail. -/
def tailStart (s : State) (c : Fin 8) : Nat :=
  match receivedRecord s c.val with
  | some r => max (slotLen s.ch[c]) (newLen r)
  | none => slotLen s.ch[c]

/-- A tail byte is 0x00, or 0xFF where APA102 tails are filled with ones (10_state R29). -/
def tailByteOk (cfg : Config) (b : Byte) : Prop := b = 0x00 ∨ (cfg.tailFill = .one ∧ b = 0xFF)

/-- The buffer invariant of 10_state R29. -/
def TailsClean (s : State) : Prop :=
  ∀ c : Fin 8, ∀ i, tailStart s c ≤ i → i < s.cfg.cap → tailByteOk s.cfg (chanByte s.bp c.val i)

/-! ### Records and draws -/

/-- The set-channel instruction of a record. -/
def setInstr (ch : Byte) (r : Record) (body : Option Payload) : Instr :=
  match r with
  | .ws n ord px => .setWs2812 ch n ord px body
  | .apaData f ord px => .setApa102Data ch f ord px body
  | .apaClk f => .setApa102Clock ch f (body.map Payload.crc)

/-- The greatest length of an enabled slot, `maxBytes` of 43 R192. -/
def longestEnabled (s : State) : Nat :=
  ((s.ch.toList.filter slotEnabled).map slotLen).foldl max 0

/-- Slot `sl` is an enabled WS2812 slot. -/
def wsEnabled (sl : Slot) : Bool := sl.tag == .ws2812 && slotEnabled sl

/-- Slot `sl` is an enabled APA102 clock slot. -/
def clkEnabled (sl : Slot) : Bool := sl.tag == .apaClk && slotEnabled sl

/-- Slot `sl` is an enabled APA102 slot, data or clock. -/
def apaEnabled (sl : Slot) : Bool := (sl.tag == .apaData || sl.tag == .apaClk) && slotEnabled sl

/-- No enabled WS2812 slot forbids a draw now (43 R192). -/
abbrev latchPermits (s : State) : Prop :=
  s.latchCount = 0 ∨ ∀ c : Fin 8, wsEnabled s.ch[c] = false

/-! ### Runs -/

/-- `k` steps, stopping at the first stop. -/
def steps : Nat → State → Outcome
  | 0, s => .next s
  | k + 1, s => andThen (step s) (steps k)

/-! ### Quiescence -/

/-- A quiescent state (70 R281): nothing to read, nothing in flight, no window open, no byte to
come. -/
def quiescent (s : State) : Bool :=
  decide (available s < s.cfg.triggerMin) && s.dstate == .idle && !s.busy && s.latchCount == 0 &&
    s.sched.all fun m => match m with
      | .byte _ => false
      | .decode => true
      | .invocation => true
      | .xferDone => true
      | .tick => true
      | .emit _ => true
      | .reset => true

end Sys2Proof.Machine
end

