-- ==== Sys2Proof/Certificates/Slice0/Obligations.lean ====
section
/-! DEFINITION. The statements for the provers. A frame is written as an equation of states: a field
that the right side does not set is unchanged. Latches and the count of free values are bound by
existentials where an invocation ends: the latches hold ANY there (10_state R39, assumption 3). -/

open Sys2Proof Sys2Proof.Machine

/-! ### Encoding -/

/-- Words written out from the encoding tables (30_encoding R84 to R89; frames FA, FD, FB, FC of
95_test_vectors) decode to the instructions they stand for. -/
def Obligations.WordsOfTheTablesDecode : Prop :=
  ∀ cfg : Config, 6 ≤ cfg.cap →
    decode cfg [0x55, 0x50, 0x58, 0x4C, 0x00, 0x01, 0x03, 0xE1, 0x02, 0x00,
        0x10, 0x20, 0x30, 0xFF, 0x00, 0x80, 0x0B, 0xD3, 0x8A, 0xC7]
      = .instr (.setWs2812 0x00 3 0xE1 2
          (some ⟨[0x10, 0x20, 0x30, 0xFF, 0x00, 0x80], 0xC78AD30B⟩)) [] ∧
    decode cfg [0x55, 0x50, 0x58, 0x4C, 0x00, 0x02, 0xE9, 0xC5, 0xA5, 0x4C]
      = .instr (.drawAll 0x00 0x4CA5C5E9) [] ∧
    decode cfg [0x55, 0x50, 0x58, 0x4C, 0x01, 0x03, 0x80, 0x84, 0x1E, 0x00, 0x06, 0x01, 0x00,
        0x11, 0x22, 0x33, 0x07, 0x32, 0x32, 0xBB]
      = .instr (.setApa102Data 0x01 2000000 0x06 1 (some ⟨[0x11, 0x22, 0x33], 0xBB323207⟩)) [] ∧
    decode cfg [0x55, 0x50, 0x58, 0x4C, 0x02, 0x04, 0x80, 0x84, 0x1E, 0x00, 0x01, 0xAE, 0xE1, 0xAC]
      = .instr (.setApa102Clock 0x02 2000000 (some 0xACE1AE01)) [] ∧
    decode cfg [0x55, 0x50, 0x55] = .instr (.magicMiss 2 0x55) []

/-- Decoding the bytes of a well-formed instruction gives it back, whatever follows in the stream. -/
def Obligations.DecodeOfEncodeIsTheInstruction : Prop :=
  ∀ (cfg : Config) (i : Instr) (bs rest : List Byte),
    wellFormed cfg i = true → encode i = some bs → decode cfg (bs ++ rest) = .instr i rest

/-- What the decoder reads is a well-formed instruction, and the bytes consumed are its encoding: the
bytes of the stream have one meaning. -/
def Obligations.EncodeOfDecodeIsTheBytesConsumed : Prop :=
  ∀ (cfg : Config) (bs rest : List Byte) (i : Instr), decode cfg bs = .instr i rest →
    wellFormed cfg i = true ∧ ∃ w, encode i = some w ∧ bs = w ++ rest

/-- A record type outside 1 to 4 selects no instruction (30_encoding R92, 41 R137). -/
def Obligations.ReservedRecordTypesAreRejected : Prop :=
  ∀ (cfg : Config) (ch t : Byte) (rest : List Byte), t = 0x00 ∨ 0x05 ≤ t.toNat →
    decode cfg (0x55 :: 0x50 :: 0x58 :: 0x4C :: ch :: t :: rest)
      = .rejected (.reservedType ch t rest)

/-- Devices of equal capacity read the same instructions from the same bytes, whatever their bus
identities and other parameters: all stay in step (60 R242). -/
def Obligations.DevicesOfEqualCapacityStayInStep : Prop :=
  ∀ (cfg cfg' : Config) (bs : List Byte), cfg.cap = cfg'.cap → decode cfg bs = decode cfg' bs

/-- The two fields of the channel byte, and who is addressed (30_encoding R82). -/
def Obligations.ChannelByteFields : Prop :=
  ∀ (cfg : Config) (ch : Byte),
    (isAddressed cfg ch = true ↔ ch.toNat / 8 = cfg.busId.toNat) ∧
    (ch.getLsbD 7 = true ∨ ch.getLsbD 6 = true → isAddressed cfg ch = false) ∧
    (isAddressed cfg ch = true → (physOf cfg ch).toNat = 7 - ch.toNat % 8) ∧
    (isAddressed cfg ch = false → physOf cfg ch = 0xFF)

/-- The conditions of the precheck, with exact products (41 R139). -/
def Obligations.PrecheckConditions : Prop :=
  ∀ (cfg : Config) (n ord : Byte) (px : Half) (f : Word),
    (precheck cfg (.ws n ord px) = true ↔
      (n = 3 ∨ n = 4) ∧ px.toNat * n.toNat ≤ cfg.cap) ∧
    (precheck cfg (.apaData f ord px) = true ↔ f ≠ 0 ∧ px.toNat * 4 ≤ cfg.cap) ∧
    (precheck cfg (.apaClk f) = true ↔ f ≠ 0)

/-- The empty list and the check value of CRC-32/ISO-HDLC (20_memory R66; constants PRESUMED,
assumption 9). -/
def Obligations.CrcCheckValues : Prop :=
  crc32 [] = 0x00000000 ∧
    crc32 [0x31, 0x32, 0x33, 0x34, 0x35, 0x36, 0x37, 0x38, 0x39] = 0xCBF43926 ∧
    crc32 [0x55, 0x50, 0x58, 0x4C] = 0xBC23D4DB

/-! ### The step -/

/-- A step runs the decoded instruction: with an empty schedule, at S_IDLE with enough bytes for the
trigger, the step is `exec` of what the bytes decode to, its bytes consumed. -/
def Obligations.StepRunsTheDecodedInstruction : Prop :=
  ∀ (s : State) (i : Instr) (rest : List Byte),
    s.sched = [] → s.dstate = .idle → s.cfg.triggerMin ≤ s.queue.length →
    decode s.cfg s.queue = .instr i rest →
    step s = exec i { s with queue := rest }

/-- A move at the head of the schedule is that agent's step; the step takes it off the schedule. -/
def Obligations.StepTakesTheScheduledMove : Prop :=
  ∀ (s : State) (ms : List Move),
    (s.sched = .xferDone :: ms → step s = completeTransfer { s with sched := ms }) ∧
    (s.sched = .tick :: ms → step s = exec .tick { s with sched := ms }) ∧
    (s.sched = .decode :: ms → step s = decoderStep { s with sched := ms }) ∧
    (s.sched = .invocation :: ms → step s = invocation { s with sched := ms }) ∧
    (∀ v, s.sched = .emit v :: ms → step s = emitLane v { s with sched := ms }) ∧
    (∀ b, s.sched = .byte b :: ms →
      step s = .next { s with sched := ms, queue := s.queue ++ [b] })

/-- Reset may be applied at any time and always gives the state of 10_state R42 (R43). The schedule
and the count of free values go on: they are the model's (assumptions 3 and 4). -/
def Obligations.ResetAtAnyTimeGivesTheResetState : Prop :=
  ∀ (s : State) (ms : List Move), s.sched = .reset :: ms →
    step s = .next { State.resetWith s.cfg with sched := ms, drawn := s.drawn }

/-- A reserved record type ends the invocation after the type byte: no counter, nothing more consumed
(41 R137, the spec's decision D20). That one step reads all six bytes is the model's choice: with an
empty schedule a step runs a whole invocation (assumption 4). -/
def Obligations.ReservedTypeEndsTheInvocation : Prop :=
  ∀ (s : State) (ch t : Byte) (rest : List Byte),
    s.sched = [] → s.dstate = .idle → s.cfg.triggerMin ≤ s.queue.length →
    s.queue = 0x55 :: 0x50 :: 0x58 :: 0x4C :: ch :: t :: rest → t = 0x00 ∨ 0x05 ≤ t.toNat →
    ∃ lat d, step s = .next { s with
      queue := rest, crcAcc := [0x55, 0x50, 0x58, 0x4C, ch, t], lat := lat, drawn := d }

/-- Byte by byte, the decoder gives what the instruction gives: the trigger step and one decoder step
per consumed byte end in exactly the outcome of `exec` (41 R130 to R148). -/
def Obligations.ByteByByteRunIsTheInstruction : Prop :=
  ∀ (s : State) (i : Instr) (bs rest : List Byte),
    s.dstate = .idle → s.cfg.triggerMin ≤ s.queue.length →
    decode s.cfg s.queue = .instr i rest → encode i = some bs →
    decoderSteps (bs.length + 1) s = exec i { s with queue := rest }

/-- A frame inside another frame, or one whose declared and actual length differ, is plain bytes: they
stand next in the stream (the model's reading of 41 R149, assumption 5). -/
def Obligations.BytesInsideAFrameAreThatFrames : Prop :=
  ∀ (s : State) (i : Instr) (bs : List Byte), encode i = some bs →
    (s.dstate ≠ .idle ∨ wellFormed s.cfg i = false) →
    exec i s = .next { s with queue := bs ++ s.queue }

/-! ### Decoder steps -/

/-- `ReadByte()` waits on an empty queue; else it removes the first byte and feeds the accumulator
(20_memory R62). -/
def Obligations.ReadByteConsumesAndAccumulates : Prop :=
  ∀ s : State,
    (s.queue = [] → readByte s = none ∧ (s.dstate ≠ .idle → decoderStep s = .next s)) ∧
    (∀ b q, s.queue = b :: q →
      readByte s = some (b, { s with queue := q, crcAcc := s.crcAcc ++ [b] }))

/-- S_IDLE: with TRIGGER_MIN bytes there the CRC context is reset and the magic scan begins, else the
decoder holds (41 R131). -/
def Obligations.TriggerStartsAnInvocation : Prop :=
  ∀ s : State, s.dstate = .idle →
    (s.cfg.triggerMin ≤ s.queue.length →
      decoderStep s = .next { s with crcAcc := [], dstate := .magic 0 }) ∧
    (s.queue.length < s.cfg.triggerMin → decoderStep s = .next s)

/-- The magic scan, one byte (41 R132, R133). -/
def Obligations.MagicScanComparesOneByte : Prop :=
  ∀ (s : State) (i : Fin 4) (b : Byte) (q : List Byte), s.dstate = .magic i → s.queue = b :: q →
    (b = magicByte i → decoderStep s = .next { s with
      queue := q, crcAcc := s.crcAcc ++ [b],
      dstate := if i = 3 then .hdr 0 else .magic (i + 1) }) ∧
    (b ≠ magicByte i → ∃ lat d, decoderStep s = .next { s with
      queue := q, crcAcc := s.crcAcc ++ [b], cntFrameMiss := (s.cntFrameMiss + 1) % 2 ^ s.cfg.cntW,
      dstate := .idle, lat := lat, drawn := d })

/-- The header: the channel byte is latched, then the record type, the addressing and the dispatch
(41 R134 to R137). -/
def Obligations.HeaderLatchesAndDispatches : Prop :=
  ∀ (s : State) (b : Byte) (q : List Byte), s.queue = b :: q →
    (s.dstate = .hdr 0 → decoderStep s = .next { s with
      queue := q, crcAcc := s.crcAcc ++ [b], dstate := .hdr 1,
      lat := { s.lat with hChannel := b } }) ∧
    (s.dstate = .hdr 1 →
      (b = 0x01 ∨ b = 0x03 ∨ b = 0x04 → decoderStep s = .next { s with
        queue := q, crcAcc := s.crcAcc ++ [b], dstate := .param 0,
        lat := { s.lat with
          hType := b
          addressed := isAddressed s.cfg s.lat.hChannel
          phys := physOf s.cfg s.lat.hChannel } }) ∧
      (b = 0x02 → decoderStep s = .next { s with
        queue := q, crcAcc := s.crcAcc ++ [b], dstate := .crc 0,
        lat := { s.lat with
          hType := b
          addressed := isAddressed s.cfg s.lat.hChannel
          phys := physOf s.cfg s.lat.hChannel
          crcLocal := crc32 (s.crcAcc ++ [b]) } }) ∧
      (b = 0x00 ∨ 0x05 ≤ b.toNat → ∃ lat d, decoderStep s = .next { s with
        queue := q, crcAcc := s.crcAcc ++ [b], dstate := .idle, lat := lat, drawn := d }))

/-- The last parameter byte: a record the precheck refuses ends the invocation, an accepted one goes
on to its pixels, or to its trailer when it has none (41 R138, R139). -/
def Obligations.LastParameterByteRunsThePrecheck : Prop :=
  ∀ (s : State) (j : Fin 7) (b : Byte) (q : List Byte) (r : Record),
    s.dstate = .param j → s.queue = b :: q → j.val + 1 = parLen s.lat.hType →
    recordOf s.lat.hType (s.lat.par.set j.val b j.isLt) = some r →
    (precheck s.cfg r = false → ∃ lat d, decoderStep s = .next { s with
      queue := q, crcAcc := s.crcAcc ++ [b], dstate := .idle, lat := lat, drawn := d }) ∧
    (precheck s.cfg r = true → 0 < wireByteCount r → decoderStep s = .next { s with
      queue := q, crcAcc := s.crcAcc ++ [b], dstate := .pix,
      lat := { s.lat with par := s.lat.par.set j.val b j.isLt, pIdx := 0, eIdx := 0 } }) ∧
    (precheck s.cfg r = true → wireByteCount r = 0 → decoderStep s = .next { s with
      queue := q, crcAcc := s.crcAcc ++ [b], dstate := .crc 0,
      lat := { s.lat with
        par := s.lat.par.set j.val b j.isLt, crcLocal := crc32 (s.crcAcc ++ [b]) } })

/-- A tick may fall between any two decoder steps: but for the step that reads the last trailer byte,
its order against a decoder step does not show (20_memory R74, 41 R151). -/
def Obligations.TickCommutesWithDecoderSteps : Prop :=
  ∀ s : State, s.dstate ≠ .crc 3 →
    andThen (decoderStep s) (exec .tick) = andThen (exec .tick s) decoderStep

/-- MAGIC_MISS: the compared bytes are consumed, and no more; the miss is counted once; nothing else
changes (41 R133). The second clause is one step that runs the whole miss, which is the model's
choice: with an empty schedule a step runs a whole invocation (assumption 4). -/
def Obligations.MagicMissCountsAndConsumesTheComparedBytes : Prop :=
  ∀ (s : State) (i : Fin 4) (b : Byte), s.dstate = .idle → b ≠ magicByte i →
    (∃ lat d, exec (.magicMiss i b) s = .next { s with
      cntFrameMiss := (s.cntFrameMiss + 1) % 2 ^ s.cfg.cntW, crcAcc := magic.take i.val ++ [b],
      lat := lat, drawn := d }) ∧
    (∀ rest, s.sched = [] → s.cfg.triggerMin ≤ s.queue.length →
      s.queue = magic.take i.val ++ b :: rest →
      ∃ lat d, step s = .next { s with
        queue := rest, cntFrameMiss := (s.cntFrameMiss + 1) % 2 ^ s.cfg.cntW
        crcAcc := magic.take i.val ++ [b], lat := lat, drawn := d })

/-- A run of bytes none of which is 0x55 costs one miss a byte and changes nothing else (41 R133).
That each is one step is the model's choice: with an empty schedule a step runs a whole invocation
(assumption 4; by 41 R130 a miss of one byte is a trigger step and a byte step). -/
def Obligations.NonMagicBytesAreOneMissEach : Prop :=
  ∀ (s : State) (bs rest : List Byte),
    s.sched = [] → s.dstate = .idle → s.queue = bs ++ rest → s.cfg.triggerMin ≤ rest.length + 1 →
    s.cntFrameMiss < 2 ^ s.cfg.cntW → (∀ b ∈ bs, b ≠ 0x55) →
    ∃ acc lat d, steps bs.length s = .next { s with
      queue := rest, cntFrameMiss := (s.cntFrameMiss + bs.length) % 2 ^ s.cfg.cntW
      crcAcc := acc, lat := lat, drawn := d }

/-! ### Bit-plane operations -/

/-- ENCODE puts each byte's 8 bits, most significant first, into bit `c` of 8 consecutive lanes,
changes no other bit of any lane and nothing else, and returns the advanced position; with `c >= 8`
or `n = 0` it writes nothing and still returns it (40 R111). -/
def Obligations.EncodeWritesLaneBits : Prop :=
  ∀ (s : State) (off : Nat) (c : Byte) (bytes : List Byte) (n : Nat),
    s.bp.wf = true → off + n ≤ s.cfg.cap → n ≤ bytes.length →
    ∃ t, exec (.encode off c bytes n) s = .next t ∧
      t = { s with bp := t.bp, pastBp := t.pastBp, encodeResult := off + n } ∧
      (c.toNat ≤ 7 → ∀ i, i < n → ∀ k, k < 8 →
        (laneRead t.bp (8 * (off + i) + k)).getLsbD c.toNat = (bytes.getD i 0).getLsbD (7 - k)) ∧
      (∀ L c', ¬(c' = c.toNat ∧ 8 * off ≤ L ∧ L < 8 * (off + n)) →
        (laneRead t.bp L).getLsbD c' = (laneRead s.bp L).getLsbD c') ∧
      (8 ≤ c.toNat ∨ n = 0 → t = { s with encodeResult := off + n })

/-- Round trip: after ENCODE the bytes read back at the channel's bit position are the bytes given
(40 R116). -/
def Obligations.EncodeThenReadBackGivesTheBytes : Prop :=
  ∀ (s : State) (off : Nat) (c : Byte) (bytes : List Byte) (n : Nat),
    s.bp.wf = true → c.toNat ≤ 7 → off + n ≤ s.cfg.cap → n ≤ bytes.length →
    ∃ t, exec (.encode off c bytes n) s = .next t ∧
      ∀ i, i < n → chanByte t.bp c.toNat (off + i) = bytes.getD i 0

/-- FILL_ZERO clears bit `c` of the lanes of `blockCount` blocks and changes no other bit and nothing
else; with `blockCount = 0` or `c >= 8` it writes nothing (40 R114). -/
def Obligations.FillZeroClearsTheBlocks : Prop :=
  ∀ (s : State) (off : Nat) (c : Byte) (blockCount : Nat),
    s.bp.wf = true → off + blockCount ≤ s.cfg.cap →
    ∃ t, exec (.fillZero off c blockCount) s = .next t ∧
      t = { s with bp := t.bp, pastBp := t.pastBp } ∧
      (c.toNat ≤ 7 → ∀ L c', (laneRead t.bp L).getLsbD c' =
        if c' = c.toNat ∧ 8 * off ≤ L ∧ L < 8 * (off + blockCount) then false
        else (laneRead s.bp L).getLsbD c') ∧
      (c.toNat ≤ 7 → ∀ i, off ≤ i → i < off + blockCount → chanByte t.bp c.toNat i = 0x00) ∧
      (8 ≤ c.toNat ∨ blockCount = 0 → t = s)

/-- FILL_ONE sets bit `c` of the lanes of `blockCount` blocks and changes no other bit and nothing
else; with `blockCount = 0` or `c >= 8` it writes nothing (40 R115). -/
def Obligations.FillOneSetsTheBlocks : Prop :=
  ∀ (s : State) (off : Nat) (c : Byte) (blockCount : Nat),
    s.bp.wf = true → off + blockCount ≤ s.cfg.cap →
    ∃ t, exec (.fillOne off c blockCount) s = .next t ∧
      t = { s with bp := t.bp, pastBp := t.pastBp } ∧
      (c.toNat ≤ 7 → ∀ L c', (laneRead t.bp L).getLsbD c' =
        if c' = c.toNat ∧ 8 * off ≤ L ∧ L < 8 * (off + blockCount) then true
        else (laneRead s.bp L).getLsbD c') ∧
      (c.toNat ≤ 7 → ∀ i, off ≤ i → i < off + blockCount → chanByte t.bp c.toNat i = 0xFF) ∧
      (8 ≤ c.toNat ∨ blockCount = 0 → t = s)

/-- An operation on channel `c` changes no byte of another channel, and none of channel `c` outside
its blocks (40 R117). -/
def Obligations.BitPlaneOperationsAreIndependent : Prop :=
  ∀ (s t : State) (off : Nat) (c : Byte) (bytes : List Byte) (n : Nat),
    s.bp.wf = true → c.toNat ≤ 7 →
    (exec (.encode off c bytes n) s = .next t ∨ exec (.fillZero off c n) s = .next t ∨
      exec (.fillOne off c n) s = .next t) →
    (∀ c' i, c' ≠ c.toNat → chanByte t.bp c' i = chanByte s.bp c' i) ∧
    (∀ i, i < off ∨ off + n ≤ i → chanByte t.bp c.toNat i = chanByte s.bp c.toNat i)

/-- With a channel index of 8 or more, the three operations leave everything as it was; ENCODE still
returns the advanced position (40 R111, R112). -/
def Obligations.InvalidChannelIndexWritesNothing : Prop :=
  ∀ (s : State) (off : Nat) (c : Byte) (bytes : List Byte) (n : Nat),
    8 ≤ c.toNat → off + n ≤ s.cfg.cap →
    (n ≤ bytes.length → exec (.encode off c bytes n) s = .next { s with encodeResult := off + n }) ∧
    exec (.fillZero off c n) s = .next s ∧ exec (.fillOne off c n) s = .next s

/-- A call whose blocks pass CAP has no meaning, and the model refuses it (40 R113); so it does an
ENCODE of more bytes than it is given (assumption 13). -/
def Obligations.CallsOutOfRangeAreRefused : Prop :=
  ∀ (s : State) (off : Nat) (c : Byte) (bytes : List Byte) (n : Nat),
    (s.cfg.cap < off + n →
      exec (.encode off c bytes n) s = .refused (.blockRangePastCap off n) ∧
      exec (.fillZero off c n) s = .refused (.blockRangePastCap off n) ∧
      exec (.fillOne off c n) s = .refused (.blockRangePastCap off n)) ∧
    (off + n ≤ s.cfg.cap → bytes.length < n →
      exec (.encode off c bytes n) s = .refused (.encodeSourceTooShort n))

/-! ### Set-channel records -/

/-- SET_WS2812, addressed, CRC matching: the slot is written, every pixel's components stand at the
positions `orders` gives them, and the tail is zeroed unless a same-type slot was no longer than the
new one (42 R161, R162, 41 R144). With a colour order that is no permutation the pixel bytes are
free and the rest holds (42 R163). -/
def Obligations.SetWs2812Commits : Prop :=
  ∀ (s : State) (ch n ord : Byte) (px : Half) (data : List Byte) (crc : Word) (c : Fin 8),
    s.dstate = .idle → s.bp.wf = true →
    wellFormed s.cfg (.setWs2812 ch n ord px (some ⟨data, crc⟩)) = true →
    isAddressed s.cfg ch = true → c.val = 7 - ch.toNat % 8 →
    crc = crc32 (0x55 :: 0x50 :: 0x58 :: 0x4C :: ch :: 0x01 :: n :: ord :: (le16Bytes px ++ data)) →
    ∃ t, exec (.setWs2812 ch n ord px (some ⟨data, crc⟩)) s = .next t ∧
      (∀ k : Fin 8, t.ch[k] = if k = c then ⟨.ws2812, n, ord, px, 0⟩ else s.ch[k]) ∧
      (isPermutation ord n.toNat = true → ∀ q, q < px.toNat → ∀ j, j < n.toNat →
        chanByte t.bp c.val (q * n.toNat + orderIdx ord j) = data.getD (q * n.toNat + j) 0) ∧
      (∀ i, px.toNat * n.toNat ≤ i → i < s.cfg.cap →
        chanByte t.bp c.val i =
          if s.ch[c].tag = .ws2812 ∧ slotLen s.ch[c] ≤ px.toNat * n.toNat then
            chanByte s.bp c.val i
          else 0x00)

/-- SET_APA102_DATA, addressed, CRC matching: the slot is written, every pixel is the brightness byte
and three colour bytes at the positions `orders` gives them, and the tail is filled as
APA102_TAIL_FILL says unless a same-type slot was no longer than the new one (42 R165, R166,
41 R144, R147). -/
def Obligations.SetApa102DataCommits : Prop :=
  ∀ (s : State) (ch : Byte) (f : Word) (ord : Byte) (px : Half) (data : List Byte) (crc : Word)
    (c : Fin 8),
    s.dstate = .idle → s.bp.wf = true →
    wellFormed s.cfg (.setApa102Data ch f ord px (some ⟨data, crc⟩)) = true →
    isAddressed s.cfg ch = true → c.val = 7 - ch.toNat % 8 →
    crc = crc32 (0x55 :: 0x50 :: 0x58 :: 0x4C :: ch :: 0x03 ::
      (le32Bytes f ++ ord :: (le16Bytes px ++ data))) →
    ∃ t, exec (.setApa102Data ch f ord px (some ⟨data, crc⟩)) s = .next t ∧
      (∀ k : Fin 8, t.ch[k] = if k = c then ⟨.apaData, 0, ord, px, f⟩ else s.ch[k]) ∧
      (∀ q, q < px.toNat →
        chanByte t.bp c.val (q * 4) = 0xE0 ||| s.cfg.brightness.setWidth 8) ∧
      (isPermutation ord 3 = true → ∀ q, q < px.toNat → ∀ j, j < 3 →
        chanByte t.bp c.val (q * 4 + (1 + orderIdx ord j)) = data.getD (q * 3 + j) 0) ∧
      (∀ i, px.toNat * 4 ≤ i → i < s.cfg.cap →
        chanByte t.bp c.val i =
          if s.cfg.tailFill = .none ∨
              (s.ch[c].tag = .apaData ∧ slotLen s.ch[c] ≤ px.toNat * 4) then
            chanByte s.bp c.val i
          else if s.cfg.tailFill = .one then 0xFF else 0x00)

/-- SET_APA102_CLOCK, addressed, CRC matching: the slot is written, and the whole channel is cleared
unless the slot was a clock slot already (42 R169, 41 R144). -/
def Obligations.SetApa102ClockCommits : Prop :=
  ∀ (s : State) (ch : Byte) (f crc : Word) (c : Fin 8),
    s.dstate = .idle → s.bp.wf = true → f ≠ 0 →
    isAddressed s.cfg ch = true → c.val = 7 - ch.toNat % 8 →
    crc = crc32 (0x55 :: 0x50 :: 0x58 :: 0x4C :: ch :: 0x04 :: le32Bytes f) →
    ∃ t, exec (.setApa102Clock ch f (some crc)) s = .next t ∧
      (∀ k : Fin 8, t.ch[k] = if k = c then ⟨.apaClk, 0, 0, 0, f⟩ else s.ch[k]) ∧
      (∀ i, i < s.cfg.cap →
        chanByte t.bp c.val i =
          if s.ch[c].tag = .apaClk then chanByte s.bp c.val i else 0x00)

/-- A CRC mismatch on an addressed set-channel frame: the counter, the slot zeroed, the whole channel
zero-filled, whatever APA102_TAIL_FILL is (41 R145). -/
def Obligations.CrcMismatchDisablesTheChannel : Prop :=
  ∀ (s : State) (ch : Byte) (r : Record) (p : Payload) (c : Fin 8),
    s.dstate = .idle → s.bp.wf = true → bodyWellFormed s.cfg r (some p) = true →
    isAddressed s.cfg ch = true → c.val = 7 - ch.toNat % 8 →
    p.crc ≠ crc32 (coveredBytes ch r p.data) →
    ∃ t, exec (setInstr ch r (some p)) s = .next t ∧
      (∀ k : Fin 8, t.ch[k] = if k = c then zeroSlot else s.ch[k]) ∧
      (∀ i, i < s.cfg.cap → chanByte t.bp c.val i = 0x00) ∧
      t.cntCrcErr = (s.cntCrcErr + 1) % 2 ^ s.cfg.cntW

/-- A set-channel frame for another device: consumed, a CRC mismatch counted, nothing else
(41 R146). -/
def Obligations.UnaddressedFramesChangeNothing : Prop :=
  ∀ (s : State) (ch : Byte) (r : Record) (p : Payload),
    s.dstate = .idle → bodyWellFormed s.cfg r (some p) = true → isAddressed s.cfg ch = false →
    ∃ lat d, exec (setInstr ch r (some p)) s = .next { s with
      cntCrcErr := if p.crc = crc32 (coveredBytes ch r p.data) then s.cntCrcErr
        else (s.cntCrcErr + 1) % 2 ^ s.cfg.cntW
      crcAcc := coveredBytes ch r p.data ++ le32Bytes p.crc, lat := lat, drawn := d }

/-- A record the precheck refuses ends the invocation at its parameter block with table, buffer and
counters as they were (41 R139, 60 R223), addressed or not. -/
def Obligations.RefusedRecordsChangeNothing : Prop :=
  ∀ (s : State) (ch : Byte) (r : Record), s.dstate = .idle → precheck s.cfg r = false →
    ∃ lat d, exec (setInstr ch r none) s = .next { s with
      crcAcc := coveredBytes ch r [], lat := lat, drawn := d }

/-- What a set-channel frame leaves unchanged, whatever its CRC: every other slot, every byte of every
other channel, every byte of its own channel past CAP, and all but the table, the buffer, the CRC
counter and accumulator, and the latches. -/
def Obligations.SetChannelFrame : Prop :=
  ∀ (s t : State) (ch : Byte) (r : Record) (p : Payload),
    s.dstate = .idle → s.bp.wf = true → bodyWellFormed s.cfg r (some p) = true →
    exec (setInstr ch r (some p)) s = .next t →
    t = { s with
      ch := t.ch, bp := t.bp, pastBp := t.pastBp, cntCrcErr := t.cntCrcErr
      crcAcc := coveredBytes ch r p.data ++ le32Bytes p.crc, lat := t.lat, drawn := t.drawn } ∧
    (t.cntCrcErr = if p.crc = crc32 (coveredBytes ch r p.data) then s.cntCrcErr
      else (s.cntCrcErr + 1) % 2 ^ s.cfg.cntW) ∧
    (∀ k : Fin 8, k.val ≠ (physOf s.cfg ch).toNat → t.ch[k] = s.ch[k]) ∧
    (∀ c i, c ≠ (physOf s.cfg ch).toNat ∨ s.cfg.cap ≤ i → chanByte t.bp c i = chanByte s.bp c i)

/-! ### Draws and events -/

/-- DRAW_ALL with a matching CRC runs the draw attempt, whatever its channel byte: its state is the
draw attempt's, the bytes read and the latches apart (43 R190, R191). -/
def Obligations.DrawAllAttemptsADraw : Prop :=
  ∀ (s : State) (ch : Byte) (crc : Word), s.dstate = .idle →
    crc = crc32 [0x55, 0x50, 0x58, 0x4C, ch, 0x02] →
    ∃ u lat d, exec .drawAttempt s = .next u ∧
      exec (.drawAll ch crc) s = .next { u with
        crcAcc := [0x55, 0x50, 0x58, 0x4C, ch, 0x02] ++ le32Bytes crc, lat := lat, drawn := d }

/-- DRAW_ALL with a wrong CRC is counted and does nothing else (41 R143, 43 R190). -/
def Obligations.DrawAllWithWrongCrcIsOnlyCounted : Prop :=
  ∀ (s : State) (ch : Byte) (crc : Word), s.dstate = .idle →
    crc ≠ crc32 [0x55, 0x50, 0x58, 0x4C, ch, 0x02] →
    ∃ lat d, exec (.drawAll ch crc) s = .next { s with
      cntCrcErr := (s.cntCrcErr + 1) % 2 ^ s.cfg.cntW
      crcAcc := [0x55, 0x50, 0x58, 0x4C, ch, 0x02] ++ le32Bytes crc, lat := lat, drawn := d }

/-- A draw attempt while busy, or with an enabled WS2812 slot in the latch window, is dropped: the
overdraw counter goes up by one and nothing else changes (43 R194). -/
def Obligations.OverdrawIsCountedAndDropped : Prop :=
  ∀ s : State, (s.busy = true ∨ ¬ latchPermits s) →
    exec .drawAttempt s = .next { s with cntOverdraw := (s.cntOverdraw + 1) % 2 ^ s.cfg.cntW }

/-- A draw attempt with nothing to send, or too much for one transfer, changes nothing (43 R195). -/
def Obligations.DrawOutsideTheSizeLimitsChangesNothing : Prop :=
  ∀ s : State, s.busy = false → latchPermits s →
    (longestEnabled s = 0 ∨ s.cfg.maxBitCycles < longestEnabled s * 8) →
    exec .drawAttempt s = .next s

/-- A draw attempt that passes its tests: the draw is counted, busy set, and one transfer armed with
the bit count of the longest enabled channel, the masks of the enabled WS2812 and clock slots, and
the least frequency of the enabled APA102 slots (43 R192, R193, R195). -/
def Obligations.DrawArmsTheLongestChannel : Prop :=
  ∀ s : State, s.busy = false → latchPermits s →
    0 < longestEnabled s → longestEnabled s * 8 ≤ s.cfg.maxBitCycles →
    ∃ a : Arm, exec .drawAttempt s = .next { s with
        cntDraws := (s.cntDraws + 1) % 2 ^ s.cfg.cntW, busy := true, arms := s.arms ++ [a]
        lanesOut := [], pastBp := [] } ∧
      a.bitCount = longestEnabled s * 8 ∧
      (∀ c : Fin 8, a.startMask.getLsbD c.val = wsEnabled s.ch[c]) ∧
      (∀ c : Fin 8, a.clockMask.getLsbD c.val = clkEnabled s.ch[c]) ∧
      (∀ c : Fin 8, apaEnabled s.ch[c] = true → a.freqSel.toNat ≤ s.ch[c].freq.toNat) ∧
      (a.freqSel = 0xFFFFFFFF ∨
        ∃ c : Fin 8, apaEnabled s.ch[c] = true ∧ a.freqSel = s.ch[c].freq)

/-- XFER_DONE clears busy and loads the latch counter; nothing of an earlier buffer content can be
read any more (43 R196, 20_memory R72). -/
def Obligations.XferDoneClearsBusyAndStartsTheLatch : Prop :=
  ∀ s : State, exec .xferDone s = .next { s with
    busy := false, latchCount := s.cfg.latchTicks, pastBp := [] }

/-- TICK counts the latch window down, and does nothing at 0 (43 R197). -/
def Obligations.TickCountsTheLatchDown : Prop :=
  ∀ s : State,
    (s.latchCount ≠ 0 → exec .tick s = .next { s with latchCount := s.latchCount - 1 }) ∧
    (s.latchCount = 0 → exec .tick s = .next s)

/-- The scheduler's state machine under its events and draw attempts (43 R198). The XFER_DONE clause
takes in Idle and LatchWait, which R198 calls out of contract: the unconditional handler of 60 R240
is the model's reading of it there (assumption 7). A draw from LatchWait goes to Busy when no WS2812
slot is enabled: conflict C6 as the spec resolves it (assumption 16). -/
def Obligations.SchedulerStateMachine : Prop :=
  ∀ (s t : State), s.cfg.Legal →
    (exec .xferDone s = .next t → schedState t = .latchWait) ∧
    (exec .tick s = .next t →
      schedState t = if schedState s = .latchWait ∧ s.latchCount = 1 then .idle
        else schedState s) ∧
    (exec .drawAttempt s = .next t →
      schedState t =
        if schedState s = .busy then .busy
        else if latchPermits s ∧ 0 < longestEnabled s ∧
            longestEnabled s * 8 ≤ s.cfg.maxBitCycles then .busy
        else schedState s)

/-- A write to the buffer while the transfer is still reading: its next lane may be read as it was
before the write or as it is after (20_memory R71, 70 R270; the race is data of the schedule,
assumption 8). So it is for any write, for ENCODE and the fills as instructions, and for whatever a
step writes (pixels, tail fill, the clean-up of a wrong CRC). -/
def Obligations.TransferReadsOldOrNewLanes : Prop :=
  ∀ (s : State) (a : Arm),
    s.busy = true → s.arms.getLast? = some a → s.lanesOut.length < a.bitCount →
    s.lanesOut.length < 8 * s.cfg.cap →
    (∀ t, (∃ m, t = setBp m s) ∨ (∃ off c bytes n, exec (.encode off c bytes n) s = .next t) ∨
        (∃ off c n, exec (.fillZero off c n) s = .next t) ∨
        (∃ off c n, exec (.fillOne off c n) s = .next t) → t.bp ≠ s.bp →
      emitLane 0 t
          = .next { t with lanesOut := s.lanesOut ++ [laneRead t.bp s.lanesOut.length] } ∧
        emitLane 1 t
          = .next { t with lanesOut := s.lanesOut ++ [laneRead s.bp s.lanesOut.length] }) ∧
    (∀ t, step s = .next t → s.sched.head? ≠ some .reset → t.bp ≠ s.bp →
      emitLane 0 t
          = .next { t with lanesOut := s.lanesOut ++ [laneRead t.bp s.lanesOut.length] } ∧
        ∃ v, emitLane v t
          = .next { t with lanesOut := s.lanesOut ++ [laneRead s.bp s.lanesOut.length] })

/-- The Output Pipeline's lane read, in every state: while a transfer is in flight with lanes still
to read, lane number `lanesOut.length` is appended and nothing else changes; with no transfer in
flight, or every lane read, nothing changes; a lane that is not there stops it (60 R237, R239,
20_memory R50). `v` says how many writes ago the buffer is seen (assumption 8). -/
def Obligations.PipelineReadsItsNextLane : Prop :=
  ∀ (s : State) (v : Nat),
    (∀ a, s.busy = true → s.arms.getLast? = some a → s.lanesOut.length < a.bitCount →
      (s.lanesOut.length < 8 * s.cfg.cap → emitLane v s = .next { s with
        lanesOut := s.lanesOut ++
          [laneRead ((s.bp :: s.pastBp).getD v s.bp) s.lanesOut.length] }) ∧
      (8 * s.cfg.cap ≤ s.lanesOut.length →
        emitLane v s = .fault (.laneOutsideBuffer s.lanesOut.length))) ∧
    (∀ a, s.arms.getLast? = some a → a.bitCount ≤ s.lanesOut.length → emitLane v s = .next s) ∧
    (s.busy = false ∨ s.arms = [] → emitLane v s = .next s)

/-- The Output Pipeline's completion event: raised when the transfer in flight has read its last
lane, and then XFER_DONE is taken and no transfer is complete any more; else no event is raised
(60 R238, R239, the spec's decision D29; assumption 7). -/
def Obligations.CompletionComesOnceAfterTheLastLane : Prop :=
  ∀ (s : State) (ms : List Move), s.sched = .xferDone :: ms →
    ((s.busy = true ∧ ∃ a, s.arms.getLast? = some a ∧ a.bitCount ≤ s.lanesOut.length) →
      ∃ t, step s = .next t ∧ exec .xferDone { s with sched := ms } = .next t ∧
        t.busy = false ∧ transferComplete t = false) ∧
    ((s.busy = false ∨ s.arms = [] ∨
        ∃ a, s.arms.getLast? = some a ∧ s.lanesOut.length < a.bitCount) →
      step s = .next { s with sched := ms })

/-- A transfer just armed, with nothing written meanwhile, emits lanes 0 to `bitCount - 1` of the
buffer, each once and in order, and then completes: busy is cleared and the latch window starts
(20_memory R50, 60 R237, R238, 43 R196). -/
def Obligations.TransferEmitsTheBufferAndCompletes : Prop :=
  ∀ (s : State) (a : Arm) (ms : List Move),
    s.busy = true → s.arms.getLast? = some a → s.lanesOut = [] → a.bitCount ≤ 8 * s.cfg.cap →
    s.sched = List.replicate a.bitCount (.emit 0) ++ .xferDone :: ms →
    steps (a.bitCount + 1) s = .next { s with
      lanesOut := (List.range a.bitCount).map (laneRead s.bp)
      busy := false, latchCount := s.cfg.latchTicks, pastBp := [], sched := ms }

/-! ### Reset and invariants -/

/-- Reset: every element zero, every slot ZERO_SLOT, every lane 0x00, the decoder at S_IDLE, no
transfer armed (10_state R42). -/
def Obligations.ResetZeroesEverything : Prop :=
  ∀ cfg : Config,
    (∀ c : Fin 8, (State.resetWith cfg).ch[c] = zeroSlot) ∧
    (∀ L, laneRead (State.resetWith cfg).bp L = 0x00) ∧
    (State.resetWith cfg).cntCrcErr = 0 ∧ (State.resetWith cfg).cntFrameMiss = 0 ∧
    (State.resetWith cfg).cntDraws = 0 ∧ (State.resetWith cfg).cntOverdraw = 0 ∧
    (State.resetWith cfg).busy = false ∧ (State.resetWith cfg).latchCount = 0 ∧
    schedState (State.resetWith cfg) = .idle ∧
    (State.resetWith cfg).dstate = .idle ∧ (State.resetWith cfg).lat = Latches.zero ∧
    (State.resetWith cfg).arms = []

/-- The invariant and the clean tails hold at reset, on any device with legal parameters and on the
one at hand. -/
def Obligations.InvariantsHoldAtReset : Prop :=
  (∀ cfg : Config, cfg.Legal → Invariant (State.resetWith cfg) ∧ TailsClean (State.resetWith cfg)) ∧
    Invariant State.reset ∧ TailsClean State.reset

/-- Every step from a state with the invariant gives a next state with it: the machine never stops,
slots stay legal and within CAP, the buffer stays canonical and in range, the latch counter within
its window, the counters within their width, the latches fitting the decoder's state, and busy means
that a transfer is in flight which has read no lane past its last (10_state R26, R33, 40 R113,
60 R228, R239). -/
def Obligations.EveryStepKeepsTheInvariant : Prop :=
  ∀ s : State, Invariant s → ∃ t, step s = .next t ∧ Invariant t

/-- The buffer invariant: past the length of its slot a channel holds only 0x00, or 0xFF where
APA102 tails are filled with ones, except while a record's pixels are being received, when it does
so past the longer of the two lengths (10_state R29, 70 R271). -/
def Obligations.EveryStepKeepsTailsClean : Prop :=
  ∀ s t : State, Invariant s → s.cfg.tailFill ≠ .none → TailsClean s → step s = .next t → TailsClean t

/-- No step changes a configuration input (00_scope R10, 10_state R36). -/
def Obligations.ConfigurationIsConstant : Prop :=
  ∀ s t : State, step s = .next t → t.cfg = s.cfg

/-- No operation decrements or clears a counter: but for reset, a step leaves each counter or adds
exactly 1 to it, modulo 2^CNT_W (10_state R31, R33). -/
def Obligations.CountersOnlyCountUp : Prop :=
  ∀ s t : State, step s = .next t → s.sched.head? ≠ some .reset →
    (t.cntCrcErr = s.cntCrcErr ∨ t.cntCrcErr = (s.cntCrcErr + 1) % 2 ^ s.cfg.cntW) ∧
    (t.cntFrameMiss = s.cntFrameMiss ∨ t.cntFrameMiss = (s.cntFrameMiss + 1) % 2 ^ s.cfg.cntW) ∧
    (t.cntDraws = s.cntDraws ∨ t.cntDraws = (s.cntDraws + 1) % 2 ^ s.cfg.cntW) ∧
    (t.cntOverdraw = s.cntOverdraw ∨ t.cntOverdraw = (s.cntOverdraw + 1) % 2 ^ s.cfg.cntW)

/-- The Channel Table changes only at reset and in the decoder's step at the end of an addressed
set-channel frame: the step that reads its last trailer byte, or the step that runs the whole frame
(10_state R27; the whole-frame step is assumption 4). -/
def Obligations.OnlyAddressedSetFramesWriteTheTable : Prop :=
  ∀ s t : State, step s = .next t → t.ch ≠ s.ch →
    s.sched.head? = some .reset ∨
    ((s.sched = [] ∨ s.sched.head? = some .decode ∨ s.sched.head? = some .invocation) ∧
      s.queue ≠ [] ∧ s.dstate = .crc 3 ∧ s.lat.addressed = true ∧ s.lat.hType ≠ typeDrawAll) ∨
    ((s.sched = [] ∨ s.sched.head? = some .invocation) ∧
      s.dstate = .idle ∧ ∃ ch r p rest, isAddressed s.cfg ch = true ∧
        decode s.cfg s.queue = .instr (setInstr ch r (some p)) rest)

/-- The buffer changes only at reset and in decoder steps: no event, byte arrival or lane read writes
it (10_state R28, 20_memory R69, 60 R239). -/
def Obligations.OnlyTheDecoderWritesTheBuffer : Prop :=
  ∀ s t : State, step s = .next t → t.bp ≠ s.bp →
    s.sched = [] ∨ s.sched.head? = some .decode ∨ s.sched.head? = some .invocation ∨
      s.sched.head? = some .reset

/-- Busy is cleared only by reset and by the completion event, and by that only when the transfer has
read its last lane (10_state R34, 60 R239). -/
def Obligations.OnlyCompletionClearsBusy : Prop :=
  ∀ s t : State, step s = .next t → s.busy = true → t.busy = false →
    s.sched.head? = some .reset ∨
    (s.sched.head? = some .xferDone ∧
      ∃ a, s.arms.getLast? = some a ∧ a.bitCount ≤ s.lanesOut.length)

/-- A transfer is armed only when none is in flight, and busy goes from 0 to 1 only so: the draw is
counted, one call is made, and its bit count is within the limits (60 R239, 43 R195). -/
def Obligations.TransfersAreArmedOnlyWhenNotBusy : Prop :=
  ∀ s t : State, Invariant s → step s = .next t → s.sched.head? ≠ some .reset →
    (t.arms ≠ s.arms ∨ (s.busy = false ∧ t.busy = true)) →
    s.busy = false ∧ t.busy = true ∧ t.cntDraws = (s.cntDraws + 1) % 2 ^ s.cfg.cntW ∧
      ∃ a, t.arms = s.arms ++ [a] ∧ 8 ≤ a.bitCount ∧ a.bitCount ≤ s.cfg.maxBitCycles ∧
        a.bitCount ≤ 8 * s.cfg.cap

/-- In a quiescent state with nothing scheduled the machine stays as it is (70 R281). -/
def Obligations.QuiescentMachinesStay : Prop :=
  ∀ s : State, quiescent s = true → s.sched = [] → step s = .next s
end

