-- ==== Sys2Proof/Laws/Operands.lean ====
section
/-! SUPPORT. Laws of the operand forms: little-endian fields, the channel byte, pixel assembly. -/

namespace Sys2Proof.Machine

/-! ### Little-endian fields -/

theorem le16_getLsbD (b0 b1 : Byte) (j : Nat) :
    (le16 b0 b1).getLsbD j = if j < 8 then b0.getLsbD j else b1.getLsbD (j - 8) :=
  BitVec.getLsbD_append

theorem le32_getLsbD (b0 b1 b2 b3 : Byte) (j : Nat) :
    (le32 b0 b1 b2 b3).getLsbD j
      = if j < 8 then b0.getLsbD j
        else if j - 8 < 8 then b1.getLsbD (j - 8)
        else if j - 8 - 8 < 8 then b2.getLsbD (j - 8 - 8)
        else b3.getLsbD (j - 8 - 8 - 8) := by
  refine BitVec.getLsbD_append.trans ?_
  rw [BitVec.getLsbD_append, BitVec.getLsbD_append]

theorem le16_of_bytes (v : Half) : le16 (v.extractLsb' 0 8) (v.extractLsb' 8 8) = v := by
  apply BitVec.eq_of_getLsbD_eq
  intro j hj
  rw [le16_getLsbD]
  simp only [BitVec.getLsbD_extractLsb']
  split
  · simp_all
  · rw [show 8 + (j - 8) = j by omega]
    simp
    omega

theorem le32_of_bytes (v : Word) :
    le32 (v.extractLsb' 0 8) (v.extractLsb' 8 8) (v.extractLsb' 16 8) (v.extractLsb' 24 8) = v := by
  apply BitVec.eq_of_getLsbD_eq
  intro j hj
  rw [le32_getLsbD]
  simp only [BitVec.getLsbD_extractLsb']
  split
  · simp_all
  · split
    · rw [show 8 + (j - 8) = j by omega]; simp_all
    · split
      · rw [show 16 + (j - 8 - 8) = j by omega]; simp_all
      · rw [show 24 + (j - 8 - 8 - 8) = j by omega]; simp; omega

theorem le16Bytes_le16 (a b : Byte) : le16Bytes (le16 a b) = [a, b] := by
  have h0 : (le16 a b).extractLsb' 0 8 = a := by
    apply BitVec.eq_of_getLsbD_eq
    intro j hj
    simp [le16_getLsbD, hj]
  have h1 : (le16 a b).extractLsb' 8 8 = b := by
    apply BitVec.eq_of_getLsbD_eq
    intro j hj
    simp [le16_getLsbD, hj]
  rw [le16Bytes, h0, h1]

theorem le32Bytes_le32 (a b c d : Byte) : le32Bytes (le32 a b c d) = [a, b, c, d] := by
  have h0 : (le32 a b c d).extractLsb' 0 8 = a := by
    apply BitVec.eq_of_getLsbD_eq
    intro j hj
    simp [le32_getLsbD, hj]
  have h1 : (le32 a b c d).extractLsb' 8 8 = b := by
    apply BitVec.eq_of_getLsbD_eq
    intro j hj
    simp [le32_getLsbD, hj]
  have h2 : (le32 a b c d).extractLsb' 16 8 = c := by
    apply BitVec.eq_of_getLsbD_eq
    intro j hj
    rw [BitVec.getLsbD_extractLsb', le32_getLsbD, if_neg (by omega), if_neg (by omega),
      if_pos (by omega), show 16 + j - 8 - 8 = j by omega]
    simp [hj]
  have h3 : (le32 a b c d).extractLsb' 24 8 = d := by
    apply BitVec.eq_of_getLsbD_eq
    intro j hj
    rw [BitVec.getLsbD_extractLsb', le32_getLsbD, if_neg (by omega), if_neg (by omega),
      if_neg (by omega), show 24 + j - 8 - 8 - 8 = j by omega]
    simp [hj]
  rw [le32Bytes, h0, h1, h2, h3]

@[simp] theorem le16Bytes_length (v : Half) : (le16Bytes v).length = 2 := rfl
@[simp] theorem le32Bytes_length (v : Word) : (le32Bytes v).length = 4 := rfl

/-! ### The channel byte -/

theorem physOf_unaddressed {cfg : Config} {ch : Byte} (h : isAddressed cfg ch = false) :
    physOf cfg ch = invalidChannel := by simp [physOf, h]

/-- The remap of 41 R135, as numbers. -/
theorem physOf_addressed {cfg : Config} {ch : Byte} (h : isAddressed cfg ch = true) :
    (physOf cfg ch).toNat = 7 - ch.toNat % 8 := by
  have key : ∀ ch : Byte, (7 - (chanInBus ch).setWidth 8).toNat = 7 - ch.toNat % 8 := by
    decide +kernel
  simp only [physOf, h, if_true]
  exact key ch

theorem physOf_lt {cfg : Config} {ch : Byte} (h : isAddressed cfg ch = true) :
    (physOf cfg ch).toNat < 8 := by
  rw [physOf_addressed h]; omega

theorem physOf_ge {cfg : Config} {ch : Byte} (h : isAddressed cfg ch = false) :
    8 ≤ (physOf cfg ch).toNat := by
  rw [physOf_unaddressed h]; decide

/-- The bus field as a number (30_encoding R82). -/
theorem busField_toNat (ch : Byte) : (busField ch).toNat = ch.toNat / 8 := by
  have key : ∀ ch : Byte, (busField ch).toNat = ch.toNat / 8 := by decide +kernel
  exact key ch

theorem isAddressed_iff (cfg : Config) (ch : Byte) :
    isAddressed cfg ch = true ↔ ch.toNat / 8 = cfg.busId.toNat := by
  have h3 := cfg.busId.isLt
  rw [isAddressed, beq_iff_eq, ← BitVec.toNat_inj, busField_toNat, BitVec.toNat_setWidth,
    Nat.mod_eq_of_lt (by omega)]

/-! ### Pixels -/

theorem placeElems_length (is : List Nat) (es out : List Byte) :
    (placeElems is es out).length = out.length := by
  induction is generalizing es out with
  | nil => simp [placeElems]
  | cons i is ih => cases es <;> simp [placeElems, ih]

theorem colourBytes_length (orders : Byte) (n : Nat) (ein : List Byte) (d : Nat) :
    (colourBytes orders n ein d).1.length = n := by
  unfold colourBytes
  split <;> simp [placeElems_length]

/-- A pixel takes `pixelBytes` bytes of the buffer (41 R140). -/
theorem assemblePixel_length (cfg : Config) (r : Record) (ein : List Byte) (d : Nat) :
    (assemblePixel cfg r ein d).1.length = pixelBytes r := by
  cases r <;> simp [assemblePixel, assemblePixelWs, assemblePixelApa, pixelBytes, colourBytes_length]

theorem placeElems_getD_of_notMem (is : List Nat) (es out : List Byte) (p : Nat) (hp : p ∉ is) :
    (placeElems is es out).getD p 0 = out.getD p 0 := by
  induction is generalizing es out with
  | nil => rfl
  | cons i is ih =>
    cases es with
    | nil => rfl
    | cons e es =>
      simp only [List.mem_cons, not_or] at hp
      simp only [placeElems]
      rw [ih es _ hp.2, List.getD_eq_getElem?_getD, List.getElem?_set_ne (Ne.symm hp.1),
        ← List.getD_eq_getElem?_getD]

theorem placeElems_getD (is : List Nat) (es out : List Byte) (hn : is.Nodup)
    (hb : ∀ i ∈ is, i < out.length) (j : Nat) (hj : j < is.length) (he : j < es.length) :
    (placeElems is es out).getD (is.getD j 0) 0 = es.getD j 0 := by
  induction is generalizing es out j with
  | nil => simp at hj
  | cons i is ih =>
    cases es with
    | nil => simp at he
    | cons e es =>
      simp only [placeElems]
      rw [List.nodup_cons] at hn
      cases j with
      | zero =>
        simp only [List.getD_cons_zero]
        rw [placeElems_getD_of_notMem _ _ _ _ hn.1]
        have := hb i (by simp)
        simp [List.getD_eq_getElem?_getD, this]
      | succ j =>
        simp only [List.getD_cons_succ]
        refine ih es _ hn.2 (fun k hk => ?_) j (by simpa using hj) (by simpa using he)
        simpa using hb k (by simp [hk])

theorem orderIdxs_perm3 : ∀ orders : Byte, isPermutation orders 3 = true →
    (orderIdxs orders 3).Nodup ∧ ∀ i ∈ orderIdxs orders 3, i < 3 := by decide +kernel

theorem orderIdxs_perm4 : ∀ orders : Byte, isPermutation orders 4 = true →
    (orderIdxs orders 4).Nodup ∧ ∀ i ∈ orderIdxs orders 4, i < 4 := by decide +kernel

theorem orderIdxs_getD (orders : Byte) (n j : Nat) (hj : j < n) :
    (orderIdxs orders n).getD j 0 = orderIdx orders j := by
  simp [orderIdxs, List.getD_eq_getElem?_getD, hj]

/-- A component's byte stands at the position its index gives (42 R162). -/
theorem colourBytes_getD {orders : Byte} {n : Nat} (hn : n = 3 ∨ n = 4)
    (hp : isPermutation orders n = true) (ein : List Byte) (d j : Nat) (hj : j < n)
    (he : n ≤ ein.length) :
    (colourBytes orders n ein d).1.getD (orderIdx orders j) 0 = ein.getD j 0 := by
  have hh : (orderIdxs orders n).Nodup ∧ ∀ i ∈ orderIdxs orders n, i < n := by
    rcases hn with rfl | rfl
    · exact orderIdxs_perm3 orders hp
    · exact orderIdxs_perm4 orders hp
  simp only [colourBytes, hp, if_true]
  rw [← orderIdxs_getD orders n j hj]
  exact placeElems_getD _ _ _ hh.1 (fun i hi => by simpa using hh.2 i hi) j
    (by simpa [orderIdxs] using hj) (by omega)

theorem orderIdx_lt {orders : Byte} {n : Nat} (hn : n = 3 ∨ n = 4)
    (hp : isPermutation orders n = true) {j : Nat} (hj : j < n) : orderIdx orders j < n := by
  have hh : ∀ i ∈ orderIdxs orders n, i < n := by
    rcases hn with rfl | rfl
    · exact (orderIdxs_perm3 orders hp).2
    · exact (orderIdxs_perm4 orders hp).2
  exact hh _ (List.mem_map.2 ⟨j, List.mem_range.2 hj, rfl⟩)

/-! ### The precheck -/

theorem precheck_ws {cfg : Config} {n ord : Byte} {px : Half}
    (h : precheck cfg (.ws n ord px) = true) :
    (n.toNat = 3 ∨ n.toNat = 4) ∧ px.toNat * n.toNat ≤ cfg.cap := by
  simp only [precheck, Bool.and_eq_true, Bool.or_eq_true, beq_iff_eq, decide_eq_true_eq] at h
  exact ⟨h.1.imp (fun e => by rw [e]; rfl) (fun e => by rw [e]; rfl), h.2⟩

/-- A record that passes the precheck fits its channel (10_state R26, 40 R113). -/
theorem newLen_le_cap {cfg : Config} {r : Record} (h : precheck cfg r = true) :
    newLen r ≤ cfg.cap := by
  cases r with
  | ws n ord px => exact (precheck_ws h).2
  | apaData f ord px =>
    simp only [precheck, Bool.and_eq_true, decide_eq_true_eq] at h
    exact h.2
  | apaClk f => simp [newLen, pixelCount]

end Sys2Proof.Machine
end

