-- ==== Sys2Proof/Laws/Decode.lean ====
section
/-! SUPPORT. Laws of the decoder and the encoder: what each part reads, and what it makes of its own
encoding. -/

namespace Sys2Proof

open Machine

/-! ### From an encoding -/

theorem scanMagic_magic (rest : List Byte) :
    scanMagic magicIndexed (magic ++ rest) = .found rest := rfl

theorem decodeTrailer_bytes (w : Word) (rest : List Byte) :
    decodeTrailer (le32Bytes w ++ rest) = some (w, rest) := by
  show some (le32 _ _ _ _, rest) = _
  rw [le32_of_bytes]

theorem decodePayload_bytes {n : Nat} (p : Payload) (hn : p.data.length = n) (rest : List Byte) :
    decodePayload n (p.data ++ (le32Bytes p.crc ++ rest)) = some (p, rest) := by
  subst hn
  simp [decodePayload, decodeTrailer_bytes]

/-- The bytes of a set-channel frame after its parameter block. -/
def bodyBytes (body : Option Payload) : List Byte :=
  body.elim [] fun p => p.data ++ le32Bytes p.crc

theorem decodeBody_bytes {cfg : Config} {r : Record} {body : Option Payload}
    (h : bodyWellFormed cfg r body = true) (mk : Option Payload → Instr) (rest : List Byte) :
    decodeBody cfg r mk (bodyBytes body ++ rest) = .instr (mk body) rest := by
  cases body with
  | none =>
    simp only [bodyWellFormed, Bool.not_eq_true'] at h
    simp [decodeBody, h, bodyBytes]
  | some p =>
    simp only [bodyWellFormed, Bool.and_eq_true, beq_iff_eq] at h
    simp [decodeBody, h.1, bodyBytes, decodePayload_bytes p h.2]

/-- A set-channel frame: magic, channel, type, parameter block, the rest. -/
theorem setFrameBytes_eq (ch : Byte) (r : Record) (body : Option Payload) :
    setFrameBytes ch r body
      = magic ++ (ch :: recordType r :: (paramBytes r ++ bodyBytes body)) := by
  cases body <;> simp [setFrameBytes, coveredBytes, headerBytes, bodyBytes]

/-! ### From a decoding -/

theorem decodeTrailer_some {bs rest : List Byte} {w : Word}
    (h : decodeTrailer bs = some (w, rest)) : bs = le32Bytes w ++ rest := by
  match bs with
  | a :: b :: c :: d :: r =>
    simp only [decodeTrailer, Option.some.injEq, Prod.mk.injEq] at h
    obtain ⟨rfl, rfl⟩ := h
    rw [le32Bytes_le32]
    rfl
  | [] => simp [decodeTrailer] at h
  | [_] => simp [decodeTrailer] at h
  | [_, _] => simp [decodeTrailer] at h
  | [_, _, _] => simp [decodeTrailer] at h

theorem decodePayload_some {n : Nat} {bs rest : List Byte} {p : Payload}
    (h : decodePayload n bs = some (p, rest)) :
    p.data.length = n ∧ bs = p.data ++ (le32Bytes p.crc ++ rest) := by
  unfold decodePayload at h
  split at h
  · simp at h
  · simp only [Option.map_eq_some_iff] at h
    obtain ⟨⟨w, r⟩, hw, e⟩ := h
    simp only [Prod.mk.injEq] at e
    obtain ⟨rfl, rfl⟩ := e
    refine ⟨by simp; omega, ?_⟩
    simp only
    rw [← decodeTrailer_some hw, List.take_append_drop]

/-- What follows a parameter block is read as a well-formed body. -/
theorem decodeBody_instr {cfg : Config} {r : Record} {mk : Option Payload → Instr}
    {bs rest : List Byte} {i : Instr} (h : decodeBody cfg r mk bs = .instr i rest) :
    ∃ body, i = mk body ∧ bodyWellFormed cfg r body = true ∧ bs = bodyBytes body ++ rest := by
  unfold decodeBody at h
  split at h
  · rename_i hp
    split at h
    · rename_i p r' hp2
      simp only [Decoded.instr.injEq] at h
      obtain ⟨rfl, rfl⟩ := h
      obtain ⟨hl, e⟩ := decodePayload_some hp2
      exact ⟨some p, rfl, by simp [bodyWellFormed, hp, hl], by simp [bodyBytes, e]⟩
    · simp at h
  · rename_i hp
    simp only [Decoded.instr.injEq] at h
    obtain ⟨rfl, rfl⟩ := h
    exact ⟨none, rfl, by simp [bodyWellFormed, hp], rfl⟩

/-- Everything the magic scan can do (41 R132, R133). -/
theorem scanMagic_cases (bs : List Byte) :
    (∃ rest, scanMagic magicIndexed bs = .found rest ∧ bs = magic ++ rest) ∨
    (∃ i b rest, scanMagic magicIndexed bs = .missed i b rest ∧ b ≠ magicByte i ∧
      bs = magic.take i.val ++ b :: rest) ∨
    scanMagic magicIndexed bs = .short := by
  match bs with
  | [] => exact .inr (.inr rfl)
  | a :: bs =>
    by_cases h0 : a = 0x55
    · subst h0
      match bs with
      | [] => exact .inr (.inr rfl)
      | a :: bs =>
        by_cases h1 : a = 0x50
        · subst h1
          match bs with
          | [] => exact .inr (.inr rfl)
          | a :: bs =>
            by_cases h2 : a = 0x58
            · subst h2
              match bs with
              | [] => exact .inr (.inr rfl)
              | a :: bs =>
                by_cases h3 : a = 0x4C
                · subst h3
                  exact .inl ⟨bs, rfl, rfl⟩
                · exact .inr (.inl ⟨3, a, bs, if_neg h3, h3, rfl⟩)
            · exact .inr (.inl ⟨2, a, bs, if_neg h2, h2, rfl⟩)
        · exact .inr (.inl ⟨1, a, bs, if_neg h1, h1, rfl⟩)
    · exact .inr (.inl ⟨0, a, bs, if_neg h0, h0, rfl⟩)

/-- A clock record's body carries no pixel bytes, so its trailer says it all. -/
theorem clockBody_eq {cfg : Config} {f : Word} {body : Option Payload}
    (h : bodyWellFormed cfg (.apaClk f) body = true) :
    (body.map Payload.crc).map (fun w => (⟨[], w⟩ : Payload)) = body := by
  cases body with
  | none => rfl
  | some p =>
    obtain ⟨data, crc⟩ := p
    simp only [bodyWellFormed, wireByteCount, pixelCount, Nat.zero_mul, Bool.and_eq_true,
      beq_iff_eq, List.length_eq_zero_iff] at h
    simp [h.2]

end Sys2Proof
end

