-- ==== Sys2Proof/Laws/Memory.lean ====
section
/-! SUPPORT. Laws of the bit-plane buffer: read after write, bits of lanes, bytes of channels, and the
canonical form. -/

namespace Sys2Proof.Machine

/-! ### Lanes -/

theorem laneRead_of_wfFrom {lo : Nat} {m : Memory} (h : Memory.wfFrom lo m = true) {L : Nat}
    (hL : L < lo) : laneRead m L = 0 := by
  induction m generalizing lo with
  | nil => rfl
  | cons e m ih =>
    obtain ⟨a, v⟩ := e
    simp only [Memory.wfFrom, Bool.and_eq_true, decide_eq_true_eq] at h
    have : a ≠ L := by omega
    simp [laneRead, this, ih h.2 (by omega)]

theorem wfFrom_mono {lo lo' : Nat} {m : Memory} (h : Memory.wfFrom lo m = true) (hl : lo' ≤ lo) :
    Memory.wfFrom lo' m = true := by
  cases m with
  | nil => rfl
  | cons e m =>
    obtain ⟨a, v⟩ := e
    simp only [Memory.wfFrom, Bool.and_eq_true, decide_eq_true_eq] at h ⊢
    exact ⟨⟨by omega, h.1.2⟩, h.2⟩

theorem laneWrite_wfFrom {lo : Nat} {m : Memory} (h : Memory.wfFrom lo m = true) {L : Nat}
    (hL : lo ≤ L) (v : Byte) : Memory.wfFrom lo (laneWrite m L v) = true := by
  induction m generalizing lo with
  | nil =>
    unfold laneWrite
    split
    · rfl
    · rename_i hv
      simp only [Memory.wfFrom, Bool.and_eq_true, decide_eq_true_eq]
      exact ⟨⟨hL, by simpa using hv⟩, trivial⟩
  | cons e m ih =>
    obtain ⟨a, w⟩ := e
    have h' := h
    simp only [Memory.wfFrom, Bool.and_eq_true, decide_eq_true_eq] at h'
    obtain ⟨⟨ha, hw⟩, hm⟩ := h'
    unfold laneWrite
    split
    · split
      · exact h
      · rename_i hlt hv
        simp only [Memory.wfFrom, Bool.and_eq_true, decide_eq_true_eq]
        exact ⟨⟨hL, by simpa using hv⟩, ⟨by omega, hw⟩, hm⟩
    · split
      · split
        · exact wfFrom_mono hm (by omega)
        · rename_i hv
          simp only [Memory.wfFrom, Bool.and_eq_true, decide_eq_true_eq]
          exact ⟨⟨ha, by simpa using hv⟩, hm⟩
      · simp only [Memory.wfFrom, Bool.and_eq_true, decide_eq_true_eq]
        exact ⟨⟨ha, hw⟩, ih hm (by omega)⟩

/-- A write keeps the canonical form. -/
theorem laneWrite_wf {m : Memory} (h : m.wf = true) (L : Nat) (v : Byte) :
    (laneWrite m L v).wf = true :=
  laneWrite_wfFrom h (Nat.zero_le L) v

theorem laneRead_laneWrite_from {lo : Nat} {m : Memory} (h : Memory.wfFrom lo m = true)
    (L : Nat) (v : Byte) (L' : Nat) :
    laneRead (laneWrite m L v) L' = if L' = L then v else laneRead m L' := by
  induction m generalizing lo with
  | nil =>
    unfold laneWrite
    split
    · rename_i hv
      simp [laneRead, hv]
    · by_cases hL : L' = L
      · simp [laneRead, hL]
      · have : L ≠ L' := fun h => hL h.symm
        simp [laneRead, hL, this]
  | cons e m ih =>
    obtain ⟨a, w⟩ := e
    simp only [Memory.wfFrom, Bool.and_eq_true, decide_eq_true_eq] at h
    obtain ⟨⟨ha, hw⟩, hm⟩ := h
    unfold laneWrite
    split
    · rename_i hlt
      split
      · rename_i hv
        by_cases hL : L' = L
        · subst hL
          have : a ≠ L' := by omega
          simp [laneRead, this, hv, laneRead_of_wfFrom hm (show L' < a + 1 by omega)]
        · simp [hL]
      · by_cases hL : L' = L
        · simp [laneRead, hL]
        · have : L ≠ L' := fun h => hL h.symm
          simp [laneRead, hL, this]
    · split
      · rename_i hnl heq
        subst heq
        split
        · rename_i hv
          by_cases hL : L' = L
          · subst hL
            simp [hv, laneRead_of_wfFrom hm (show L' < L' + 1 by omega)]
          · have : L ≠ L' := fun h => hL h.symm
            simp [laneRead, hL, this]
        · by_cases hL : L' = L
          · simp [laneRead, hL]
          · have : L ≠ L' := fun h => hL h.symm
            simp [laneRead, hL, this]
      · rename_i hnl hne
        by_cases hL : a = L'
        · have : L' ≠ L := by omega
          simp [laneRead, hL, this]
        · simp [laneRead, hL, ih hm]

/-- Read after write: the lane written holds the value, every other lane is as before. -/
theorem laneRead_laneWrite {m : Memory} (h : m.wf = true) (L : Nat) (v : Byte) (L' : Nat) :
    laneRead (laneWrite m L v) L' = if L' = L then v else laneRead m L' :=
  laneRead_laneWrite_from h L v L'

theorem laneWrite_below {m : Memory} {bound L : Nat} (h : Memory.below bound m = true)
    (hL : L < bound) (v : Byte) : Memory.below bound (laneWrite m L v) = true := by
  have mem : ∀ m : Memory, ∀ e ∈ laneWrite m L v, e.1 = L ∨ e ∈ m := by
    intro m
    induction m with
    | nil =>
      intro e he
      unfold laneWrite at he
      split at he
      · exact absurd he (by simp)
      · exact .inl (by rw [List.mem_singleton.1 he])
    | cons e' m ih =>
      obtain ⟨a, w⟩ := e'
      intro e he
      unfold laneWrite at he
      split at he
      · split at he
        · exact .inr he
        · rcases List.mem_cons.1 he with rfl | he
          · exact .inl rfl
          · exact .inr he
      · split at he
        · rename_i heq
          split at he
          · exact .inr (List.mem_cons_of_mem _ he)
          · rcases List.mem_cons.1 he with rfl | he
            · exact .inl heq.symm
            · exact .inr (List.mem_cons_of_mem _ he)
        · rcases List.mem_cons.1 he with rfl | he
          · exact .inr (List.mem_cons_self)
          · exact (ih e he).imp id (List.mem_cons_of_mem _)
  rw [Memory.below, List.all_eq_true] at h ⊢
  intro e he
  rcases mem m e he with h1 | h1
  · simpa [h1] using hL
  · exact h e h1

/-- Two memories in canonical form that read alike are equal. -/
theorem memory_ext_from {lo : Nat} {m m' : Memory} (h : Memory.wfFrom lo m = true)
    (h' : Memory.wfFrom lo m' = true) (hr : ∀ L, laneRead m L = laneRead m' L) : m = m' := by
  induction m generalizing lo m' with
  | nil =>
    cases m' with
    | nil => rfl
    | cons e m' =>
      obtain ⟨a, v⟩ := e
      simp only [Memory.wfFrom, Bool.and_eq_true, decide_eq_true_eq] at h'
      have := hr a
      simp only [laneRead, if_true] at this
      simp [← this] at h'
  | cons e m ih =>
    obtain ⟨a, v⟩ := e
    have h2 := h
    simp only [Memory.wfFrom, Bool.and_eq_true, decide_eq_true_eq] at h2
    cases m' with
    | nil =>
      have := hr a
      simp only [laneRead, if_true] at this
      simp [this] at h2
    | cons e' m' =>
      obtain ⟨a', v'⟩ := e'
      have h2' := h'
      simp only [Memory.wfFrom, Bool.and_eq_true, decide_eq_true_eq] at h2'
      have haa : a = a' := by
        rcases Nat.lt_trichotomy a a' with hlt | heq | hgt
        · have := hr a
          simp only [laneRead, if_true] at this
          rw [if_neg (by omega), laneRead_of_wfFrom h2'.2 (by omega)] at this
          simp [this] at h2
        · exact heq
        · have := hr a'
          simp only [laneRead, if_true] at this
          rw [if_neg (by omega), laneRead_of_wfFrom h2.2 (by omega)] at this
          simp [← this] at h2'
      subst haa
      have hv : v = v' := by simpa [laneRead] using hr a
      subst hv
      have : m = m' := ih h2.2 h2'.2 fun L => by
        by_cases hL : a = L
        · subst hL
          rw [laneRead_of_wfFrom h2.2 (by omega), laneRead_of_wfFrom h2'.2 (by omega)]
        · simpa [laneRead, hL] using hr L
      rw [this]

/-- Equal memories are equal data. -/
theorem memory_ext {m m' : Memory} (h : m.wf = true) (h' : m'.wf = true)
    (hr : ∀ L, laneRead m L = laneRead m' L) : m = m' :=
  memory_ext_from h h' hr

/-! ### Bits of lanes -/

theorem bitMask_getLsbD (c j : Nat) (hc : c < 8) : (bitMask c).getLsbD j = decide (j = c) := by
  unfold bitMask
  by_cases hj : j < 8
  · interval_cases c <;> interval_cases j <;> rfl
  · rw [BitVec.getLsbD_of_ge _ _ (by omega)]
    have : j ≠ c := by omega
    simp [this]

theorem laneSetBit_wf {m : Memory} (h : m.wf = true) (L c : Nat) (v : Bool) :
    (laneSetBit m L c v).wf = true :=
  laneWrite_wf h _ _

theorem laneSetBit_below {m : Memory} {bound L : Nat} (h : Memory.below bound m = true)
    (hL : L < bound) (c : Nat) (v : Bool) : Memory.below bound (laneSetBit m L c v) = true :=
  laneWrite_below h hL _

/-- One bit of one lane changes, and no other (20_memory R68). -/
theorem laneSetBit_getLsbD {m : Memory} (h : m.wf = true) (L : Nat) {c : Nat} (hc : c < 8)
    (v : Bool) (L' c' : Nat) :
    (laneRead (laneSetBit m L c v) L').getLsbD c'
      = if L' = L ∧ c' = c then v else (laneRead m L').getLsbD c' := by
  unfold laneSetBit
  rw [laneRead_laneWrite h]
  by_cases hL : L' = L
  · subst hL
    by_cases hcc : c' = c
    · subst hcc
      cases v <;> simp [bitMask_getLsbD _ _ hc]
    · cases v
      · by_cases h8 : c' < 8
        · have e := bitMask_getLsbD c c' hc
          rw [BitVec.getLsbD_eq_getElem h8] at e
          simp [hcc, h8, e]
        · simp [hcc, BitVec.getLsbD_of_ge _ c' (show 8 ≤ c' by omega)]
      · simp [hcc, bitMask_getLsbD _ _ hc]
  · simp [hL]

/-! ### Bytes -/

theorem foldl_laneSetBit_wf (c base : Nat) (f : Nat → Bool) (ks : List Nat) {m : Memory}
    (h : m.wf = true) :
    (ks.foldl (fun acc k => laneSetBit acc (base + k) c (f k)) m).wf = true := by
  induction ks generalizing m with
  | nil => exact h
  | cons k ks ih => exact ih (laneSetBit_wf h _ _ _)

theorem foldl_laneSetBit_below (c base bound : Nat) (f : Nat → Bool) (ks : List Nat) {m : Memory}
    (h : Memory.below bound m = true) (hb : ∀ k ∈ ks, base + k < bound) :
    Memory.below bound (ks.foldl (fun acc k => laneSetBit acc (base + k) c (f k)) m) = true := by
  induction ks generalizing m with
  | nil => exact h
  | cons k ks ih =>
    exact ih (laneSetBit_below h (hb k (by simp)) _ _) fun k' hk' => hb k' (by simp [hk'])

theorem foldl_laneSetBit_getLsbD (base : Nat) {c : Nat} (hc : c < 8) (f : Nat → Bool)
    (ks : List Nat) {m : Memory} (h : m.wf = true) (L' c' : Nat) :
    (laneRead (ks.foldl (fun acc k => laneSetBit acc (base + k) c (f k)) m) L').getLsbD c'
      = if c' = c ∧ base ≤ L' ∧ L' - base ∈ ks then f (L' - base)
        else (laneRead m L').getLsbD c' := by
  induction ks generalizing m with
  | nil => simp
  | cons k ks ih =>
    simp only [List.foldl_cons]
    rw [ih (laneSetBit_wf h _ _ _), laneSetBit_getLsbD h _ hc]
    by_cases hk : L' = base + k
    · subst hk
      simp
      by_cases hcc : c' = c <;> simp [hcc]
    · have : ¬ (base ≤ L' ∧ L' - base = k) := by omega
      by_cases hcc : c' = c <;> by_cases hb : base ≤ L' <;> by_cases hm : L' - base ∈ ks <;>
        simp_all

theorem putByte_wf {m : Memory} (h : m.wf = true) (c blk : Nat) (b : Byte) :
    (putByte m c blk b).wf = true :=
  foldl_laneSetBit_wf c (8 * blk) (fun k => b.getLsbD (7 - k)) _ h

theorem putByte_below {m : Memory} {cap : Nat} (h : Memory.below (8 * cap) m = true) (c : Nat)
    {blk : Nat} (hb : blk < cap) (b : Byte) : Memory.below (8 * cap) (putByte m c blk b) = true :=
  foldl_laneSetBit_below c (8 * blk) (8 * cap) (fun k => b.getLsbD (7 - k)) _ h fun k hk => by
    have := List.mem_range.1 hk
    omega

/-- The layout of a byte (20_memory R52): lane `8*blk + k` takes bit `7 - k`, in bit `c`. -/
theorem putByte_getLsbD {m : Memory} (h : m.wf = true) {c : Nat} (hc : c < 8) (blk : Nat) (b : Byte)
    (L' c' : Nat) :
    (laneRead (putByte m c blk b) L').getLsbD c'
      = if c' = c ∧ 8 * blk ≤ L' ∧ L' < 8 * blk + 8 then b.getLsbD (7 - (L' - 8 * blk))
        else (laneRead m L').getLsbD c' := by
  unfold putByte
  rw [foldl_laneSetBit_getLsbD (8 * blk) hc (fun k => b.getLsbD (7 - k)) _ h]
  have : (c' = c ∧ 8 * blk ≤ L' ∧ L' - 8 * blk ∈ List.range 8)
      ↔ (c' = c ∧ 8 * blk ≤ L' ∧ L' < 8 * blk + 8) := by
    rw [List.mem_range]; omega
  simp only [this]

/-- Bit `j` of a byte read back is bit `c` of lane `8*i + 7 - j` (00_scope R17). -/
theorem chanByte_getLsbD (m : Memory) (c i j : Nat) (hj : j < 8) :
    (chanByte m c i).getLsbD j = (laneRead m (8 * i + (7 - j))).getLsbD c := by
  have bits : ∀ b0 b1 b2 b3 b4 b5 b6 b7 : Bool,
      let x : Byte := (0 + (if b0 then bitMask (7 - 0) else 0) + (if b1 then bitMask (7 - 1) else 0)
        + (if b2 then bitMask (7 - 2) else 0) + (if b3 then bitMask (7 - 3) else 0)
        + (if b4 then bitMask (7 - 4) else 0) + (if b5 then bitMask (7 - 5) else 0)
        + (if b6 then bitMask (7 - 6) else 0) + (if b7 then bitMask (7 - 7) else 0))
      x.getLsbD 0 = b7 ∧ x.getLsbD 1 = b6 ∧ x.getLsbD 2 = b5 ∧ x.getLsbD 3 = b4 ∧
        x.getLsbD 4 = b3 ∧ x.getLsbD 5 = b2 ∧ x.getLsbD 6 = b1 ∧ x.getLsbD 7 = b0 := by
    decide +kernel
  obtain ⟨e0, e1, e2, e3, e4, e5, e6, e7⟩ :=
    bits ((laneRead m (8 * i + 0)).getLsbD c) ((laneRead m (8 * i + 1)).getLsbD c)
      ((laneRead m (8 * i + 2)).getLsbD c) ((laneRead m (8 * i + 3)).getLsbD c)
      ((laneRead m (8 * i + 4)).getLsbD c) ((laneRead m (8 * i + 5)).getLsbD c)
      ((laneRead m (8 * i + 6)).getLsbD c) ((laneRead m (8 * i + 7)).getLsbD c)
  have range8 : List.range 8 = [0, 1, 2, 3, 4, 5, 6, 7] := rfl
  simp only [chanByte, range8, List.foldl_cons, List.foldl_nil]
  interval_cases j
  exacts [e0, e1, e2, e3, e4, e5, e6, e7]

/-- Two bytes read back are equal when their lane bits are. -/
theorem chanByte_congr {m m' : Memory} {c c' i i' : Nat}
    (h : ∀ k, k < 8 → (laneRead m (8 * i + k)).getLsbD c = (laneRead m' (8 * i' + k)).getLsbD c') :
    chanByte m c i = chanByte m' c' i' := by
  apply BitVec.eq_of_getLsbD_eq
  intro j hj
  rw [chanByte_getLsbD _ _ _ _ hj, chanByte_getLsbD _ _ _ _ hj]
  exact h _ (by omega)

/-- Round trip of one byte, and independence of every other byte of every channel
(40 R116, R117). -/
theorem chanByte_putByte {m : Memory} (h : m.wf = true) {c : Nat} (hc : c < 8) (blk : Nat) (b : Byte)
    (c' i : Nat) :
    chanByte (putByte m c blk b) c' i = if c' = c ∧ i = blk then b else chanByte m c' i := by
  by_cases hh : c' = c ∧ i = blk
  · rw [if_pos hh]
    obtain ⟨rfl, rfl⟩ := hh
    apply BitVec.eq_of_getLsbD_eq
    intro j hj
    rw [chanByte_getLsbD _ _ _ _ hj, putByte_getLsbD h hc, if_pos ⟨rfl, by omega, by omega⟩]
    congr 1
    omega
  · rw [if_neg hh]
    apply chanByte_congr
    intro k hk
    rw [putByte_getLsbD h hc, if_neg]
    rintro ⟨rfl, h1, h2⟩
    exact hh ⟨rfl, by omega⟩

theorem putBytes_wf {m : Memory} (h : m.wf = true) (c off : Nat) (bs : List Byte) :
    (putBytes m c off bs).wf = true := by
  induction bs generalizing m off with
  | nil => exact h
  | cons b bs ih => exact ih (putByte_wf h _ _ _) _

theorem putBytes_below {m : Memory} {cap : Nat} (h : Memory.below (8 * cap) m = true) (c : Nat)
    {off : Nat} {bs : List Byte} (hb : off + bs.length ≤ cap) :
    Memory.below (8 * cap) (putBytes m c off bs) = true := by
  induction bs generalizing m off with
  | nil => exact h
  | cons b bs ih =>
    simp only [List.length_cons] at hb
    exact ih (putByte_below h c (by omega) b) (by omega)

/-- The lane bits of consecutive bytes (40 R111). -/
theorem putBytes_getLsbD {m : Memory} (h : m.wf = true) {c : Nat} (hc : c < 8) (off : Nat)
    (bs : List Byte) (i k c' : Nat) (hk : k < 8) :
    (laneRead (putBytes m c off bs) (8 * i + k)).getLsbD c'
      = if c' = c ∧ off ≤ i ∧ i < off + bs.length then (bs.getD (i - off) 0).getLsbD (7 - k)
        else (laneRead m (8 * i + k)).getLsbD c' := by
  induction bs generalizing m off with
  | nil => simp only [putBytes, List.length_nil]; rw [if_neg]; omega
  | cons b bs ih =>
    simp only [putBytes, List.length_cons]
    rw [ih (putByte_wf h _ _ _), putByte_getLsbD h hc]
    by_cases hcc : c' = c
    · subst hcc
      by_cases h1 : i = off
      · subst h1
        rw [if_neg (by omega), if_pos ⟨rfl, by omega, by omega⟩, if_pos ⟨rfl, by omega, by omega⟩]
        simp
      · by_cases h2 : off + 1 ≤ i ∧ i < off + 1 + bs.length
        · rw [if_pos ⟨rfl, h2⟩, if_pos ⟨rfl, by omega, by omega⟩]
          have : i - off = (i - (off + 1)) + 1 := by omega
          rw [this, List.getD_cons_succ]
        · rw [if_neg (by omega), if_neg (by omega), if_neg (by omega)]
    · simp [hcc]

/-- Consecutive bytes read back, and everything else as before (40 R116, R117). -/
theorem chanByte_putBytes {m : Memory} (h : m.wf = true) {c : Nat} (hc : c < 8) (off : Nat)
    (bs : List Byte) (c' i : Nat) :
    chanByte (putBytes m c off bs) c' i
      = if c' = c ∧ off ≤ i ∧ i < off + bs.length then bs.getD (i - off) 0
        else chanByte m c' i := by
  induction bs generalizing m off with
  | nil => simp only [putBytes, List.length_nil]; rw [if_neg]; omega
  | cons b bs ih =>
    simp only [putBytes, List.length_cons]
    rw [ih (putByte_wf h _ _ _), chanByte_putByte h hc]
    by_cases hcc : c' = c
    · subst hcc
      by_cases h1 : i = off
      · subst h1
        rw [if_neg (by omega), if_pos ⟨rfl, rfl⟩, if_pos ⟨rfl, by omega, by omega⟩]
        simp
      · by_cases h2 : off + 1 ≤ i ∧ i < off + 1 + bs.length
        · rw [if_pos ⟨rfl, h2⟩, if_pos ⟨rfl, by omega, by omega⟩]
          have : i - off = (i - (off + 1)) + 1 := by omega
          rw [this, List.getD_cons_succ]
        · rw [if_neg (by omega), if_neg (by omega), if_neg (by omega)]
    · simp [hcc]

theorem fillLanes_wf {m : Memory} (h : m.wf = true) (c L : Nat) (v : Bool) (count : Nat) :
    (fillLanes m c L v count).wf = true := by
  induction count generalizing m L with
  | zero => exact h
  | succ n ih => exact ih (laneSetBit_wf h _ _ _) _

theorem fillLanes_below {m : Memory} {bound : Nat} (h : Memory.below bound m = true) (c : Nat)
    {L : Nat} (v : Bool) {count : Nat} (hb : L + count ≤ bound) :
    Memory.below bound (fillLanes m c L v count) = true := by
  induction count generalizing m L with
  | zero => exact h
  | succ n ih => exact ih (laneSetBit_below h (by omega) _ _) (by omega)

/-- The lane bits of a fill (40 R114, R115). -/
theorem fillLanes_getLsbD {m : Memory} (h : m.wf = true) {c : Nat} (hc : c < 8) (L : Nat) (v : Bool)
    (count : Nat) (L' c' : Nat) :
    (laneRead (fillLanes m c L v count) L').getLsbD c'
      = if c' = c ∧ L ≤ L' ∧ L' < L + count then v else (laneRead m L').getLsbD c' := by
  induction count generalizing m L with
  | zero => simp only [fillLanes]; rw [if_neg]; omega
  | succ n ih =>
    simp only [fillLanes]
    rw [ih (laneSetBit_wf h _ _ _), laneSetBit_getLsbD h _ hc]
    by_cases hcc : c' = c
    · subst hcc
      by_cases h1 : L' = L
      · subst h1; simp
      · by_cases h2 : L + 1 ≤ L' ∧ L' < L + 1 + n
        · rw [if_pos ⟨rfl, h2⟩, if_pos ⟨rfl, by omega, by omega⟩]
        · rw [if_neg (by omega), if_neg (by omega), if_neg (by omega)]
    · simp [hcc]

/-- The byte a fill leaves (40 R114, R115). -/
def fillByte (v : Bool) : Byte := if v then 0xFF else 0x00

/-- A fill of whole blocks, and everything else as before (40 R114, R115, R117). -/
theorem chanByte_fillLanes {m : Memory} (h : m.wf = true) {c : Nat} (hc : c < 8) (off : Nat) (v : Bool)
    (count : Nat) (c' i : Nat) :
    chanByte (fillLanes m c (8 * off) v (8 * count)) c' i
      = if c' = c ∧ off ≤ i ∧ i < off + count then fillByte v else chanByte m c' i := by
  by_cases hh : c' = c ∧ off ≤ i ∧ i < off + count
  · rw [if_pos hh]
    apply BitVec.eq_of_getLsbD_eq
    intro j hj
    rw [chanByte_getLsbD _ _ _ _ hj, fillLanes_getLsbD h hc,
      if_pos ⟨hh.1, by omega, by omega⟩]
    cases v
    · simp [fillByte]
    · unfold fillByte; interval_cases j <;> rfl
  · rw [if_neg hh]
    apply chanByte_congr
    intro k hk
    rw [fillLanes_getLsbD h hc, if_neg]
    rintro ⟨rfl, h1, h2⟩
    exact hh ⟨rfl, by omega, by omega⟩

end Sys2Proof.Machine
end

