-- ==== Sys2Proof/Laws/State.lean ====
section
/-! SUPPORT. One lemma per field per named update of the state, each true by definition. -/

namespace Sys2Proof.Machine

/-! ### `setBp` -/

@[simp] theorem setBp_cfg (m : Memory) (s : State) : (setBp m s).cfg = s.cfg := rfl
@[simp] theorem setBp_ch (m : Memory) (s : State) : (setBp m s).ch = s.ch := rfl
@[simp] theorem setBp_bp (m : Memory) (s : State) : (setBp m s).bp = m := rfl
@[simp] theorem setBp_cntCrcErr (m : Memory) (s : State) : (setBp m s).cntCrcErr = s.cntCrcErr := rfl
@[simp] theorem setBp_cntFrameMiss (m : Memory) (s : State) : (setBp m s).cntFrameMiss = s.cntFrameMiss := rfl
@[simp] theorem setBp_cntDraws (m : Memory) (s : State) : (setBp m s).cntDraws = s.cntDraws := rfl
@[simp] theorem setBp_cntOverdraw (m : Memory) (s : State) : (setBp m s).cntOverdraw = s.cntOverdraw := rfl
@[simp] theorem setBp_busy (m : Memory) (s : State) : (setBp m s).busy = s.busy := rfl
@[simp] theorem setBp_latchCount (m : Memory) (s : State) : (setBp m s).latchCount = s.latchCount := rfl
@[simp] theorem setBp_dstate (m : Memory) (s : State) : (setBp m s).dstate = s.dstate := rfl
@[simp] theorem setBp_lat (m : Memory) (s : State) : (setBp m s).lat = s.lat := rfl
@[simp] theorem setBp_queue (m : Memory) (s : State) : (setBp m s).queue = s.queue := rfl
@[simp] theorem setBp_crcAcc (m : Memory) (s : State) : (setBp m s).crcAcc = s.crcAcc := rfl
@[simp] theorem setBp_arms (m : Memory) (s : State) : (setBp m s).arms = s.arms := rfl
@[simp] theorem setBp_lanesOut (m : Memory) (s : State) : (setBp m s).lanesOut = s.lanesOut := rfl
@[simp] theorem setBp_pastBp (m : Memory) (s : State) : (setBp m s).pastBp = (if s.busy && m != s.bp then s.bp :: s.pastBp else s.pastBp) := rfl
@[simp] theorem setBp_sched (m : Memory) (s : State) : (setBp m s).sched = s.sched := rfl
@[simp] theorem setBp_drawn (m : Memory) (s : State) : (setBp m s).drawn = s.drawn := rfl
@[simp] theorem setBp_encodeResult (m : Memory) (s : State) : (setBp m s).encodeResult = s.encodeResult := rfl

/-! ### `resetCrc` -/

@[simp] theorem resetCrc_cfg (s : State) : (resetCrc s).cfg = s.cfg := rfl
@[simp] theorem resetCrc_ch (s : State) : (resetCrc s).ch = s.ch := rfl
@[simp] theorem resetCrc_bp (s : State) : (resetCrc s).bp = s.bp := rfl
@[simp] theorem resetCrc_cntCrcErr (s : State) : (resetCrc s).cntCrcErr = s.cntCrcErr := rfl
@[simp] theorem resetCrc_cntFrameMiss (s : State) : (resetCrc s).cntFrameMiss = s.cntFrameMiss := rfl
@[simp] theorem resetCrc_cntDraws (s : State) : (resetCrc s).cntDraws = s.cntDraws := rfl
@[simp] theorem resetCrc_cntOverdraw (s : State) : (resetCrc s).cntOverdraw = s.cntOverdraw := rfl
@[simp] theorem resetCrc_busy (s : State) : (resetCrc s).busy = s.busy := rfl
@[simp] theorem resetCrc_latchCount (s : State) : (resetCrc s).latchCount = s.latchCount := rfl
@[simp] theorem resetCrc_dstate (s : State) : (resetCrc s).dstate = s.dstate := rfl
@[simp] theorem resetCrc_lat (s : State) : (resetCrc s).lat = s.lat := rfl
@[simp] theorem resetCrc_queue (s : State) : (resetCrc s).queue = s.queue := rfl
@[simp] theorem resetCrc_crcAcc (s : State) : (resetCrc s).crcAcc = [] := rfl
@[simp] theorem resetCrc_arms (s : State) : (resetCrc s).arms = s.arms := rfl
@[simp] theorem resetCrc_lanesOut (s : State) : (resetCrc s).lanesOut = s.lanesOut := rfl
@[simp] theorem resetCrc_pastBp (s : State) : (resetCrc s).pastBp = s.pastBp := rfl
@[simp] theorem resetCrc_sched (s : State) : (resetCrc s).sched = s.sched := rfl
@[simp] theorem resetCrc_drawn (s : State) : (resetCrc s).drawn = s.drawn := rfl
@[simp] theorem resetCrc_encodeResult (s : State) : (resetCrc s).encodeResult = s.encodeResult := rfl

/-! ### `linkByte` -/

@[simp] theorem linkByte_cfg (b : Byte) (s : State) : (linkByte b s).cfg = s.cfg := rfl
@[simp] theorem linkByte_ch (b : Byte) (s : State) : (linkByte b s).ch = s.ch := rfl
@[simp] theorem linkByte_bp (b : Byte) (s : State) : (linkByte b s).bp = s.bp := rfl
@[simp] theorem linkByte_cntCrcErr (b : Byte) (s : State) : (linkByte b s).cntCrcErr = s.cntCrcErr := rfl
@[simp] theorem linkByte_cntFrameMiss (b : Byte) (s : State) : (linkByte b s).cntFrameMiss = s.cntFrameMiss := rfl
@[simp] theorem linkByte_cntDraws (b : Byte) (s : State) : (linkByte b s).cntDraws = s.cntDraws := rfl
@[simp] theorem linkByte_cntOverdraw (b : Byte) (s : State) : (linkByte b s).cntOverdraw = s.cntOverdraw := rfl
@[simp] theorem linkByte_busy (b : Byte) (s : State) : (linkByte b s).busy = s.busy := rfl
@[simp] theorem linkByte_latchCount (b : Byte) (s : State) : (linkByte b s).latchCount = s.latchCount := rfl
@[simp] theorem linkByte_dstate (b : Byte) (s : State) : (linkByte b s).dstate = s.dstate := rfl
@[simp] theorem linkByte_lat (b : Byte) (s : State) : (linkByte b s).lat = s.lat := rfl
@[simp] theorem linkByte_queue (b : Byte) (s : State) : (linkByte b s).queue = s.queue ++ [b] := rfl
@[simp] theorem linkByte_crcAcc (b : Byte) (s : State) : (linkByte b s).crcAcc = s.crcAcc := rfl
@[simp] theorem linkByte_arms (b : Byte) (s : State) : (linkByte b s).arms = s.arms := rfl
@[simp] theorem linkByte_lanesOut (b : Byte) (s : State) : (linkByte b s).lanesOut = s.lanesOut := rfl
@[simp] theorem linkByte_pastBp (b : Byte) (s : State) : (linkByte b s).pastBp = s.pastBp := rfl
@[simp] theorem linkByte_sched (b : Byte) (s : State) : (linkByte b s).sched = s.sched := rfl
@[simp] theorem linkByte_drawn (b : Byte) (s : State) : (linkByte b s).drawn = s.drawn := rfl
@[simp] theorem linkByte_encodeResult (b : Byte) (s : State) : (linkByte b s).encodeResult = s.encodeResult := rfl

/-! ### `deliver` -/

@[simp] theorem deliver_cfg (i : Instr) (s : State) : (deliver i s).cfg = s.cfg := rfl
@[simp] theorem deliver_ch (i : Instr) (s : State) : (deliver i s).ch = s.ch := rfl
@[simp] theorem deliver_bp (i : Instr) (s : State) : (deliver i s).bp = s.bp := rfl
@[simp] theorem deliver_cntCrcErr (i : Instr) (s : State) : (deliver i s).cntCrcErr = s.cntCrcErr := rfl
@[simp] theorem deliver_cntFrameMiss (i : Instr) (s : State) : (deliver i s).cntFrameMiss = s.cntFrameMiss := rfl
@[simp] theorem deliver_cntDraws (i : Instr) (s : State) : (deliver i s).cntDraws = s.cntDraws := rfl
@[simp] theorem deliver_cntOverdraw (i : Instr) (s : State) : (deliver i s).cntOverdraw = s.cntOverdraw := rfl
@[simp] theorem deliver_busy (i : Instr) (s : State) : (deliver i s).busy = s.busy := rfl
@[simp] theorem deliver_latchCount (i : Instr) (s : State) : (deliver i s).latchCount = s.latchCount := rfl
@[simp] theorem deliver_dstate (i : Instr) (s : State) : (deliver i s).dstate = s.dstate := rfl
@[simp] theorem deliver_lat (i : Instr) (s : State) : (deliver i s).lat = s.lat := rfl
@[simp] theorem deliver_queue (i : Instr) (s : State) : (deliver i s).queue = wireBytes i ++ s.queue := rfl
@[simp] theorem deliver_crcAcc (i : Instr) (s : State) : (deliver i s).crcAcc = s.crcAcc := rfl
@[simp] theorem deliver_arms (i : Instr) (s : State) : (deliver i s).arms = s.arms := rfl
@[simp] theorem deliver_lanesOut (i : Instr) (s : State) : (deliver i s).lanesOut = s.lanesOut := rfl
@[simp] theorem deliver_pastBp (i : Instr) (s : State) : (deliver i s).pastBp = s.pastBp := rfl
@[simp] theorem deliver_sched (i : Instr) (s : State) : (deliver i s).sched = s.sched := rfl
@[simp] theorem deliver_drawn (i : Instr) (s : State) : (deliver i s).drawn = s.drawn := rfl
@[simp] theorem deliver_encodeResult (i : Instr) (s : State) : (deliver i s).encodeResult = s.encodeResult := rfl

/-! ### `endInvocation` -/

@[simp] theorem endInvocation_cfg (s : State) : (endInvocation s).cfg = s.cfg := rfl
@[simp] theorem endInvocation_ch (s : State) : (endInvocation s).ch = s.ch := rfl
@[simp] theorem endInvocation_bp (s : State) : (endInvocation s).bp = s.bp := rfl
@[simp] theorem endInvocation_cntCrcErr (s : State) : (endInvocation s).cntCrcErr = s.cntCrcErr := rfl
@[simp] theorem endInvocation_cntFrameMiss (s : State) : (endInvocation s).cntFrameMiss = s.cntFrameMiss := rfl
@[simp] theorem endInvocation_cntDraws (s : State) : (endInvocation s).cntDraws = s.cntDraws := rfl
@[simp] theorem endInvocation_cntOverdraw (s : State) : (endInvocation s).cntOverdraw = s.cntOverdraw := rfl
@[simp] theorem endInvocation_busy (s : State) : (endInvocation s).busy = s.busy := rfl
@[simp] theorem endInvocation_latchCount (s : State) : (endInvocation s).latchCount = s.latchCount := rfl
@[simp] theorem endInvocation_dstate (s : State) : (endInvocation s).dstate = .idle := rfl
@[simp] theorem endInvocation_lat (s : State) : (endInvocation s).lat = anyLatches s.drawn := rfl
@[simp] theorem endInvocation_queue (s : State) : (endInvocation s).queue = s.queue := rfl
@[simp] theorem endInvocation_crcAcc (s : State) : (endInvocation s).crcAcc = s.crcAcc := rfl
@[simp] theorem endInvocation_arms (s : State) : (endInvocation s).arms = s.arms := rfl
@[simp] theorem endInvocation_lanesOut (s : State) : (endInvocation s).lanesOut = s.lanesOut := rfl
@[simp] theorem endInvocation_pastBp (s : State) : (endInvocation s).pastBp = s.pastBp := rfl
@[simp] theorem endInvocation_sched (s : State) : (endInvocation s).sched = s.sched := rfl
@[simp] theorem endInvocation_drawn (s : State) : (endInvocation s).drawn = s.drawn + 1 := rfl
@[simp] theorem endInvocation_encodeResult (s : State) : (endInvocation s).encodeResult = s.encodeResult := rfl

/-! ### `armTransfer` -/

@[simp] theorem armTransfer_cfg (a : Arm) (s : State) : (armTransfer a s).cfg = s.cfg := rfl
@[simp] theorem armTransfer_ch (a : Arm) (s : State) : (armTransfer a s).ch = s.ch := rfl
@[simp] theorem armTransfer_bp (a : Arm) (s : State) : (armTransfer a s).bp = s.bp := rfl
@[simp] theorem armTransfer_cntCrcErr (a : Arm) (s : State) : (armTransfer a s).cntCrcErr = s.cntCrcErr := rfl
@[simp] theorem armTransfer_cntFrameMiss (a : Arm) (s : State) : (armTransfer a s).cntFrameMiss = s.cntFrameMiss := rfl
@[simp] theorem armTransfer_cntDraws (a : Arm) (s : State) : (armTransfer a s).cntDraws = s.cntDraws := rfl
@[simp] theorem armTransfer_cntOverdraw (a : Arm) (s : State) : (armTransfer a s).cntOverdraw = s.cntOverdraw := rfl
@[simp] theorem armTransfer_busy (a : Arm) (s : State) : (armTransfer a s).busy = s.busy := rfl
@[simp] theorem armTransfer_latchCount (a : Arm) (s : State) : (armTransfer a s).latchCount = s.latchCount := rfl
@[simp] theorem armTransfer_dstate (a : Arm) (s : State) : (armTransfer a s).dstate = s.dstate := rfl
@[simp] theorem armTransfer_lat (a : Arm) (s : State) : (armTransfer a s).lat = s.lat := rfl
@[simp] theorem armTransfer_queue (a : Arm) (s : State) : (armTransfer a s).queue = s.queue := rfl
@[simp] theorem armTransfer_crcAcc (a : Arm) (s : State) : (armTransfer a s).crcAcc = s.crcAcc := rfl
@[simp] theorem armTransfer_arms (a : Arm) (s : State) : (armTransfer a s).arms = s.arms ++ [a] := rfl
@[simp] theorem armTransfer_lanesOut (a : Arm) (s : State) : (armTransfer a s).lanesOut = [] := rfl
@[simp] theorem armTransfer_pastBp (a : Arm) (s : State) : (armTransfer a s).pastBp = [] := rfl
@[simp] theorem armTransfer_sched (a : Arm) (s : State) : (armTransfer a s).sched = s.sched := rfl
@[simp] theorem armTransfer_drawn (a : Arm) (s : State) : (armTransfer a s).drawn = s.drawn := rfl
@[simp] theorem armTransfer_encodeResult (a : Arm) (s : State) : (armTransfer a s).encodeResult = s.encodeResult := rfl

/-! ### `applyReset` -/

@[simp] theorem applyReset_cfg (s : State) : (applyReset s).cfg = s.cfg := rfl
@[simp] theorem applyReset_ch (s : State) : (applyReset s).ch = Vector.replicate 8 zeroSlot := rfl
@[simp] theorem applyReset_bp (s : State) : (applyReset s).bp = [] := rfl
@[simp] theorem applyReset_cntCrcErr (s : State) : (applyReset s).cntCrcErr = 0 := rfl
@[simp] theorem applyReset_cntFrameMiss (s : State) : (applyReset s).cntFrameMiss = 0 := rfl
@[simp] theorem applyReset_cntDraws (s : State) : (applyReset s).cntDraws = 0 := rfl
@[simp] theorem applyReset_cntOverdraw (s : State) : (applyReset s).cntOverdraw = 0 := rfl
@[simp] theorem applyReset_busy (s : State) : (applyReset s).busy = false := rfl
@[simp] theorem applyReset_latchCount (s : State) : (applyReset s).latchCount = 0 := rfl
@[simp] theorem applyReset_dstate (s : State) : (applyReset s).dstate = .idle := rfl
@[simp] theorem applyReset_lat (s : State) : (applyReset s).lat = Latches.zero := rfl
@[simp] theorem applyReset_queue (s : State) : (applyReset s).queue = [] := rfl
@[simp] theorem applyReset_crcAcc (s : State) : (applyReset s).crcAcc = [] := rfl
@[simp] theorem applyReset_arms (s : State) : (applyReset s).arms = [] := rfl
@[simp] theorem applyReset_lanesOut (s : State) : (applyReset s).lanesOut = [] := rfl
@[simp] theorem applyReset_pastBp (s : State) : (applyReset s).pastBp = [] := rfl
@[simp] theorem applyReset_sched (s : State) : (applyReset s).sched = s.sched := rfl
@[simp] theorem applyReset_drawn (s : State) : (applyReset s).drawn = s.drawn := rfl
@[simp] theorem applyReset_encodeResult (s : State) : (applyReset s).encodeResult = 0 := rfl

/-! ### `toTrailer` -/

@[simp] theorem toTrailer_cfg (s : State) : (toTrailer s).cfg = s.cfg := rfl
@[simp] theorem toTrailer_ch (s : State) : (toTrailer s).ch = s.ch := rfl
@[simp] theorem toTrailer_bp (s : State) : (toTrailer s).bp = s.bp := rfl
@[simp] theorem toTrailer_cntCrcErr (s : State) : (toTrailer s).cntCrcErr = s.cntCrcErr := rfl
@[simp] theorem toTrailer_cntFrameMiss (s : State) : (toTrailer s).cntFrameMiss = s.cntFrameMiss := rfl
@[simp] theorem toTrailer_cntDraws (s : State) : (toTrailer s).cntDraws = s.cntDraws := rfl
@[simp] theorem toTrailer_cntOverdraw (s : State) : (toTrailer s).cntOverdraw = s.cntOverdraw := rfl
@[simp] theorem toTrailer_busy (s : State) : (toTrailer s).busy = s.busy := rfl
@[simp] theorem toTrailer_latchCount (s : State) : (toTrailer s).latchCount = s.latchCount := rfl
@[simp] theorem toTrailer_dstate (s : State) : (toTrailer s).dstate = .crc 0 := rfl
@[simp] theorem toTrailer_lat (s : State) : (toTrailer s).lat = { s.lat with crcLocal := currentCrc s } := rfl
@[simp] theorem toTrailer_queue (s : State) : (toTrailer s).queue = s.queue := rfl
@[simp] theorem toTrailer_crcAcc (s : State) : (toTrailer s).crcAcc = s.crcAcc := rfl
@[simp] theorem toTrailer_arms (s : State) : (toTrailer s).arms = s.arms := rfl
@[simp] theorem toTrailer_lanesOut (s : State) : (toTrailer s).lanesOut = s.lanesOut := rfl
@[simp] theorem toTrailer_pastBp (s : State) : (toTrailer s).pastBp = s.pastBp := rfl
@[simp] theorem toTrailer_sched (s : State) : (toTrailer s).sched = s.sched := rfl
@[simp] theorem toTrailer_drawn (s : State) : (toTrailer s).drawn = s.drawn := rfl
@[simp] theorem toTrailer_encodeResult (s : State) : (toTrailer s).encodeResult = s.encodeResult := rfl

/-! ### `increment` -/

theorem increment_lt (cfg : Config) (cnt : Nat) : increment cfg cnt < 2 ^ cfg.cntW :=
  Nat.mod_lt _ (Nat.two_pow_pos _)

theorem increment_noWrap {cfg : Config} {cnt : Nat} (h : cnt + 1 < 2 ^ cfg.cntW) :
    increment cfg cnt = cnt + 1 := Nat.mod_eq_of_lt h

/-! ### `countError` -/

@[simp] theorem countError_cfg (e : ErrorKind) (s : State) : (countError e s).cfg = s.cfg := by cases e <;> rfl
@[simp] theorem countError_ch (e : ErrorKind) (s : State) : (countError e s).ch = s.ch := by cases e <;> rfl
@[simp] theorem countError_bp (e : ErrorKind) (s : State) : (countError e s).bp = s.bp := by cases e <;> rfl
theorem countError_cntCrcErr (e : ErrorKind) (s : State) :
    (countError e s).cntCrcErr = if e = .crc then increment s.cfg s.cntCrcErr else s.cntCrcErr := by cases e <;> rfl
theorem countError_cntFrameMiss (e : ErrorKind) (s : State) :
    (countError e s).cntFrameMiss = if e = .magic then increment s.cfg s.cntFrameMiss else s.cntFrameMiss := by cases e <;> rfl
@[simp] theorem countError_cntDraws (e : ErrorKind) (s : State) : (countError e s).cntDraws = s.cntDraws := by cases e <;> rfl
theorem countError_cntOverdraw (e : ErrorKind) (s : State) :
    (countError e s).cntOverdraw = if e = .overdraw then increment s.cfg s.cntOverdraw else s.cntOverdraw := by cases e <;> rfl
@[simp] theorem countError_busy (e : ErrorKind) (s : State) : (countError e s).busy = s.busy := by cases e <;> rfl
@[simp] theorem countError_latchCount (e : ErrorKind) (s : State) : (countError e s).latchCount = s.latchCount := by cases e <;> rfl
@[simp] theorem countError_dstate (e : ErrorKind) (s : State) : (countError e s).dstate = s.dstate := by cases e <;> rfl
@[simp] theorem countError_lat (e : ErrorKind) (s : State) : (countError e s).lat = s.lat := by cases e <;> rfl
@[simp] theorem countError_queue (e : ErrorKind) (s : State) : (countError e s).queue = s.queue := by cases e <;> rfl
@[simp] theorem countError_crcAcc (e : ErrorKind) (s : State) : (countError e s).crcAcc = s.crcAcc := by cases e <;> rfl
@[simp] theorem countError_arms (e : ErrorKind) (s : State) : (countError e s).arms = s.arms := by cases e <;> rfl
@[simp] theorem countError_lanesOut (e : ErrorKind) (s : State) : (countError e s).lanesOut = s.lanesOut := by cases e <;> rfl
@[simp] theorem countError_pastBp (e : ErrorKind) (s : State) : (countError e s).pastBp = s.pastBp := by cases e <;> rfl
@[simp] theorem countError_sched (e : ErrorKind) (s : State) : (countError e s).sched = s.sched := by cases e <;> rfl
@[simp] theorem countError_drawn (e : ErrorKind) (s : State) : (countError e s).drawn = s.drawn := by cases e <;> rfl
@[simp] theorem countError_encodeResult (e : ErrorKind) (s : State) : (countError e s).encodeResult = s.encodeResult := by cases e <;> rfl

end Sys2Proof.Machine
end

