-- ==== Sys2Proof/Laws/Ops.lean ====
section
/-! SUPPORT. What each shared operation can do, once. -/

namespace Sys2Proof.Machine

/-! ### `andThen` -/

@[simp] theorem andThen_next (s : State) (f : State → Outcome) : andThen (.next s) f = f s := rfl

theorem andThen_eq_next {o : Outcome} {f : State → Outcome} {t : State} :
    andThen o f = .next t ↔ ∃ u, o = .next u ∧ f u = .next t := by
  cases o <;> simp [andThen]

theorem andThen_assoc (o : Outcome) (f g : State → Outcome) :
    andThen (andThen o f) g = andThen o fun s => andThen (f s) g := by
  cases o <;> rfl

/-! ### States that differ in the buffer and the free values only -/

/-- `t` is `s` but for the buffer, its earlier contents and the count of free values. -/
def SameButBuffer (s t : State) : Prop :=
  t = { s with bp := t.bp, pastBp := t.pastBp, drawn := t.drawn }

theorem SameButBuffer.refl (s : State) : SameButBuffer s s := rfl

theorem SameButBuffer.trans {s t u : State} (h : SameButBuffer s t) (h' : SameButBuffer t u) :
    SameButBuffer s u := by
  unfold SameButBuffer at h h' ⊢
  rw [h] at h'
  exact h'

theorem SameButBuffer.cfg {s t : State} (h : SameButBuffer s t) : t.cfg = s.cfg := by rw [h]
theorem SameButBuffer.ch {s t : State} (h : SameButBuffer s t) : t.ch = s.ch := by rw [h]

theorem SameButBuffer.busy {s t : State} (h : SameButBuffer s t) : t.busy = s.busy := by rw [h]

theorem SameButBuffer.setBp (m : Memory) (s : State) : SameButBuffer s (setBp m s) := rfl

@[simp] theorem setBp_self (s : State) : Machine.setBp s.bp s = s := by
  cases s; simp [Machine.setBp]

/-! ### The earlier contents a transfer can still read -/

/-- From `s` to `t` the buffer's content is not lost to a transfer in flight: nothing was written, or
the content of `s` is among the earlier contents of `t` (20_memory R71). -/
def KeepsHistory (s t : State) : Prop :=
  (t.bp = s.bp ∧ t.pastBp = s.pastBp) ∨ (s.busy = true → ∃ l, t.pastBp = l ++ s.bp :: s.pastBp)

theorem KeepsHistory.same {s t : State} (h : t.bp = s.bp) (h' : t.pastBp = s.pastBp) :
    KeepsHistory s t := .inl ⟨h, h'⟩

theorem KeepsHistory.trans {s t u : State} (hb : t.busy = s.busy) (h : KeepsHistory s t)
    (h' : KeepsHistory t u) : KeepsHistory s u := by
  rcases h' with ⟨h1, h2⟩ | h2
  · rcases h with ⟨h3, h4⟩ | h4
    · exact .inl ⟨h1.trans h3, h2.trans h4⟩
    · exact .inr fun hs => by rw [h2]; exact h4 hs
  · refine .inr fun hs => ?_
    obtain ⟨l, hl⟩ := h2 (hb.trans hs)
    rcases h with ⟨h3, h4⟩ | h4
    · exact ⟨l, by rw [hl, h3, h4]⟩
    · obtain ⟨l', hl'⟩ := h4 hs
      exact ⟨l ++ t.bp :: l', by rw [hl, hl']; simp⟩

theorem KeepsHistory.setBp (m : Memory) (s : State) : KeepsHistory s (Machine.setBp m s) := by
  by_cases hm : m = s.bp
  · subst hm
    rw [setBp_self]
    exact .inl ⟨rfl, rfl⟩
  · exact .inr fun hs => ⟨[], by simp [Machine.setBp, hs, hm]⟩

/-- In a transfer a content that is not there any more is among the earlier ones. -/
theorem KeepsHistory.mem {s t : State} (h : KeepsHistory s t) (hb : s.busy = true)
    (hn : t.bp ≠ s.bp) : s.bp ∈ t.pastBp := by
  rcases h with ⟨h1, -⟩ | h
  · exact absurd h1 hn
  · obtain ⟨l, hl⟩ := h hb
    simp [hl]

/-! ### ENCODE -/

/-- ENCODE in range with enough source bytes answers (40 R111, R112). -/
theorem encodeOp_inRange {off n : Nat} {c : Byte} {bytes : List Byte} {s : State}
    (hr : off + n ≤ s.cfg.cap) (hn : n ≤ bytes.length) :
    encodeOp off c bytes n s
      = .next (if 8 ≤ c.toNat then s else setBp (putBytes s.bp c.toNat off (bytes.take n)) s) := by
  unfold encodeOp
  rw [if_neg (by omega), if_neg (by omega)]
  split <;> rfl

/-- Everything ENCODE can do when it answers. -/
theorem encodeOp_eq_next {off n : Nat} {c : Byte} {bytes : List Byte} {s t : State}
    (h : encodeOp off c bytes n s = .next t) :
    off + n ≤ s.cfg.cap ∧ n ≤ bytes.length ∧
      t = if 8 ≤ c.toNat then s else setBp (putBytes s.bp c.toNat off (bytes.take n)) s := by
  by_cases hr : s.cfg.cap < off + n
  · simp [encodeOp, hr] at h
  · by_cases hn : bytes.length < n
    · simp [encodeOp, hr, hn] at h
    · rw [encodeOp_inRange (by omega) (by omega)] at h
      exact ⟨by omega, by omega, by simpa using h.symm⟩

/-! ### Fills -/

/-- A fill in range answers (40 R112, R114, R115). -/
theorem fillOp_inRange {v : Bool} {off n : Nat} {c : Byte} {s : State}
    (hr : off + n ≤ s.cfg.cap) :
    fillOp v off c n s
      = .next (if 8 ≤ c.toNat then s
          else setBp (fillLanes s.bp c.toNat (8 * off) v (8 * n)) s) := by
  unfold fillOp
  rw [if_neg (by omega)]
  split <;> rfl

/-- Everything a fill can do when it answers. -/
theorem fillOp_eq_next {v : Bool} {off n : Nat} {c : Byte} {s t : State}
    (h : fillOp v off c n s = .next t) :
    off + n ≤ s.cfg.cap ∧
      t = if 8 ≤ c.toNat then s else setBp (fillLanes s.bp c.toNat (8 * off) v (8 * n)) s := by
  by_cases hr : s.cfg.cap < off + n
  · simp [fillOp, hr] at h
  · rw [fillOp_inRange (by omega)] at h
    exact ⟨by omega, by simpa using h.symm⟩

/-! ### Buffers after an operation -/

/-- `m'` is a canonical buffer within `cap` blocks whenever `m` is. -/
def KeepsForm (cap : Nat) (m m' : Memory) : Prop :=
  (m.wf = true → m'.wf = true) ∧
    (Memory.below (8 * cap) m = true → Memory.below (8 * cap) m' = true)

theorem KeepsForm.refl (cap : Nat) (m : Memory) : KeepsForm cap m m := ⟨id, id⟩

theorem KeepsForm.trans {cap : Nat} {m m' m'' : Memory} (h : KeepsForm cap m m')
    (h' : KeepsForm cap m' m'') : KeepsForm cap m m'' :=
  ⟨fun x => h'.1 (h.1 x), fun x => h'.2 (h.2 x)⟩

theorem keepsForm_putBytes {cap : Nat} (m : Memory) (c : Nat) {off : Nat} {bs : List Byte}
    (h : off + bs.length ≤ cap) : KeepsForm cap m (putBytes m c off bs) :=
  ⟨fun x => putBytes_wf x _ _ _, fun x => putBytes_below x _ h⟩

theorem keepsForm_fillLanes {cap : Nat} (m : Memory) (c : Nat) (v : Bool) {off n : Nat}
    (h : off + n ≤ cap) : KeepsForm cap m (fillLanes m c (8 * off) v (8 * n)) :=
  ⟨fun x => fillLanes_wf x _ _ _ _, fun x => fillLanes_below x _ _ (by omega)⟩

/-- ENCODE keeps the buffer's canonical form and range. -/
theorem encodeOp_keepsForm {off n : Nat} {c : Byte} {bytes : List Byte} {s t : State}
    (h : encodeOp off c bytes n s = .next t) : KeepsForm s.cfg.cap s.bp t.bp := by
  obtain ⟨hr, hn, rfl⟩ := encodeOp_eq_next h
  split
  · exact KeepsForm.refl _ _
  · exact keepsForm_putBytes _ _ (by simp; omega)

/-- A fill keeps the buffer's canonical form and range. -/
theorem fillOp_keepsForm {v : Bool} {off n : Nat} {c : Byte} {s t : State}
    (h : fillOp v off c n s = .next t) : KeepsForm s.cfg.cap s.bp t.bp := by
  obtain ⟨hr, rfl⟩ := fillOp_eq_next h
  split
  · exact KeepsForm.refl _ _
  · exact keepsForm_fillLanes _ _ _ hr

theorem encodeOp_sameButBuffer {off n : Nat} {c : Byte} {bytes : List Byte} {s t : State}
    (h : encodeOp off c bytes n s = .next t) : SameButBuffer s t := by
  obtain ⟨-, -, rfl⟩ := encodeOp_eq_next h
  split <;> rfl

theorem fillOp_sameButBuffer {v : Bool} {off n : Nat} {c : Byte} {s t : State}
    (h : fillOp v off c n s = .next t) : SameButBuffer s t := by
  obtain ⟨-, rfl⟩ := fillOp_eq_next h
  split <;> rfl

theorem encodeOp_keepsHistory {off n : Nat} {c : Byte} {bytes : List Byte} {s t : State}
    (h : encodeOp off c bytes n s = .next t) : KeepsHistory s t := by
  obtain ⟨-, -, rfl⟩ := encodeOp_eq_next h
  split
  · exact .same rfl rfl
  · exact KeepsHistory.setBp _ _

theorem fillOp_keepsHistory {v : Bool} {off n : Nat} {c : Byte} {s t : State}
    (h : fillOp v off c n s = .next t) : KeepsHistory s t := by
  obtain ⟨-, rfl⟩ := fillOp_eq_next h
  split
  · exact .same rfl rfl
  · exact KeepsHistory.setBp _ _

/-- Every byte of every channel after ENCODE (40 R116, R117). -/
theorem encodeOp_chanByte {off n : Nat} {c : Byte} {bytes : List Byte} {s t : State}
    (hwf : s.bp.wf = true) (h : encodeOp off c bytes n s = .next t) (c' i : Nat) :
    chanByte t.bp c' i =
      if c.toNat < 8 ∧ c' = c.toNat ∧ off ≤ i ∧ i < off + n then bytes.getD (i - off) 0
      else chanByte s.bp c' i := by
  obtain ⟨hr, hn, rfl⟩ := encodeOp_eq_next h
  by_cases hc : 8 ≤ c.toNat
  · rw [if_pos hc, if_neg (by omega)]
  · rw [if_neg hc, setBp_bp, chanByte_putBytes hwf (by omega), List.length_take, Nat.min_eq_left hn]
    by_cases hh : c' = c.toNat ∧ off ≤ i ∧ i < off + n
    · rw [if_pos hh, if_pos ⟨by omega, hh⟩, List.getD_eq_getElem?_getD,
        List.getElem?_take_of_lt (by omega), ← List.getD_eq_getElem?_getD]
    · rw [if_neg hh, if_neg (fun x => hh x.2)]

/-- Every byte of every channel after a fill (40 R114, R115, R117). -/
theorem fillOp_chanByte {v : Bool} {off n : Nat} {c : Byte} {s t : State}
    (hwf : s.bp.wf = true) (h : fillOp v off c n s = .next t) (c' i : Nat) :
    chanByte t.bp c' i =
      if c.toNat < 8 ∧ c' = c.toNat ∧ off ≤ i ∧ i < off + n then fillByte v
      else chanByte s.bp c' i := by
  obtain ⟨hr, rfl⟩ := fillOp_eq_next h
  by_cases hc : 8 ≤ c.toNat
  · rw [if_pos hc, if_neg (by omega)]
  · rw [if_neg hc, setBp_bp, chanByte_fillLanes hwf (by omega)]
    by_cases hh : c' = c.toNat ∧ off ≤ i ∧ i < off + n
    · rw [if_pos hh, if_pos ⟨by omega, hh⟩]
    · rw [if_neg hh, if_neg (fun x => hh x.2)]

end Sys2Proof.Machine
end

