-- ==== Sys2Proof/Laws/Draw.lean ====
section
/-! SUPPORT. The draw attempt: what the scan of the slots collects, and everything an attempt can do. -/

namespace Sys2Proof.Machine

/-! ### The scan -/

/-- What slot `sl`, slot `c`, adds to the timing values. -/
def addSlot (c : Nat) (sl : Slot) (t : Timing) : Timing where
  maxBytes := if slotEnabled sl then max t.maxBytes (slotLen sl) else t.maxBytes
  startMask := if wsEnabled sl then t.startMask ||| bitMask c else t.startMask
  clockMask := if clkEnabled sl then t.clockMask ||| bitMask c else t.clockMask
  freqSel := if apaEnabled sl then minWord t.freqSel sl.freq else t.freqSel

/-- The timing values after the slots from slot `c` on. -/
def addSlots : Nat → List Slot → Timing → Timing
  | _, [], t => t
  | c, sl :: sls, t => addSlots (c + 1) sls (addSlot c sl t)

/-- One slot aborts the scan or adds to it (43 R192). -/
theorem scanSlot_eq (latch : Bool) (c : Nat) (sl : Slot) (t : Timing) :
    scanSlot latch c sl t = if latch && wsEnabled sl then none else some (addSlot c sl t) := by
  obtain ⟨tag, n, ord, px, f⟩ := sl
  cases tag
  · simp [scanSlot, wsEnabled, addSlot, slotEnabled, clkEnabled, apaEnabled]
  · by_cases hn : n = 0#8 <;> cases latch <;>
      simp [scanSlot, wsEnabled, addSlot, slotEnabled, clkEnabled, apaEnabled, slotLen, hn]
  · by_cases hf : f = 0#32 <;>
      simp [scanSlot, wsEnabled, addSlot, slotEnabled, clkEnabled, apaEnabled, slotLen, hf]
  · by_cases hf : f = 0#32 <;>
      simp [scanSlot, wsEnabled, addSlot, slotEnabled, clkEnabled, apaEnabled, slotLen, hf]

/-- Everything the scan can do (43 R192). -/
theorem scanSlots_eq (latch : Bool) (c : Nat) (sls : List Slot) (t : Timing) :
    scanSlots latch c sls t
      = if latch && sls.any wsEnabled then none else some (addSlots c sls t) := by
  induction sls generalizing c t with
  | nil => cases latch <;> rfl
  | cons sl sls ih =>
    simp only [scanSlots, scanSlot_eq, List.any_cons]
    cases latch
    · simp [ih, addSlots]
    · by_cases h : wsEnabled sl = true <;> simp [ih, addSlots, h]

theorem addSlots_maxBytes (c : Nat) (sls : List Slot) (t : Timing) :
    (addSlots c sls t).maxBytes
      = ((sls.filter slotEnabled).map slotLen).foldl max t.maxBytes := by
  induction sls generalizing c t with
  | nil => rfl
  | cons sl sls ih =>
    simp only [addSlots, ih]
    cases h : slotEnabled sl <;> simp [addSlot, h]

theorem bitMask_or_getLsbD (m : Byte) {c : Nat} (hc : c < 8) (k : Nat) :
    (m ||| bitMask c).getLsbD k = (m.getLsbD k || decide (k = c)) := by
  rw [BitVec.getLsbD_or, bitMask_getLsbD c k hc]

/-- A mask bit is set by an earlier value or by the slot of that number. -/
theorem addSlots_masks (c : Nat) (sls : List Slot) (t : Timing) (h : c + sls.length ≤ 8) (k : Nat) :
    (addSlots c sls t).startMask.getLsbD k
        = (t.startMask.getLsbD k || (decide (c ≤ k) && (sls[k - c]?).any wsEnabled)) ∧
      (addSlots c sls t).clockMask.getLsbD k
        = (t.clockMask.getLsbD k || (decide (c ≤ k) && (sls[k - c]?).any clkEnabled)) := by
  induction sls generalizing c t with
  | nil => simp [addSlots]
  | cons sl sls ih =>
    simp only [List.length_cons] at h
    obtain ⟨h1, h2⟩ := ih (c + 1) (addSlot c sl t) (by omega)
    simp only [addSlots, h1, h2]
    have hc : c < 8 := by omega
    by_cases hk : k = c
    · subst hk
      simp only [addSlot]
      constructor
      · cases hw : wsEnabled sl <;> simp [hw, bitMask_getLsbD k k hc]
      · cases hw : clkEnabled sl <;> simp [hw, bitMask_getLsbD k k hc]
    · have e1 : (addSlot c sl t).startMask.getLsbD k = t.startMask.getLsbD k := by
        simp only [addSlot]
        split
        · rw [bitMask_or_getLsbD _ hc]; simp [hk]
        · rfl
      have e2 : (addSlot c sl t).clockMask.getLsbD k = t.clockMask.getLsbD k := by
        simp only [addSlot]
        split
        · rw [bitMask_or_getLsbD _ hc]; simp [hk]
        · rfl
      rw [e1, e2]
      by_cases hle : c + 1 ≤ k
      · have e3 : k - c = (k - (c + 1)) + 1 := by omega
        have e4 : c ≤ k := by omega
        simp [hle, e3, e4]
      · have e4 : ¬ c ≤ k := by omega
        simp [hle, e4]

theorem minWord_le_left (a b : Word) : (minWord a b).toNat ≤ a.toNat := by
  unfold minWord; split <;> omega

theorem minWord_le_right (a b : Word) : (minWord a b).toNat ≤ b.toNat := by
  unfold minWord; split <;> omega

theorem minWord_mem (a b : Word) : minWord a b = a ∨ minWord a b = b := by
  unfold minWord; split <;> simp

/-- The frequency is at most every enabled APA102 slot's, and is one of theirs or the start value. -/
theorem addSlots_freqSel (c : Nat) (sls : List Slot) (t : Timing) :
    (addSlots c sls t).freqSel.toNat ≤ t.freqSel.toNat ∧
      (∀ sl ∈ sls, apaEnabled sl = true → (addSlots c sls t).freqSel.toNat ≤ sl.freq.toNat) ∧
      ((addSlots c sls t).freqSel = t.freqSel ∨
        ∃ sl ∈ sls, apaEnabled sl = true ∧ (addSlots c sls t).freqSel = sl.freq) := by
  induction sls generalizing c t with
  | nil => simp [addSlots]
  | cons sl sls ih =>
    obtain ⟨h1, h2, h3⟩ := ih (c + 1) (addSlot c sl t)
    simp only [addSlots]
    cases ha : apaEnabled sl
    · have e : (addSlot c sl t).freqSel = t.freqSel := by simp [addSlot, ha]
      rw [e] at h1 h3
      refine ⟨h1, ?_, ?_⟩
      · intro x hx hxa
        rcases List.mem_cons.1 hx with rfl | hx
        · rw [ha] at hxa; exact absurd hxa (by simp)
        · exact h2 x hx hxa
      · exact h3.imp id fun ⟨x, hx, y⟩ => ⟨x, List.mem_cons_of_mem _ hx, y⟩
    · have e : (addSlot c sl t).freqSel = minWord t.freqSel sl.freq := by simp [addSlot, ha]
      rw [e] at h1 h3
      refine ⟨h1.trans (minWord_le_left _ _), ?_, ?_⟩
      · intro x hx hxa
        rcases List.mem_cons.1 hx with rfl | hx
        · exact h1.trans (minWord_le_right _ _)
        · exact h2 x hx hxa
      · rcases h3 with h3 | ⟨x, hx, y⟩
        · rcases minWord_mem t.freqSel sl.freq with h | h
          · exact .inl (h3.trans h)
          · exact .inr ⟨sl, List.mem_cons_self, ha, h3.trans h⟩
        · exact .inr ⟨x, List.mem_cons_of_mem _ hx, y⟩

/-! ### The attempt -/

/-- The call of a draw attempt that passes its tests (43 R193). -/
def drawArm (s : State) : Arm := armOf (addSlots 0 s.ch.toList Timing.init)

theorem drawArm_bitCount (s : State) : (drawArm s).bitCount = longestEnabled s * 8 := by
  simp [drawArm, armOf, addSlots_maxBytes, longestEnabled, Timing.init]

theorem any_wsEnabled_iff (s : State) :
    s.ch.toList.any wsEnabled = true ↔ ∃ c : Fin 8, wsEnabled s.ch[c] = true := by
  rw [List.any_eq_true]
  constructor
  · rintro ⟨sl, hm, hw⟩
    obtain ⟨k, hk, e⟩ := List.mem_iff_getElem.1 hm
    have hk8 : k < 8 := by simpa using hk
    exact ⟨⟨k, hk8⟩, by simpa [← e] using hw⟩
  · rintro ⟨c, hw⟩
    exact ⟨s.ch[c], by simp, hw⟩

theorem latchPermits_iff (s : State) :
    latchPermits s ↔ (latchActive s && s.ch.toList.any wsEnabled) = false := by
  unfold latchPermits latchActive
  rw [Bool.and_eq_false_iff, ← Bool.not_eq_true (s.ch.toList.any wsEnabled), any_wsEnabled_iff]
  constructor
  · rintro (h | h)
    · exact .inl (by simp [h])
    · exact .inr fun ⟨c, hc⟩ => by rw [h c] at hc; exact absurd hc (by simp)
  · rintro (h | h)
    · exact .inl (by simpa using h)
    · exact .inr fun c => by
        by_contra hc
        exact h ⟨c, by simpa using hc⟩

/-- Everything a draw attempt can do (43 R192 to R195). -/
theorem drawAttempt_cases (s : State) :
    ((s.busy = true ∨ ¬ latchPermits s) ∧ drawAttempt s = countError .overdraw s) ∨
    (s.busy = false ∧ latchPermits s ∧
      (longestEnabled s = 0 ∨ s.cfg.maxBitCycles < longestEnabled s * 8) ∧ drawAttempt s = s) ∨
    (s.busy = false ∧ latchPermits s ∧ 0 < longestEnabled s ∧
      longestEnabled s * 8 ≤ s.cfg.maxBitCycles ∧
      drawAttempt s
        = armTransfer (drawArm s) { s with cntDraws := increment s.cfg s.cntDraws, busy := true }) := by
  have hm : (addSlots 0 s.ch.toList Timing.init).maxBytes = longestEnabled s := by
    simp [addSlots_maxBytes, longestEnabled, Timing.init]
  by_cases hb : s.busy = true
  · exact .inl ⟨.inl hb, by simp [drawAttempt, hb]⟩
  · have hb' : s.busy = false := by simpa using hb
    by_cases hl : latchPermits s
    · have hl' := (latchPermits_iff s).1 hl
      have e : drawAttempt s
          = if longestEnabled s = 0 ∨ s.cfg.maxBitCycles < longestEnabled s * 8
            then countError .drawSize s
            else armTransfer (drawArm s) { s with cntDraws := increment s.cfg s.cntDraws, busy := true } := by
        simp only [drawAttempt, hb', scanSlots_eq, hl', Bool.false_eq_true, if_false, hm, drawArm]
      by_cases hz : longestEnabled s = 0 ∨ s.cfg.maxBitCycles < longestEnabled s * 8
      · exact .inr (.inl ⟨hb', hl, hz, by rw [e, if_pos hz]; rfl⟩)
      · exact .inr (.inr ⟨hb', hl, by omega, by omega, by rw [e, if_neg hz]⟩)
    · have hl' : (latchActive s && s.ch.toList.any wsEnabled) = true := by
        by_contra h
        exact hl ((latchPermits_iff s).2 (by simpa using h))
      exact .inl ⟨.inr hl, by simp only [drawAttempt, hb', scanSlots_eq, hl', Bool.false_eq_true,
        if_false, if_true]⟩

/-- The longest enabled slot of a table whose slots are all within `cap`. -/
theorem longestEnabled_le {s : State} {cap : Nat} (h : ∀ c : Fin 8, slotLen s.ch[c] ≤ cap) :
    longestEnabled s ≤ cap := by
  have key : ∀ (l : List Slot) (m : Nat), m ≤ cap → (∀ sl ∈ l, slotLen sl ≤ cap) →
      (l.map slotLen).foldl max m ≤ cap := by
    intro l
    induction l with
    | nil => intro m hm _; simpa using hm
    | cons sl l ih =>
      intro m hm hl
      simp only [List.map_cons, List.foldl_cons]
      exact ih _ (max_le hm (hl sl (by simp))) fun x hx => hl x (by simp [hx])
  refine key _ 0 (by omega) fun sl hm => ?_
  have hm := List.mem_of_mem_filter hm
  obtain ⟨k, hk, e⟩ := List.mem_iff_getElem.1 hm
  have hk8 : k < 8 := by simpa using hk
  have := h ⟨k, hk8⟩
  simpa [← e] using this

end Sys2Proof.Machine
end

