-- ==== Sys2Proof/Laws/SetChannel.lean ====
section
/-! SUPPORT. The pixel loop, the tail fill, the commits and `Finish()` of a set-channel record. -/

namespace Sys2Proof.Machine

/-! ### Pixels -/

/-- A pixel that fits is encoded (41 R140). -/
theorem loadPixel_eq_encodeOp (r : Record) (phys : Byte) (p : Nat) (ein : List Byte) (s : State) :
    loadPixel r phys p ein s
      = encodeOp (p * pixelBytes r) phys (assemblePixel s.cfg r ein s.drawn).1 (pixelBytes r)
          { s with drawn := (assemblePixel s.cfg r ein s.drawn).2 } := rfl

theorem loadPixel_next {r : Record} {p : Nat} {s : State}
    (h : p * pixelBytes r + pixelBytes r ≤ s.cfg.cap) (phys : Byte) (ein : List Byte) :
    ∃ t, loadPixel r phys p ein s = .next t := by
  rw [loadPixel_eq_encodeOp,
    encodeOp_inRange (s := { s with drawn := (assemblePixel s.cfg r ein s.drawn).2 }) h
      (by rw [assemblePixel_length])]
  exact ⟨_, rfl⟩

theorem loadPixel_sameButBuffer {r : Record} {phys : Byte} {p : Nat} {ein : List Byte} {s t : State}
    (h : loadPixel r phys p ein s = .next t) : SameButBuffer s t :=
  SameButBuffer.trans (t := { s with drawn := (assemblePixel s.cfg r ein s.drawn).2 }) rfl
    (encodeOp_sameButBuffer h)

theorem loadPixel_keepsForm {r : Record} {phys : Byte} {p : Nat} {ein : List Byte} {s t : State}
    (h : loadPixel r phys p ein s = .next t) : KeepsForm s.cfg.cap s.bp t.bp :=
  encodeOp_keepsForm (s := { s with drawn := (assemblePixel s.cfg r ein s.drawn).2 }) h

theorem loadPixel_keepsHistory {r : Record} {phys : Byte} {p : Nat} {ein : List Byte} {s t : State}
    (h : loadPixel r phys p ein s = .next t) : KeepsHistory s t :=
  encodeOp_keepsHistory (s := { s with drawn := (assemblePixel s.cfg r ein s.drawn).2 }) h

/-- Every byte of every channel after one pixel. -/
theorem loadPixel_chanByte {r : Record} {phys : Byte} {p : Nat} {ein : List Byte} {s t : State}
    (hwf : s.bp.wf = true) (h : loadPixel r phys p ein s = .next t) (c i : Nat) :
    chanByte t.bp c i =
      if phys.toNat < 8 ∧ c = phys.toNat ∧ p * pixelBytes r ≤ i ∧
          i < p * pixelBytes r + pixelBytes r then
        (assemblePixel s.cfg r ein s.drawn).1.getD (i - p * pixelBytes r) 0
      else chanByte s.bp c i :=
  encodeOp_chanByte (s := { s with drawn := (assemblePixel s.cfg r ein s.drawn).2 }) hwf h c i

theorem loadPixels_sameButBuffer {r : Record} {phys : Byte} {count p : Nat} {data : List Byte}
    {s t : State} (h : loadPixels r phys count p data s = .next t) : SameButBuffer s t := by
  induction count generalizing p data s with
  | zero => simp only [loadPixels, Host.Outcome.next.injEq] at h; rw [h]; rfl
  | succ n ih =>
    obtain ⟨u, hu, ht⟩ := andThen_eq_next.1 h
    exact (loadPixel_sameButBuffer hu).trans (ih ht)

theorem loadPixels_keepsForm {r : Record} {phys : Byte} {count p : Nat} {data : List Byte}
    {s t : State} (h : loadPixels r phys count p data s = .next t) :
    KeepsForm s.cfg.cap s.bp t.bp := by
  induction count generalizing p data s with
  | zero => simp only [loadPixels, Host.Outcome.next.injEq] at h; rw [h]; exact KeepsForm.refl _ _
  | succ n ih =>
    obtain ⟨u, hu, ht⟩ := andThen_eq_next.1 h
    have h2 := ih ht
    rw [(loadPixel_sameButBuffer hu).cfg] at h2
    exact (loadPixel_keepsForm hu).trans h2

theorem loadPixels_keepsHistory {r : Record} {phys : Byte} {count p : Nat} {data : List Byte}
    {s t : State} (h : loadPixels r phys count p data s = .next t) : KeepsHistory s t := by
  induction count generalizing p data s with
  | zero => simp only [loadPixels, Host.Outcome.next.injEq] at h; rw [h]; exact .same rfl rfl
  | succ n ih =>
    obtain ⟨u, hu, ht⟩ := andThen_eq_next.1 h
    exact (loadPixel_keepsHistory hu).trans (loadPixel_sameButBuffer hu).busy (ih ht)

/-- Pixels that fit are all encoded (40 R113). -/
theorem loadPixels_next {r : Record} {count p : Nat} {s : State}
    (h : (p + count) * pixelBytes r ≤ s.cfg.cap) (phys : Byte) (data : List Byte) :
    ∃ t, loadPixels r phys count p data s = .next t := by
  induction count generalizing p data s with
  | zero => exact ⟨s, rfl⟩
  | succ n ih =>
    have h1 : p * pixelBytes r + pixelBytes r ≤ s.cfg.cap := by
      have : (p + 1) * pixelBytes r ≤ (p + (n + 1)) * pixelBytes r :=
        Nat.mul_le_mul_right _ (by omega)
      rw [Nat.add_mul, Nat.one_mul] at this
      omega
    obtain ⟨u, hu⟩ := loadPixel_next h1 phys (data.take (wireElems r))
    have h2 : (p + 1 + n) * pixelBytes r ≤ u.cfg.cap := by
      rw [(loadPixel_sameButBuffer hu).cfg, show p + 1 + n = p + (n + 1) by omega]
      exact h
    obtain ⟨t, ht⟩ := ih h2 (data.drop (wireElems r))
    exact ⟨t, andThen_eq_next.2 ⟨u, hu, ht⟩⟩

/-- Bytes outside the pixels, and every byte of another channel, are as before. -/
theorem loadPixels_chanByte_outside {r : Record} {phys : Byte} {count p : Nat} {data : List Byte}
    {s t : State} (hwf : s.bp.wf = true) (h : loadPixels r phys count p data s = .next t)
    {c i : Nat}
    (hi : 8 ≤ phys.toNat ∨ c ≠ phys.toNat ∨ i < p * pixelBytes r ∨ (p + count) * pixelBytes r ≤ i) :
    chanByte t.bp c i = chanByte s.bp c i := by
  induction count generalizing p data s with
  | zero => simp only [loadPixels, Host.Outcome.next.injEq] at h; rw [h]
  | succ n ih =>
    obtain ⟨u, hu, ht⟩ := andThen_eq_next.1 h
    have e1 : (p + 1) * pixelBytes r = p * pixelBytes r + pixelBytes r := by
      rw [Nat.add_mul, Nat.one_mul]
    have e2 : (p + 1 + n) * pixelBytes r = (p + (n + 1)) * pixelBytes r := by
      rw [show p + 1 + n = p + (n + 1) by omega]
    have e3 : (p + 1) * pixelBytes r ≤ (p + (n + 1)) * pixelBytes r :=
      Nat.mul_le_mul_right _ (by omega)
    rw [ih ((loadPixel_keepsForm hu).1 hwf) ht (by omega), loadPixel_chanByte hwf hu, if_neg]
    omega

/-- Byte `k` of pixel `q` of the run: what assembly makes of that pixel's wire elements, at some
draw of the free values. -/
theorem loadPixels_chanByte_inside {r : Record} {phys : Byte} {count p : Nat} {data : List Byte}
    {s t : State} (hwf : s.bp.wf = true) (h : loadPixels r phys count p data s = .next t)
    (hphys : phys.toNat < 8) {q k : Nat} (hq : q < count) (hk : k < pixelBytes r) :
    ∃ d, chanByte t.bp phys.toNat ((p + q) * pixelBytes r + k)
      = (assemblePixel s.cfg r ((data.drop (q * wireElems r)).take (wireElems r)) d).1.getD k 0 := by
  induction count generalizing p q data s with
  | zero => omega
  | succ n ih =>
    obtain ⟨u, hu, ht⟩ := andThen_eq_next.1 h
    have hwu := (loadPixel_keepsForm hu).1 hwf
    cases q with
    | zero =>
      refine ⟨s.drawn, ?_⟩
      have e1 : (p + 1) * pixelBytes r = p * pixelBytes r + pixelBytes r := by
        rw [Nat.add_mul, Nat.one_mul]
      rw [loadPixels_chanByte_outside hwu ht (by simp only [Nat.add_zero]; omega),
        loadPixel_chanByte hwf hu, if_pos ⟨hphys, rfl, by simp, by simp; omega⟩]
      simp
    | succ q =>
      obtain ⟨d, hd⟩ := ih hwu ht (q := q) (by omega)
      refine ⟨d, ?_⟩
      rw [show p + (q + 1) = p + 1 + q by omega, hd, (loadPixel_sameButBuffer hu).cfg,
        List.drop_drop, show wireElems r + q * wireElems r = (q + 1) * wireElems r by
          rw [Nat.add_mul, Nat.one_mul, Nat.add_comm]]

/-! ### Tail fill and commits -/

/-- Everything the tail fill can do (41 R147). -/
theorem tailFill_next {r : Record} {s : State} (h : newLen r ≤ s.cfg.cap) (c : Byte) :
    ∃ t, tailFill r c s = .next t := by
  have hf : ∀ v, ∃ t, fillOp v (newLen r) c (s.cfg.cap - newLen r) s = .next t := fun v => by
    rw [fillOp_inRange (by omega)]; exact ⟨_, rfl⟩
  unfold tailFill
  split
  · split
    · exact hf _
    · exact hf _
    · exact ⟨s, rfl⟩
  · exact hf _
  · exact hf _

/-- A tail fill is a fill of the blocks from `newLen` to CAP, or, for APA102 data under the mode
`none`, nothing. -/
theorem tailFill_cases {r : Record} {c : Byte} {s t : State} (h : tailFill r c s = .next t) :
    (t = s ∧ s.cfg.tailFill = .none ∧ (slotOf r).tag = .apaData) ∨
    ∃ v, fillOp v (newLen r) c (s.cfg.cap - newLen r) s = .next t ∧
      (v = true ↔ (s.cfg.tailFill = .one ∧ (slotOf r).tag = .apaData)) ∧
      ((slotOf r).tag = .apaData → s.cfg.tailFill ≠ .none) := by
  unfold tailFill at h
  split at h
  · split at h <;> rename_i heq
    · exact .inr ⟨false, h, by simp [heq], by simp [heq]⟩
    · exact .inr ⟨true, h, by simp [heq, slotOf], by simp [heq]⟩
    · exact .inl ⟨by simpa using h.symm, heq, rfl⟩
  · exact .inr ⟨false, h, by simp [slotOf], by simp [slotOf]⟩
  · exact .inr ⟨false, h, by simp [slotOf], by simp [slotOf]⟩

theorem tailFill_sameButBuffer {r : Record} {c : Byte} {s t : State}
    (h : tailFill r c s = .next t) : SameButBuffer s t := by
  rcases tailFill_cases h with ⟨rfl, -⟩ | ⟨v, hv, -⟩
  · rfl
  · exact fillOp_sameButBuffer hv

theorem tailFill_keepsForm {r : Record} {c : Byte} {s t : State}
    (h : tailFill r c s = .next t) : KeepsForm s.cfg.cap s.bp t.bp := by
  rcases tailFill_cases h with ⟨rfl, -⟩ | ⟨v, hv, -⟩
  · exact KeepsForm.refl _ _
  · exact fillOp_keepsForm hv

theorem tailFill_keepsHistory {r : Record} {c : Byte} {s t : State}
    (h : tailFill r c s = .next t) : KeepsHistory s t := by
  rcases tailFill_cases h with ⟨rfl, -⟩ | ⟨v, hv, -⟩
  · exact .same rfl rfl
  · exact fillOp_keepsHistory hv

/-- The length of the slot a record builds (42 R161, R165, R169). -/
@[simp] theorem slotLen_slotOf (r : Record) : slotLen (slotOf r) = newLen r := by
  cases r <;> simp [slotLen, slotOf, newLen, pixelCount, pixelBytes]

theorem ofNat_fin_toNat (c : Fin 8) : (BitVec.ofNat 8 c.val).toNat = c.val := by
  rw [BitVec.toNat_ofNat, Nat.mod_eq_of_lt (by omega)]

/-- Everything `CommitMatch()` can do on a record that fits (41 R144). -/
theorem commitMatch_next {r : Record} {s : State} (h : newLen r ≤ s.cfg.cap) (c : Fin 8) :
    ∃ t, commitMatch c r s = .next t := by
  unfold commitMatch
  simp only
  split
  · exact ⟨_, rfl⟩
  · exact tailFill_next (s := { s with ch := s.ch.set c.val (slotOf r) c.isLt }) h _

theorem commitMatch_cases {r : Record} {c : Fin 8} {s t : State}
    (h : commitMatch c r s = .next t) :
    (skipsTailFill s.ch[c] r = true ∧ t = { s with ch := s.ch.set c.val (slotOf r) c.isLt }) ∨
    (skipsTailFill s.ch[c] r = false ∧
      tailFill r (BitVec.ofNat 8 c.val)
        { s with ch := s.ch.set c.val (slotOf r) c.isLt } = .next t) := by
  unfold commitMatch at h
  simp only at h
  split at h
  · rename_i hs
    exact .inl ⟨hs, by simpa using h.symm⟩
  · rename_i hs
    exact .inr ⟨by simpa using hs, h⟩

/-- `CommitMismatch()` answers, with the slot zeroed and the whole channel filled (41 R145). -/
theorem commitMismatch_eq (c : Fin 8) (s : State) :
    commitMismatch c s = .next (setBp (fillLanes s.bp c.val 0 false (8 * s.cfg.cap))
      { s with ch := s.ch.set c.val zeroSlot c.isLt }) := by
  unfold commitMismatch
  rw [fillOp_inRange (by simp)]
  have : ¬ 8 ≤ (BitVec.ofNat 8 c.val).toNat := by rw [ofNat_fin_toNat]; omega
  rw [if_neg this, ofNat_fin_toNat]

/-! ### `Finish()` -/

/-- `Finish()` of an unaddressed record: the CRC counter, and nothing else (41 R146). -/
theorem finishSet_unaddressed (r : Record) (phys : Byte) (crcOk : Bool) (s : State) :
    finishSet r false phys crcOk s = .next (if crcOk then s else countError .crc s) := by
  simp [finishSet]

/-- `Finish()` of an addressed record on channel `c` (41 R143 to R145). -/
theorem finishSet_addressed (r : Record) {phys : Byte} (c : Fin 8) (hc : phys.toNat = c.val)
    (crcOk : Bool) (s : State) :
    finishSet r true phys crcOk s
      = if crcOk then commitMatch c r s else commitMismatch c (countError .crc s) := by
  have h : phys.toNat < 8 := by omega
  have e : (⟨phys.toNat, h⟩ : Fin 8) = c := Fin.ext hc
  simp only [finishSet, if_true, h, dif_pos, e]
  cases crcOk <;> simp

end Sys2Proof.Machine
end

