-- ==== Sys2Proof/Laws/Decoder.lean ====
section
/-! SUPPORT. The decoder's steps: what one step is on the byte it reads, how steps compose, and what
the parts of an invocation do not look at. -/

namespace Sys2Proof.Machine

/-! ### Composition -/

theorem decoderSteps_add (a b : Nat) (s : State) :
    decoderSteps (a + b) s = andThen (decoderSteps a s) (decoderSteps b) := by
  induction a generalizing s with
  | zero => simp [decoderSteps]
  | succ n ih =>
    rw [Nat.succ_add, decoderSteps, decoderSteps, andThen_assoc]
    congr 1
    funext t
    exact ih t

theorem decoderSteps_one (s : State) : decoderSteps 1 s = decoderStep s := by
  simp only [decoderSteps]
  cases decoderStep s <;> rfl

/-! ### What an invocation's working state is -/

/-- `s` with the decoder's own working state: state, latches, queue and accumulator. -/
def working (d : DState) (lat : Latches) (q a : List Byte) (s : State) : State :=
  { s with dstate := d, lat := lat, queue := q, crcAcc := a }

@[simp] theorem working_working (d d' : DState) (l l' : Latches) (q q' a a' : List Byte) (s : State) :
    working d l q a (working d' l' q' a' s) = working d l q a s := rfl

@[simp] theorem working_cfg (d : DState) (l : Latches) (q a : List Byte) (s : State) :
    (working d l q a s).cfg = s.cfg := rfl
@[simp] theorem working_dstate (d : DState) (l : Latches) (q a : List Byte) (s : State) :
    (working d l q a s).dstate = d := rfl
@[simp] theorem working_lat (d : DState) (l : Latches) (q a : List Byte) (s : State) :
    (working d l q a s).lat = l := rfl
@[simp] theorem working_queue (d : DState) (l : Latches) (q a : List Byte) (s : State) :
    (working d l q a s).queue = q := rfl
@[simp] theorem working_crcAcc (d : DState) (l : Latches) (q a : List Byte) (s : State) :
    (working d l q a s).crcAcc = a := rfl

/-- A state is itself with its own working state. -/
theorem working_self (s : State) : working s.dstate s.lat s.queue s.crcAcc s = s := rfl

/-- `f` neither reads nor writes the decoder's working state. -/
def BlindToWorking (f : State → Outcome) : Prop :=
  ∀ d l q a s, f (working d l q a s) = andThen (f s) fun u => .next (working d l q a u)

theorem encodeOp_blind (off : Nat) (c : Byte) (bytes : List Byte) (n : Nat) :
    BlindToWorking (encodeOp off c bytes n) := by
  intro d l q a s
  simp only [encodeOp, working_cfg]
  by_cases h1 : s.cfg.cap < off + n
  · simp only [h1, if_true, andThen]
  · by_cases h2 : bytes.length < n
    · simp only [h1, h2, if_true, if_false, andThen]
    · by_cases h3 : 8 ≤ c.toNat
      · simp only [h1, h2, h3, if_true, if_false, andThen]
      · simp only [h1, h2, h3, if_false]
        rfl

theorem fillOp_blind (v : Bool) (off : Nat) (c : Byte) (n : Nat) :
    BlindToWorking (fillOp v off c n) := by
  intro d l q a s
  simp only [fillOp, working_cfg]
  by_cases h1 : s.cfg.cap < off + n
  · simp only [h1, if_true, andThen]
  · by_cases h3 : 8 ≤ c.toNat
    · simp only [h1, h3, if_true, if_false, andThen]
    · simp only [h1, h3, if_false]
      rfl

theorem loadPixel_blind (r : Record) (phys : Byte) (p : Nat) (ein : List Byte) :
    BlindToWorking (loadPixel r phys p ein) := by
  intro d l q a s
  exact encodeOp_blind _ _ _ _ d l q a { s with drawn := (assemblePixel s.cfg r ein s.drawn).2 }

theorem loadPixels_blind (r : Record) (phys : Byte) (count p : Nat) (data : List Byte) :
    BlindToWorking (loadPixels r phys count p data) := by
  induction count generalizing p data with
  | zero => intro d l q a s; rfl
  | succ n ih =>
    intro d l q a s
    simp only [loadPixels]
    rw [loadPixel_blind, andThen_assoc, andThen_assoc]
    congr 1
    funext u
    exact ih _ _ d l q a u

theorem tailFill_blind (r : Record) (c : Byte) : BlindToWorking (tailFill r c) := by
  intro d l q a s
  unfold tailFill
  simp only [working_cfg]
  split
  · split
    · exact fillOp_blind _ _ _ _ d l q a s
    · exact fillOp_blind _ _ _ _ d l q a s
    · rfl
  · exact fillOp_blind _ _ _ _ d l q a s
  · exact fillOp_blind _ _ _ _ d l q a s

theorem commitMatch_blind (c : Fin 8) (r : Record) : BlindToWorking (commitMatch c r) := by
  intro d l q a s
  unfold commitMatch
  simp only
  by_cases h : skipsTailFill s.ch[c] r = true
  · rw [if_pos h, if_pos (show skipsTailFill (working d l q a s).ch[c] r = true from h)]
    rfl
  · rw [if_neg h, if_neg (show ¬ skipsTailFill (working d l q a s).ch[c] r = true from h)]
    exact tailFill_blind r _ d l q a { s with ch := s.ch.set c.val (slotOf r) c.isLt }

theorem commitMismatch_blind (c : Fin 8) : BlindToWorking (commitMismatch c) := by
  intro d l q a s
  exact fillOp_blind _ _ _ _ d l q a { s with ch := s.ch.set c.val zeroSlot c.isLt }

theorem finishSet_blind (r : Record) (addressed : Bool) (phys : Byte) (crcOk : Bool) :
    BlindToWorking (finishSet r addressed phys crcOk) := by
  intro d l q a s
  unfold finishSet
  cases crcOk <;> cases addressed <;> by_cases h : phys.toNat < 8 <;>
    simp only [h, dif_pos, dif_neg, not_false_iff, if_true, if_false, Bool.false_eq_true]
  · rfl
  · rfl
  · exact commitMismatch_blind _ d l q a (countError .crc s)
  · rfl
  · rfl
  · rfl
  · exact commitMatch_blind _ r d l q a s
  · rfl

theorem drawAttempt_working (d : DState) (l : Latches) (q a : List Byte) (s : State) :
    drawAttempt (working d l q a s) = working d l q a (drawAttempt s) := by
  unfold drawAttempt
  by_cases hb : s.busy = true
  · rw [if_pos hb, if_pos (show (working d l q a s).busy = true from hb)]
    rfl
  · rw [if_neg hb, if_neg (show ¬ (working d l q a s).busy = true from hb)]
    show (match scanSlots (latchActive s) 0 s.ch.toList Timing.init with
      | none => _
      | some t => _) = _
    cases scanSlots (latchActive s) 0 s.ch.toList Timing.init with
    | none => rfl
    | some t =>
      by_cases h : t.maxBytes = 0 ∨ s.cfg.maxBitCycles < t.maxBytes * 8
      · exact (if_pos h).trans (congrArg (working d l q a) (if_pos h)).symm
      · exact (if_neg h).trans
          (Eq.trans (b := working d l q a (armTransfer (armOf t)
            { s with cntDraws := increment s.cfg s.cntDraws, busy := true })) rfl
            (congrArg (working d l q a) (if_neg h)).symm)

theorem finishDraw_working (crcOk : Bool) (d : DState) (l : Latches) (q a : List Byte) (s : State) :
    finishDraw crcOk (working d l q a s) = working d l q a (finishDraw crcOk s) := by
  cases crcOk
  · rfl
  · exact drawAttempt_working d l q a s

/-- After the return to S_IDLE the decoder's own state and latches do not show. -/
theorem endInvocation_working (d d' : DState) (l l' : Latches) (q a : List Byte) (s : State) :
    endInvocation (working d l q a s) = endInvocation (working d' l' q a s) := rfl

/-! ### One step on the byte it reads -/

theorem decoderStep_magic (i : Fin 4) (l : Latches) (b : Byte) (q a : List Byte) (s : State) :
    decoderStep (working (.magic i) l (b :: q) a s)
      = stepMagic i b (working (.magic i) l q (a ++ [b]) s) := rfl

theorem decoderStep_hdr (j : Fin 2) (l : Latches) (b : Byte) (q a : List Byte) (s : State) :
    decoderStep (working (.hdr j) l (b :: q) a s)
      = stepHdr j b (working (.hdr j) l q (a ++ [b]) s) := rfl

theorem decoderStep_param (j : Fin 7) (l : Latches) (b : Byte) (q a : List Byte) (s : State) :
    decoderStep (working (.param j) l (b :: q) a s)
      = stepParam j b (working (.param j) l q (a ++ [b]) s) := rfl

theorem decoderStep_pix (l : Latches) (b : Byte) (q a : List Byte) (s : State) :
    decoderStep (working .pix l (b :: q) a s) = stepPix b (working .pix l q (a ++ [b]) s) := rfl

theorem decoderStep_crc (k : Fin 4) (l : Latches) (b : Byte) (q a : List Byte) (s : State) :
    decoderStep (working (.crc k) l (b :: q) a s)
      = stepCrc k b (working (.crc k) l q (a ++ [b]) s) := rfl

/-- With no byte in the queue the decoder holds inside a frame (41 R149). -/
theorem decoderStep_holds {s : State} (hd : s.dstate ≠ .idle) (hq : s.queue = []) :
    decoderStep s = .next s := by
  unfold decoderStep
  cases h : s.dstate <;> simp_all [withByte, readByte]

end Sys2Proof.Machine
end

