-- ==== Sys2Proof/Laws/Invocation.lean ====
section
/-! SUPPORT. One invocation stage by stage: what the decoder's steps come to over the magic, the
header, a parameter block, the pixels and the trailer (spec 41_frame_decoder R131 to R143). -/

namespace Sys2Proof.Machine

theorem decoderSteps_succ (n : Nat) (s : State) :
    decoderSteps (n + 1) s = andThen (decoderStep s) (decoderSteps n) := rfl

/-! ### Trigger, magic, header -/

/-- The trigger step (41 R131). -/
theorem steps_trigger {s : State} (h : s.dstate = .idle) (ht : s.cfg.triggerMin ≤ s.queue.length)
    (n : Nat) :
    decoderSteps (n + 1) s = decoderSteps n (working (.magic 0) s.lat s.queue [] s) := by
  have e : decoderStep s = .next (working (.magic 0) s.lat s.queue [] s) := by
    unfold decoderStep
    rw [h]
    exact congrArg Host.Outcome.next (if_pos ht)
  rw [decoderSteps_succ, e, andThen_next]

/-- The four magic bytes (41 R132). -/
theorem steps_magic (l : Latches) (q : List Byte) (s : State) :
    decoderSteps 4 (working (.magic 0) l (magic ++ q) [] s) = .next (working (.hdr 0) l q magic s) :=
  rfl

theorem stepMagic_miss {i : Fin 4} {b : Byte} (hb : b ≠ magicByte i) (s : State) :
    stepMagic i b s = .next (raiseError .magic s) := if_neg hb

/-- A magic miss (41 R133). -/
theorem steps_miss (i : Fin 4) (b : Byte) (hb : b ≠ magicByte i) (l : Latches) (q : List Byte)
    (s : State) :
    decoderSteps (i.val + 1) (working (.magic 0) l (magic.take i.val ++ b :: q) [] s)
      = .next (raiseError .magic (working .idle l q (magic.take i.val ++ [b]) s)) := by
  match i, hb with
  | 0, hb =>
    exact congrArg (fun o => andThen o (decoderSteps 0))
      (stepMagic_miss hb (working (.magic 0) l q [b] s))
  | 1, hb =>
    exact congrArg (fun o => andThen o (decoderSteps 0))
      (stepMagic_miss hb (working (.magic 1) l q [0x55, b] s))
  | 2, hb =>
    exact congrArg (fun o => andThen o (decoderSteps 0))
      (stepMagic_miss hb (working (.magic 2) l q [0x55, 0x50, b] s))
  | 3, hb =>
    exact congrArg (fun o => andThen o (decoderSteps 0))
      (stepMagic_miss hb (working (.magic 3) l q [0x55, 0x50, 0x58, b] s))

/-- Channel byte and record type (41 R134, R135). -/
theorem steps_header (ch t : Byte) (l : Latches) (q a : List Byte) (s : State) :
    decoderSteps 2 (working (.hdr 0) l (ch :: t :: q) a s)
      = .next (dispatchRecord (working (.hdr 1)
          { l with
            hChannel := ch
            hType := t
            addressed := isAddressed s.cfg ch
            phys := physOf s.cfg ch } q (a ++ [ch] ++ [t]) s)) := rfl

theorem recordType_isSet (r : Record) : recordType r ≠ typeDrawAll ∧ parLen (recordType r) ≠ 0 := by
  cases r <;> exact ⟨by simp only [recordType]; decide, by simp only [recordType]; decide⟩

theorem dispatchRecord_set {l : Latches} {q a : List Byte} {s : State} {r : Record} {d : DState}
    (h : l.hType = recordType r) :
    dispatchRecord (working d l q a s) = working (.param 0) l q a s := by
  unfold dispatchRecord
  have h' : (working d l q a s).lat.hType = recordType r := h
  rw [h', if_neg (recordType_isSet r).1, if_neg (recordType_isSet r).2]
  rfl

theorem dispatchRecord_draw {l : Latches} {q a : List Byte} {s : State} {d : DState}
    (h : l.hType = typeDrawAll) :
    dispatchRecord (working d l q a s) = working (.crc 0) { l with crcLocal := crc32 a } q a s := by
  unfold dispatchRecord
  have h' : (working d l q a s).lat.hType = typeDrawAll := h
  rw [h', if_pos rfl]
  rfl

/-! ### The parameter block -/

theorem stepParam_more {j : Fin 7} {l : Latches} {b : Byte} {d : DState} {q a : List Byte} {s : State}
    (h : j.val + 1 < parLen l.hType) :
    stepParam j b (working d l q a s)
      = .next (working (.param (j + 1)) { l with par := l.par.set j.val b j.isLt } q a s) := by
  unfold stepParam
  rw [if_pos (show j.val + 1 < parLen (working d l q a s).lat.hType from h)]
  rfl

theorem stepParam_last {j : Fin 7} {l : Latches} {b : Byte} {d : DState} {q a : List Byte} {s : State}
    (h : j.val + 1 = parLen l.hType) :
    stepParam j b (working d l q a s)
      = paramsDone (working d { l with par := l.par.set j.val b j.isLt } q a s) := by
  unfold stepParam
  rw [if_neg (show ¬ j.val + 1 < parLen (working d l q a s).lat.hType by simp; omega),
    if_pos (show j.val + 1 = parLen (working d l q a s).lat.hType from h)]
  rfl

/-- The parameter bytes of a record are read into the fields of that record (41 R138). -/
theorem steps_params (r : Record) (l : Latches) (q a : List Byte) (s : State)
    (h : l.hType = recordType r) :
    ∃ l' d, l'.hType = l.hType ∧ l'.addressed = l.addressed ∧ l'.phys = l.phys ∧
      recordOf l'.hType l'.par = some r ∧
      decoderSteps (paramBytes r).length (working (.param 0) l (paramBytes r ++ q) a s)
        = paramsDone (working d l' q (a ++ paramBytes r) s) := by
  cases r with
  | ws n o px =>
    have h1 : l.hType = 1 := h
    refine ⟨{ l with
      par := (((l.par.set 0 n).set 1 o).set 2 (px.extractLsb' 0 8)).set 3 (px.extractLsb' 8 8) },
      .param 3, rfl, rfl, rfl, ?_, ?_⟩
    · simp only [h1, recordOf]
      rw [if_pos trivial]
      simp
      exact le16_of_bytes px
    · show decoderSteps 4 (working _ _
        (n :: o :: px.extractLsb' 0 8 :: px.extractLsb' 8 8 :: q) _ _) = _
      rw [decoderSteps_succ, decoderStep_param, stepParam_more (by rw [h1]; decide), andThen_next,
        decoderSteps_succ, decoderStep_param, stepParam_more (by rw [h1]; decide), andThen_next,
        decoderSteps_succ, decoderStep_param, stepParam_more (by rw [h1]; decide), andThen_next,
        decoderSteps_one, decoderStep_param, stepParam_last (by rw [h1]; decide)]
      simp only [List.append_assoc]
      rfl
  | apaData f o px =>
    have h1 : l.hType = 3 := h
    refine ⟨{ l with
      par := ((((((l.par.set 0 (f.extractLsb' 0 8)).set 1 (f.extractLsb' 8 8)).set 2
        (f.extractLsb' 16 8)).set 3 (f.extractLsb' 24 8)).set 4 o).set 5 (px.extractLsb' 0 8)).set 6
        (px.extractLsb' 8 8) }, .param 6, rfl, rfl, rfl, ?_, ?_⟩
    · simp only [h1, recordOf]
      rw [if_neg (by decide), if_pos trivial]
      simp
      exact ⟨le32_of_bytes f, le16_of_bytes px⟩
    · show decoderSteps 7 (working _ _ (f.extractLsb' 0 8 :: f.extractLsb' 8 8 ::
        f.extractLsb' 16 8 :: f.extractLsb' 24 8 :: o :: px.extractLsb' 0 8 ::
        px.extractLsb' 8 8 :: q) _ _) = _
      rw [decoderSteps_succ, decoderStep_param, stepParam_more (by rw [h1]; decide), andThen_next,
        decoderSteps_succ, decoderStep_param, stepParam_more (by rw [h1]; decide), andThen_next,
        decoderSteps_succ, decoderStep_param, stepParam_more (by rw [h1]; decide), andThen_next,
        decoderSteps_succ, decoderStep_param, stepParam_more (by rw [h1]; decide), andThen_next,
        decoderSteps_succ, decoderStep_param, stepParam_more (by rw [h1]; decide), andThen_next,
        decoderSteps_succ, decoderStep_param, stepParam_more (by rw [h1]; decide), andThen_next,
        decoderSteps_one, decoderStep_param, stepParam_last (by rw [h1]; decide)]
      simp only [List.append_assoc]
      rfl
  | apaClk f =>
    have h1 : l.hType = 4 := h
    refine ⟨{ l with
      par := (((l.par.set 0 (f.extractLsb' 0 8)).set 1 (f.extractLsb' 8 8)).set 2
        (f.extractLsb' 16 8)).set 3 (f.extractLsb' 24 8) }, .param 3, rfl, rfl, rfl, ?_, ?_⟩
    · simp only [h1, recordOf]
      rw [if_neg (by decide), if_neg (by decide), if_pos trivial]
      simp
      exact le32_of_bytes f
    · show decoderSteps 4 (working _ _ (f.extractLsb' 0 8 :: f.extractLsb' 8 8 ::
        f.extractLsb' 16 8 :: f.extractLsb' 24 8 :: q) _ _) = _
      rw [decoderSteps_succ, decoderStep_param, stepParam_more (by rw [h1]; decide), andThen_next,
        decoderSteps_succ, decoderStep_param, stepParam_more (by rw [h1]; decide), andThen_next,
        decoderSteps_succ, decoderStep_param, stepParam_more (by rw [h1]; decide), andThen_next,
        decoderSteps_one, decoderStep_param, stepParam_last (by rw [h1]; decide)]
      simp only [List.append_assoc]
      rfl

/-- A record the precheck refuses (41 R139). -/
theorem paramsDone_refused {d : DState} {l : Latches} {q a : List Byte} {s : State} {r : Record}
    (h : recordOf l.hType l.par = some r) (hp : precheck s.cfg r = false) :
    paramsDone (working d l q a s) = .next (raiseError .record (working d l q a s)) := by
  unfold paramsDone
  have h' : recordOf (working d l q a s).lat.hType (working d l q a s).lat.par = some r := h
  have hp' : ¬ precheck (working d l q a s).cfg r = true := by simp [hp]
  rw [h']
  exact if_neg hp'

/-- A record with no pixels: its trailer comes next (41 R138, R141). -/
theorem paramsDone_empty {d : DState} {l : Latches} {q a : List Byte} {s : State} {r : Record}
    (h : recordOf l.hType l.par = some r) (hp : precheck s.cfg r = true)
    (hz : wireByteCount r = 0) :
    paramsDone (working d l q a s)
      = .next (working (.crc 0) { l with crcLocal := crc32 a } q a s) := by
  unfold paramsDone
  have h' : recordOf (working d l q a s).lat.hType (working d l q a s).lat.par = some r := h
  have hp' : precheck (working d l q a s).cfg r = true := hp
  rw [h']
  simp only
  rw [if_pos hp', if_pos hz]
  rfl

/-- A record with pixels: they come next (41 R138). -/
theorem paramsDone_pixels {d : DState} {l : Latches} {q a : List Byte} {s : State} {r : Record}
    (h : recordOf l.hType l.par = some r) (hp : precheck s.cfg r = true)
    (hz : wireByteCount r ≠ 0) :
    paramsDone (working d l q a s)
      = .next (working .pix { l with pIdx := 0, eIdx := 0 } q a s) := by
  unfold paramsDone
  have h' : recordOf (working d l q a s).lat.hType (working d l q a s).lat.par = some r := h
  have hp' : precheck (working d l q a s).cfg r = true := hp
  rw [h']
  simp only
  rw [if_pos hp', if_neg hz]
  rfl

/-! ### Pixels -/

theorem stepPix_more {l : Latches} {b : Byte} {d : DState} {q a : List Byte} {s : State} {r : Record}
    (h : recordOf l.hType l.par = some r) (hl : l.eIdx.toNat + 1 < wireElems r) :
    stepPix b (working d l q a s)
      = .next (working d
          { l with ein := l.ein.set l.eIdx.toNat b, eIdx := l.eIdx + 1 } q a s) := by
  unfold stepPix
  have h' : recordOf (working d l q a s).lat.hType (working d l q a s).lat.par = some r := h
  rw [h']
  simp only
  rw [if_pos (by simpa using hl)]
  rfl

theorem stepPix_last {l : Latches} {b : Byte} {d : DState} {q a : List Byte} {s : State} {r : Record}
    (h : recordOf l.hType l.par = some r) (hl : ¬ l.eIdx.toNat + 1 < wireElems r) :
    stepPix b (working d l q a s)
      = andThen (loadPixel r l.phys l.pIdx.toNat
            ((l.ein.set l.eIdx.toNat b).toList.take (wireElems r)) s)
          fun u => .next (nextPixel r (working d { l with ein := l.ein.set l.eIdx.toNat b } q a u)) := by
  unfold stepPix
  have h' : recordOf (working d l q a s).lat.hType (working d l q a s).lat.par = some r := h
  rw [h']
  simp only
  rw [if_neg (by simpa using hl)]
  have := loadPixel_blind r l.phys l.pIdx.toNat
    ((l.ein.set l.eIdx.toNat b).toList.take (wireElems r)) d
    { l with ein := l.ein.set l.eIdx.toNat b } q a s
  refine Eq.trans (congrArg (fun o => andThen o _) this) ?_
  rw [andThen_assoc]
  rfl

theorem take_set_succ (v : Vector Byte 4) (j : Nat) (hj : j < 4) (b : Byte) :
    (v.set j b).toList.take (j + 1) = v.toList.take j ++ [b] := by
  have : (v.set j b).toList = v.toList.set j b := Vector.toList_set ..
  rw [this, List.take_add_one, List.take_set_of_le (by omega)]
  simp [hj]

/-- The wire elements of one pixel (41 R140). -/
theorem steps_pixel (r : Record) (hw : wireElems r ≤ 4) (xs : List Byte) (l : Latches)
    (q a : List Byte) (s : State) (h : recordOf l.hType l.par = some r)
    (hj : l.eIdx.toNat + xs.length = wireElems r) (hx : xs ≠ []) :
    ∃ l', l'.hType = l.hType ∧ l'.par = l.par ∧ l'.addressed = l.addressed ∧ l'.phys = l.phys ∧
      l'.pIdx = l.pIdx ∧
      decoderSteps xs.length (working .pix l (xs ++ q) a s)
        = andThen
            (loadPixel r l.phys l.pIdx.toNat (l.ein.toList.take l.eIdx.toNat ++ xs) s)
            fun u => .next (nextPixel r (working .pix l' q (a ++ xs) u)) := by
  induction xs generalizing l a with
  | nil => exact absurd rfl hx
  | cons b xs ih =>
    rw [List.length_cons, decoderSteps_succ]
    show ∃ l', _ ∧ _ ∧ _ ∧ _ ∧ _ ∧
      andThen (decoderStep (working .pix l (b :: (xs ++ q)) a s)) _ = _
    have he := l.eIdx.isLt
    simp only [List.length_cons] at hj
    cases xs with
    | nil =>
      refine ⟨{ l with ein := l.ein.set l.eIdx.toNat b }, rfl, rfl, rfl, rfl, rfl, ?_⟩
      rw [decoderStep_pix, stepPix_last h (by rw [← hj]; simp), ← hj, List.length_nil, Nat.zero_add,
        take_set_succ _ _ he]
      simp only [decoderSteps]
      rw [andThen_assoc]
      rfl
    | cons c xs =>
      simp only [List.length_cons] at hj
      have e1 : (l.eIdx + 1).toNat = l.eIdx.toNat + 1 := by
        rw [BitVec.toNat_add, Nat.mod_eq_of_lt]
        · rfl
        · have : (1 : BitVec 2).toNat = 1 := rfl
          omega
      obtain ⟨l', h1, h2, h3, h4, h5, h6⟩ :=
        ih { l with ein := l.ein.set l.eIdx.toNat b, eIdx := l.eIdx + 1 } (a ++ [b]) h
          (by simp only [e1, List.length_cons]; omega) (by simp)
      refine ⟨l', h1, h2, h3, h4, h5, ?_⟩
      rw [decoderStep_pix, stepPix_more h (by omega), andThen_next, h6]
      simp only [e1]
      rw [take_set_succ _ _ he]
      simp [List.append_assoc]

/-- A record with pixels has 3 or 4 wire elements a pixel. -/
theorem wireElems_range {cfg : Config} {r : Record} (h : precheck cfg r = true)
    (hp : pixelCount r ≠ 0) : 1 ≤ wireElems r ∧ wireElems r ≤ 4 := by
  cases r with
  | ws n o px =>
    have := (precheck_ws h).1
    simp only [wireElems]
    omega
  | apaData f o px => simp [wireElems]
  | apaClk f => simp [pixelCount] at hp

theorem pixelCount_lt (r : Record) : pixelCount r < 65536 := by
  cases r with
  | ws n o px => exact px.isLt
  | apaData f o px => exact px.isLt
  | apaClk f => simp [pixelCount]

/-- After the last pixel the trailer comes next (41 R140, R141). -/
theorem nextPixel_last {r : Record} {d : DState} {l : Latches} {q a : List Byte} {s : State}
    (h : (l.pIdx + 1).toNat = pixelCount r) :
    nextPixel r (working d l q a s)
      = working (.crc 0) { l with eIdx := 0, pIdx := l.pIdx + 1, crcLocal := crc32 a } q a s :=
  if_pos h

/-- After any other pixel the next one comes (41 R140). -/
theorem nextPixel_more {r : Record} {d : DState} {l : Latches} {q a : List Byte} {s : State}
    (h : (l.pIdx + 1).toNat ≠ pixelCount r) :
    nextPixel r (working d l q a s) = working d { l with eIdx := 0, pIdx := l.pIdx + 1 } q a s :=
  if_neg h

theorem succ_toNat_half {v : Half} (h : v.toNat + 1 < 65536) : (v + 1).toNat = v.toNat + 1 := by
  rw [BitVec.toNat_add, Nat.mod_eq_of_lt]
  · rfl
  · have : (1 : BitVec 16).toNat = 1 := rfl
    omega

/-- All pixels of a record (41 R140, R141). -/
theorem steps_pixels (r : Record) (hw : 1 ≤ wireElems r ∧ wireElems r ≤ 4) (count : Nat)
    (data : List Byte) (l : Latches) (q a : List Byte) (s v : State)
    (h : recordOf l.hType l.par = some r) (hd : data.length = (count + 1) * wireElems r)
    (he : l.eIdx = 0) (hp : l.pIdx.toNat + (count + 1) = pixelCount r)
    (hv : loadPixels r l.phys (count + 1) l.pIdx.toNat data s = .next v) :
    ∃ l', l'.hType = l.hType ∧ l'.par = l.par ∧ l'.addressed = l.addressed ∧ l'.phys = l.phys ∧
      l'.crcLocal = crc32 (a ++ data) ∧
      decoderSteps data.length (working .pix l (data ++ q) a s)
        = .next (working (.crc 0) l' q (a ++ data) v) := by
  induction count generalizing data l a s with
  | zero =>
    have hlt := pixelCount_lt r
    have hpx := succ_toNat_half (v := l.pIdx) (by omega)
    rw [Nat.zero_add, Nat.one_mul] at hd
    obtain ⟨l', h1, h2, h3, h4, h5, h6⟩ := steps_pixel r hw.2 data l q a s h
      (by rw [he, hd]; simp) (by intro e; rw [e] at hd; simp at hd; omega)
    refine ⟨{ l' with eIdx := 0, pIdx := l'.pIdx + 1, crcLocal := crc32 (a ++ data) },
      h1, h2, h3, h4, rfl, ?_⟩
    have e1 : data.take (wireElems r) = data := by rw [← hd, List.take_length]
    simp only [loadPixels] at hv
    obtain ⟨u, hu, hu'⟩ := andThen_eq_next.1 hv
    cases hu'
    rw [e1] at hu
    rw [h6, he]
    show andThen (loadPixel r l.phys _ data s) _ = _
    rw [hu, andThen_next, nextPixel_last (by rw [h5, hpx]; omega)]
  | succ n ih =>
    have hlt := pixelCount_lt r
    have hpx := succ_toNat_half (v := l.pIdx) (by omega)
    have hlen : wireElems r ≤ data.length := by
      rw [hd]
      exact Nat.le_mul_of_pos_left _ (by omega)
    have hdd : (data.drop (wireElems r)).length = (n + 1) * wireElems r := by
      rw [List.length_drop, hd, Nat.add_mul (n + 1) 1, Nat.one_mul, Nat.add_sub_cancel]
    have htk : (data.take (wireElems r)).length = wireElems r := by simp [hlen]
    obtain ⟨l1, h1, h2, h3, h4, h5, h6⟩ := steps_pixel r hw.2 (data.take (wireElems r)) l
      (data.drop (wireElems r) ++ q) a s h (by rw [he, htk]; simp)
      (by intro e; rw [e] at htk; simp at htk; omega)
    rw [← List.append_assoc, List.take_append_drop, htk] at h6
    have e2 : data.length = wireElems r + (data.drop (wireElems r)).length := by
      rw [List.length_drop]
      omega
    obtain ⟨u, hu, hv⟩ := andThen_eq_next.1 hv
    have hnext : nextPixel r (working .pix l1 (data.drop (wireElems r) ++ q)
          (a ++ data.take (wireElems r)) u)
        = working .pix { l1 with eIdx := 0, pIdx := l1.pIdx + 1 }
            (data.drop (wireElems r) ++ q) (a ++ data.take (wireElems r)) u :=
      nextPixel_more (by rw [h5, hpx]; omega)
    obtain ⟨l', g1, g2, g3, g4, g5, g6⟩ := ih (data.drop (wireElems r))
      { l1 with eIdx := 0, pIdx := l1.pIdx + 1 } (a ++ data.take (wireElems r)) u
      (by rw [← h]; simp only [h1, h2]) hdd rfl (by simp only [h5, hpx]; omega)
      (by simp only [h4, h5, hpx]; exact hv)
    rw [List.append_assoc, List.take_append_drop] at g5 g6
    refine ⟨l', g1.trans h1, g2.trans h2, g3.trans h3, g4.trans h4, g5, ?_⟩
    rw [e2, decoderSteps_add, h6, he]
    show andThen (andThen (loadPixel r l.phys _ (data.take (wireElems r)) s) _) _ = _
    rw [hu, andThen_next, andThen_next, hnext, g6]

/-! ### The trailer and `Finish()` -/

theorem stepCrc_more {k : Fin 4} (hk : k ≠ 3) (b : Byte) (d : DState) (l : Latches)
    (q a : List Byte) (s : State) :
    stepCrc k b (working d l q a s)
      = .next (working (.crc (k + 1)) { l with t := l.t.set k.val b k.isLt } q a s) := by
  unfold stepCrc
  simp only
  rw [if_neg hk]
  rfl

theorem stepCrc_last {k : Fin 4} (hk : k = 3) (b : Byte) (d : DState) (l : Latches) (q a : List Byte)
    (s : State) :
    stepCrc k b (working d l q a s)
      = andThen
          (finish (working d { l with
            t := l.t.set 3 b
            crcWire := le32 (l.t.set 3 b)[0] (l.t.set 3 b)[1] (l.t.set 3 b)[2] (l.t.set 3 b)[3] }
            q a s))
          fun v => .next (endInvocation v) := by
  subst hk
  unfold stepCrc
  simp only
  rw [if_pos trivial]
  rfl

/-- The four trailer bytes, and `Finish()` (41 R142). -/
theorem steps_trailer (w : Word) (l : Latches) (q a : List Byte) (s : State) :
    ∃ l', l'.hType = l.hType ∧ l'.par = l.par ∧ l'.addressed = l.addressed ∧ l'.phys = l.phys ∧
      l'.crcLocal = l.crcLocal ∧ l'.crcWire = w ∧
      decoderSteps 4 (working (.crc 0) l (le32Bytes w ++ q) a s)
        = andThen (finish (working (.crc 3) l' q (a ++ le32Bytes w) s))
            fun v => .next (endInvocation v) := by
  have h : ∀ b0 b1 b2 b3 : Byte, ∃ l', l'.hType = l.hType ∧ l'.par = l.par ∧
      l'.addressed = l.addressed ∧ l'.phys = l.phys ∧ l'.crcLocal = l.crcLocal ∧
      l'.crcWire = le32 b0 b1 b2 b3 ∧
      decoderSteps 4 (working (.crc 0) l (b0 :: b1 :: b2 :: b3 :: q) a s)
        = andThen (finish (working (.crc 3) l' q (a ++ [b0] ++ [b1] ++ [b2] ++ [b3]) s))
            fun v => .next (endInvocation v) := by
    intro b0 b1 b2 b3
    have e : (((((l.t.set 0 b0).set 1 b1).set 2 b2).set 3 b3)[0] = b0 ∧
        ((((l.t.set 0 b0).set 1 b1).set 2 b2).set 3 b3)[1] = b1 ∧
        ((((l.t.set 0 b0).set 1 b1).set 2 b2).set 3 b3)[2] = b2 ∧
        ((((l.t.set 0 b0).set 1 b1).set 2 b2).set 3 b3)[3] = b3) := by simp
    refine ⟨{ l with
      t := (((l.t.set 0 b0).set 1 b1).set 2 b2).set 3 b3
      crcWire := le32 b0 b1 b2 b3 }, rfl, rfl, rfl, rfl, rfl, rfl, ?_⟩
    rw [decoderSteps_succ, decoderStep_crc, stepCrc_more (by decide), andThen_next,
      decoderSteps_succ, decoderStep_crc, stepCrc_more (by decide), andThen_next,
      decoderSteps_succ, decoderStep_crc, stepCrc_more (by decide), andThen_next,
      decoderSteps_one, decoderStep_crc, stepCrc_last (by decide)]
    show andThen (finish (working _ { l with
      t := (((l.t.set 0 b0).set 1 b1).set 2 b2).set 3 b3
      crcWire := le32 ((((l.t.set 0 b0).set 1 b1).set 2 b2).set 3 b3)[0]
        ((((l.t.set 0 b0).set 1 b1).set 2 b2).set 3 b3)[1]
        ((((l.t.set 0 b0).set 1 b1).set 2 b2).set 3 b3)[2]
        ((((l.t.set 0 b0).set 1 b1).set 2 b2).set 3 b3)[3] } q _ s)) _ = _
    rw [e.1, e.2.1, e.2.2.1, e.2.2.2]
    rfl
  obtain ⟨l', h1, h2, h3, h4, h5, h6, h7⟩ := h (w.extractLsb' 0 8) (w.extractLsb' 8 8)
    (w.extractLsb' 16 8) (w.extractLsb' 24 8)
  simp only [List.append_assoc] at h7
  exact ⟨l', h1, h2, h3, h4, h5, h6.trans (le32_of_bytes w), h7⟩

theorem finish_draw {d : DState} {l : Latches} {q a : List Byte} {s : State}
    (h : l.hType = typeDrawAll) :
    finish (working d l q a s)
      = .next (working d l q a (finishDraw (l.crcWire == l.crcLocal) s)) := by
  rw [← finishDraw_working]
  unfold finish
  simp only
  rw [if_pos (by simpa using h)]
  rfl

theorem finish_set {d : DState} {l : Latches} {q a : List Byte} {s : State} {r : Record}
    (h : l.hType ≠ typeDrawAll) (hr : recordOf l.hType l.par = some r) :
    finish (working d l q a s)
      = andThen (finishSet r l.addressed l.phys (l.crcWire == l.crcLocal) s)
          fun u => .next (working d l q a u) := by
  unfold finish
  simp only
  rw [if_neg (by simpa using h)]
  have h' : recordOf (working d l q a s).lat.hType (working d l q a s).lat.par = some r := hr
  rw [h']
  exact finishSet_blind _ _ _ _ d l q a s

/-- A trailer after a record type that has no record. -/
theorem finish_noRecord {d : DState} {l : Latches} {q a : List Byte} {s : State}
    (h : l.hType ≠ typeDrawAll) (hr : recordOf l.hType l.par = none) :
    finish (working d l q a s) = .refused .decoderStateUnreachable := by
  unfold finish
  simp only
  rw [if_neg (by simpa using h)]
  have h' : recordOf (working d l q a s).lat.hType (working d l q a s).lat.par = none := hr
  rw [h']

end Sys2Proof.Machine
end

