-- ==== Sys2Proof/Laws/PerInstr.lean ====
section
/-! SUPPORT. Per-instruction families of lemmas. -/

namespace Sys2Proof.Laws.EncodedLength

open Sys2Proof Sys2Proof.Machine

/-- A well-formed instruction's bytes are as many as the invocation consumes (41 R148); an
instruction with no bytes consumes none. -/
def Statement (i : Instr) : Prop :=
  (∀ (cfg : Config) (bs : List Byte), wellFormed cfg i = true → encode i = some bs →
    bs.length = consumedBytes i) ∧
  (encode i = none → consumedBytes i = 0)

theorem setFrame_length {cfg : Config} {ch : Byte} {r : Record} {body : Option Payload}
    (h : bodyWellFormed cfg r body = true) :
    (setFrameBytes ch r body).length
      = if body.isSome then 10 + (paramBytes r).length + wireByteCount r
        else 6 + (paramBytes r).length := by
  cases body with
  | none =>
    simp [setFrameBytes, coveredBytes, headerBytes, magic]
    omega
  | some p =>
    simp only [bodyWellFormed, Bool.and_eq_true, beq_iff_eq] at h
    simp [setFrameBytes, coveredBytes, headerBytes, magic, h.2]
    omega

theorem setWs2812 (ch n ord : Byte) (px : Half) (body : Option Payload) :
    Statement (.setWs2812 ch n ord px body) := by
  refine ⟨fun cfg bs hw he => ?_, fun he => by simp [encode] at he⟩
  simp only [encode, Option.some.injEq] at he
  rw [← he, setFrame_length hw]
  simp only [paramBytes, List.length_cons, le16Bytes_length, wireByteCount, pixelCount, wireElems,
    consumedBytes]

theorem drawAll (ch : Byte) (crc : Word) : Statement (.drawAll ch crc) := by
  refine ⟨fun cfg bs _ he => ?_, fun he => by simp [encode] at he⟩
  simp only [encode, Option.some.injEq] at he
  rw [← he]
  rfl

theorem setApa102Data (ch : Byte) (f : Word) (ord : Byte) (px : Half) (body : Option Payload) :
    Statement (.setApa102Data ch f ord px body) := by
  refine ⟨fun cfg bs hw he => ?_, fun he => by simp [encode] at he⟩
  simp only [encode, Option.some.injEq] at he
  rw [← he, setFrame_length hw]
  simp only [paramBytes, List.length_append, List.length_cons, le16Bytes_length, le32Bytes_length,
    wireByteCount, pixelCount, wireElems, consumedBytes]

theorem setApa102Clock (ch : Byte) (f : Word) (crc : Option Word) :
    Statement (.setApa102Clock ch f crc) := by
  refine ⟨fun cfg bs hw he => ?_, fun he => by simp [encode] at he⟩
  simp only [encode, Option.some.injEq] at he
  rw [← he, setFrame_length hw]
  cases crc <;> rfl

theorem encode (off : Nat) (c : Byte) (bytes : List Byte) (n : Nat) :
    Statement (.encode off c bytes n) :=
  ⟨fun _ _ _ he => by simp [Sys2Proof.encode] at he, fun _ => rfl⟩

theorem fillZero (off : Nat) (c : Byte) (blockCount : Nat) : Statement (.fillZero off c blockCount) :=
  ⟨fun _ _ _ he => by simp [Sys2Proof.encode] at he, fun _ => rfl⟩

theorem fillOne (off : Nat) (c : Byte) (blockCount : Nat) : Statement (.fillOne off c blockCount) :=
  ⟨fun _ _ _ he => by simp [Sys2Proof.encode] at he, fun _ => rfl⟩

theorem drawAttempt : Statement .drawAttempt :=
  ⟨fun _ _ _ he => by simp [Sys2Proof.encode] at he, fun _ => rfl⟩

theorem xferDone : Statement .xferDone :=
  ⟨fun _ _ _ he => by simp [Sys2Proof.encode] at he, fun _ => rfl⟩

theorem tick : Statement .tick :=
  ⟨fun _ _ _ he => by simp [Sys2Proof.encode] at he, fun _ => rfl⟩

theorem magicMiss (i : Fin 4) (b : Byte) : Statement (.magicMiss i b) := by
  refine ⟨fun cfg bs _ he => ?_, fun he => by simp [Sys2Proof.encode] at he⟩
  simp only [Sys2Proof.encode, Option.some.injEq] at he
  rw [← he]
  simp [consumedBytes, magic]

end Sys2Proof.Laws.EncodedLength
end

