-- ==== Sys2Proof/Laws/Step.lean ====
section
/-! SUPPORT. What a step can do, said once: the end of a frame, a decoder step, an invocation, the
moves of the other agents. -/

namespace Sys2Proof.Machine

/-! ### The end of a frame -/

/-- Everything `Finish()` of a set-channel record can do (41 R143 to R147). -/
theorem finishSet_cases {r : Record} {addressed crcOk : Bool} {phys : Byte} {s t : State}
    (h : finishSet r addressed phys crcOk s = .next t) :
    t = { s with ch := t.ch, bp := t.bp, pastBp := t.pastBp, cntCrcErr := t.cntCrcErr } ∧
      (t.cntCrcErr = if crcOk then s.cntCrcErr else increment s.cfg s.cntCrcErr) ∧
      KeepsForm s.cfg.cap s.bp t.bp ∧
      (addressed = false → t.ch = s.ch ∧ t.bp = s.bp) ∧
      (addressed = true → ∃ c : Fin 8, phys.toNat = c.val ∧
        t.ch = s.ch.set c.val (if crcOk then slotOf r else zeroSlot) c.isLt) ∧
      KeepsHistory s t := by
  cases addressed with
  | false =>
    rw [finishSet_unaddressed] at h
    cases crcOk <;> simp only [if_true, if_false, Bool.false_eq_true, Host.Outcome.next.injEq] at h <;>
      subst h <;> exact ⟨rfl, rfl, KeepsForm.refl _ _, fun _ => ⟨rfl, rfl⟩,
        fun e => absurd e (by simp), .same rfl rfl⟩
  | true =>
    by_cases hp : phys.toNat < 8
    · rw [finishSet_addressed r ⟨phys.toNat, hp⟩ rfl] at h
      cases crcOk with
      | false =>
        simp only [Bool.false_eq_true, if_false, commitMismatch_eq, Host.Outcome.next.injEq] at h
        subst h
        refine ⟨rfl, rfl, ?_, fun e => absurd e (by simp), fun _ => ⟨⟨phys.toNat, hp⟩, rfl, rfl⟩,
          KeepsHistory.setBp _ _⟩
        exact keepsForm_fillLanes (off := 0) (n := s.cfg.cap) s.bp phys.toNat false (by omega)
      | true =>
        simp only [if_true] at h
        rcases commitMatch_cases h with ⟨-, rfl⟩ | ⟨-, h2⟩
        · exact ⟨rfl, rfl, KeepsForm.refl _ _, fun e => absurd e (by simp),
            fun _ => ⟨⟨phys.toNat, hp⟩, rfl, rfl⟩, .same rfl rfl⟩
        · have hd : t.drawn = s.drawn := by
            rcases tailFill_cases h2 with ⟨rfl, -⟩ | ⟨v, hv, -⟩
            · rfl
            · rw [(fillOp_eq_next hv).2]
              split <;> rfl
          have hs := tailFill_sameButBuffer h2
          refine ⟨?_, ?_, tailFill_keepsForm
            (s := { s with ch := s.ch.set phys.toNat (slotOf r) hp }) h2, fun e => absurd e (by simp),
            fun _ => ⟨⟨phys.toNat, hp⟩, rfl, ?_⟩, tailFill_keepsHistory
              (s := { s with ch := s.ch.set phys.toNat (slotOf r) hp }) h2⟩
          · rw [hs, hd]
          · rw [hs]
            rfl
          · rw [hs]
            rfl
    · unfold finishSet at h
      simp [hp] at h

/-- Everything a draw attempt can change (43 R192 to R195). -/
theorem drawAttempt_changes (s : State) :
    drawAttempt s = { s with
      cntDraws := (drawAttempt s).cntDraws, cntOverdraw := (drawAttempt s).cntOverdraw
      busy := (drawAttempt s).busy, arms := (drawAttempt s).arms
      lanesOut := (drawAttempt s).lanesOut, pastBp := (drawAttempt s).pastBp } := by
  rcases drawAttempt_cases s with ⟨-, h⟩ | ⟨-, -, -, h⟩ | ⟨-, -, -, -, h⟩ <;> rw [h] <;> rfl

/-! ### One decoder step -/

/-- What a decoder step can change short of the end of a frame: the buffer, its own working state,
and the count of magic misses, by at most 1. -/
def QuietStep (s t : State) : Prop :=
  t = { s with
    bp := t.bp, pastBp := t.pastBp, cntFrameMiss := t.cntFrameMiss, dstate := t.dstate
    lat := t.lat, queue := t.queue, crcAcc := t.crcAcc, drawn := t.drawn } ∧
  (t.cntFrameMiss = s.cntFrameMiss ∨ t.cntFrameMiss = increment s.cfg s.cntFrameMiss) ∧
  KeepsForm s.cfg.cap s.bp t.bp ∧ KeepsHistory s t

theorem quietStep_working (d : DState) (l : Latches) (q a : List Byte) (s : State) :
    QuietStep s (working d l q a s) := ⟨rfl, .inl rfl, KeepsForm.refl _ _, .same rfl rfl⟩

theorem quietStep_raise (e : ErrorKind) (he : e = .magic ∨ e = .recType ∨ e = .record) (d : DState)
    (l : Latches) (q a : List Byte) (s : State) :
    QuietStep s (raiseError e (working d l q a s)) := by
  rcases he with rfl | rfl | rfl
  · exact ⟨rfl, .inr rfl, KeepsForm.refl _ _, .same rfl rfl⟩
  · exact ⟨rfl, .inl rfl, KeepsForm.refl _ _, .same rfl rfl⟩
  · exact ⟨rfl, .inl rfl, KeepsForm.refl _ _, .same rfl rfl⟩

/-- What the decoder does after the last trailer byte of state `s`, but for the return to S_IDLE
(41 R143). -/
def FrameEnds (s u : State) : Prop :=
  ∃ crcOk,
    (s.lat.hType = typeDrawAll ∧ u = finishDraw crcOk s) ∨
    (s.lat.hType ≠ typeDrawAll ∧ ∃ r, recordOf s.lat.hType s.lat.par = some r ∧
      finishSet r s.lat.addressed s.lat.phys crcOk s = .next u)

/-- Everything one decoder step can do (41 R130): stay quiet, or end a frame. -/
theorem decoderStep_cases {s t : State} (h : decoderStep s = .next t) :
    QuietStep s t ∨
      (s.dstate = .crc 3 ∧ ∃ u q a, FrameEnds s u ∧ t = endInvocation (working .idle s.lat q a u)) := by
  by_cases hi : s.dstate = .idle
  · simp only [decoderStep, hi, Host.Outcome.next.injEq] at h
    subst h
    refine .inl ?_
    unfold stepIdle
    split
    · exact ⟨rfl, .inl rfl, KeepsForm.refl _ _, .same rfl rfl⟩
    · exact ⟨rfl, .inl rfl, KeepsForm.refl _ _, .same rfl rfl⟩
  by_cases hq : s.queue = []
  · rw [decoderStep_holds hi hq] at h
    cases h
    exact .inl ⟨rfl, .inl rfl, KeepsForm.refl _ _, .same rfl rfl⟩
  obtain ⟨b, q, hq⟩ := List.exists_cons_of_ne_nil hq
  have he : s = working s.dstate s.lat (b :: q) s.crcAcc s := by
    rw [← hq]
    rfl
  rw [he] at h
  generalize hl : s.lat = l at h ⊢
  generalize s.crcAcc = a at h
  cases hd : s.dstate with
  | idle => exact absurd hd hi
  | magic i =>
    rw [hd, decoderStep_magic] at h
    unfold stepMagic at h
    split at h
    · cases h
      exact .inl ⟨rfl, .inl rfl, KeepsForm.refl _ _, .same rfl rfl⟩
    · cases h
      exact .inl (quietStep_raise _ (.inl rfl) _ _ _ _ s)
  | hdr j =>
    rw [hd, decoderStep_hdr] at h
    unfold stepHdr at h
    split at h
    · cases h
      exact .inl ⟨rfl, .inl rfl, KeepsForm.refl _ _, .same rfl rfl⟩
    · simp only [Host.Outcome.next.injEq] at h
      subst h
      refine .inl ?_
      unfold dispatchRecord
      split
      · exact ⟨rfl, .inl rfl, KeepsForm.refl _ _, .same rfl rfl⟩
      · split
        · exact ⟨rfl, .inl rfl, KeepsForm.refl _ _, .same rfl rfl⟩
        · exact ⟨rfl, .inl rfl, KeepsForm.refl _ _, .same rfl rfl⟩
  | param j =>
    rw [hd, decoderStep_param] at h
    refine .inl ?_
    by_cases h1 : j.val + 1 < parLen l.hType
    · rw [stepParam_more h1] at h
      cases h
      exact quietStep_working _ _ _ _ s
    · by_cases h2 : j.val + 1 = parLen l.hType
      · rw [stepParam_last h2] at h
        cases hr : recordOf l.hType (l.par.set j.val b j.isLt) with
        | none =>
          unfold paramsDone at h
          have hr' : recordOf (working (.param j) { l with par := l.par.set j.val b j.isLt } q
            (a ++ [b]) s).lat.hType (working (.param j) { l with par := l.par.set j.val b j.isLt } q
            (a ++ [b]) s).lat.par = none := hr
          rw [hr'] at h
          exact absurd h (by simp)
        | some r =>
          cases hp : precheck s.cfg r with
          | false =>
            rw [paramsDone_refused (r := r) hr hp] at h
            cases h
            exact quietStep_raise _ (.inr (.inr rfl)) _ _ _ _ s
          | true =>
            by_cases hz : wireByteCount r = 0
            · rw [paramsDone_empty (r := r) hr hp hz] at h
              cases h
              exact quietStep_working _ _ _ _ s
            · rw [paramsDone_pixels (r := r) hr hp hz] at h
              cases h
              exact quietStep_working _ _ _ _ s
      · unfold stepParam at h
        rw [if_neg (by simpa using h1), if_neg (by simpa using h2)] at h
        exact absurd h (by simp)
  | pix =>
    rw [hd, decoderStep_pix] at h
    refine .inl ?_
    cases hr : recordOf l.hType l.par with
    | none =>
      unfold stepPix at h
      have hr' : recordOf (working .pix l q (a ++ [b]) s).lat.hType
        (working .pix l q (a ++ [b]) s).lat.par = none := hr
      rw [hr'] at h
      exact absurd h (by simp)
    | some r =>
      by_cases h1 : l.eIdx.toNat + 1 < wireElems r
      · rw [stepPix_more hr h1] at h
        cases h
        exact quietStep_working _ _ _ _ s
      · rw [stepPix_last hr h1] at h
        obtain ⟨u, hu, ht⟩ := andThen_eq_next.1 h
        simp only [Host.Outcome.next.injEq] at ht
        subst ht
        have hs := loadPixel_sameButBuffer hu
        have hk := loadPixel_keepsForm hu
        have hh : KeepsHistory s u := loadPixel_keepsHistory hu
        have hn : ∃ d' l' q' a', nextPixel r (working .pix
            { l with ein := l.ein.set l.eIdx.toNat b } q (a ++ [b]) u) = working d' l' q' a' u := by
          unfold nextPixel
          simp only
          split <;> exact ⟨_, _, _, _, rfl⟩
        obtain ⟨d', l', q', a', hn⟩ := hn
        rw [hn]
        refine ⟨?_, .inl ?_, hk, hh⟩
        · rw [hs]
          rfl
        · rw [hs]
          rfl
  | crc k =>
    rw [hd, decoderStep_crc] at h
    by_cases hk : k = 3
    · refine .inr ⟨by rw [hk], ?_⟩
      rw [stepCrc_last hk] at h
      obtain ⟨v, hv, ht⟩ := andThen_eq_next.1 h
      simp only [Host.Outcome.next.injEq] at ht
      subst ht
      generalize hw : le32 (l.t.set 3 b)[0] (l.t.set 3 b)[1] (l.t.set 3 b)[2] (l.t.set 3 b)[3] = w
        at hv
      by_cases h2 : l.hType = typeDrawAll
      · rw [finish_draw (l := { l with t := l.t.set 3 b, crcWire := w }) h2] at hv
        cases hv
        exact ⟨_, q, a ++ [b], ⟨w == l.crcLocal, .inl ⟨by rw [hl]; exact h2, rfl⟩⟩, rfl⟩
      · cases hr : recordOf l.hType l.par with
        | none =>
          rw [finish_noRecord (l := { l with t := l.t.set 3 b, crcWire := w }) h2 hr] at hv
          exact absurd hv (by simp)
        | some r =>
          rw [finish_set (l := { l with t := l.t.set 3 b, crcWire := w }) (r := r) h2 hr] at hv
          obtain ⟨u, hu, hv⟩ := andThen_eq_next.1 hv
          cases hv
          refine ⟨u, q, a ++ [b], ⟨w == l.crcLocal, .inr ⟨by rw [hl]; exact h2, r, ?_, ?_⟩⟩, rfl⟩
          · rw [hl]; exact hr
          · rw [hl]; exact hu
    · rw [stepCrc_more hk] at h
      cases h
      exact .inl (quietStep_working _ _ _ _ s)

/-! ### An invocation on a whole frame -/

/-- A set-channel instruction at S_IDLE is one invocation (42 R160). -/
theorem exec_setInstr {s : State} {ch : Byte} {r : Record} {body : Option Payload}
    (h : s.dstate = .idle) (hb : bodyWellFormed s.cfg r body = true) :
    exec (setInstr ch r body) s = runSet ch r body s := by
  cases r with
  | ws n o px => simp [setInstr, exec, execSetWs2812, execSet, h, hb]
  | apaData f o px => simp [setInstr, exec, execSetApa102Data, execSet, h, hb]
  | apaClk f =>
    show execSet _ ch (.apaClk f) ((body.map Payload.crc).map fun w => ⟨[], w⟩) s = _
    rw [clockBody_eq hb]
    simp [execSet, h, hb]

/-- Everything an invocation on a complete set-channel frame can do: it loads the pixels, ends the
frame, and answers (41 R139 to R148). -/
theorem runSet_cases {s : State} {ch : Byte} {r : Record} {p : Payload}
    (hb : bodyWellFormed s.cfg r (some p) = true) :
    ∃ u v,
      loadPixels r (physOf s.cfg ch) (pixelCount r) 0 p.data
        { s with crcAcc := setFrameBytes ch r (some p) } = .next u ∧
      finishSet r (isAddressed s.cfg ch) (physOf s.cfg ch)
        (p.crc == crc32 (coveredBytes ch r p.data)) u = .next v ∧
      runSet ch r (some p) s = .next (endInvocation v) := by
  simp only [bodyWellFormed, Bool.and_eq_true, beq_iff_eq] at hb
  have hl := newLen_le_cap hb.1
  obtain ⟨u, hu⟩ := loadPixels_next (r := r) (count := pixelCount r) (p := 0)
    (s := { s with crcAcc := setFrameBytes ch r (some p) }) (by rw [Nat.zero_add]; exact hl)
    (physOf s.cfg ch) p.data
  have hc : u.cfg = s.cfg := (loadPixels_sameButBuffer hu).cfg
  have hv : ∃ v, finishSet r (isAddressed s.cfg ch) (physOf s.cfg ch)
      (p.crc == crc32 (coveredBytes ch r p.data)) u = .next v := by
    cases ha : isAddressed s.cfg ch with
    | false =>
      rw [finishSet_unaddressed]
      exact ⟨_, rfl⟩
    | true =>
      rw [finishSet_addressed r ⟨_, physOf_lt ha⟩ rfl]
      split
      · exact commitMatch_next (by rw [hc]; exact hl) _
      · rw [commitMismatch_eq]
        exact ⟨_, rfl⟩
  obtain ⟨v, hv⟩ := hv
  exact ⟨u, v, hu, hv, by simp [runSet, hu, hv]⟩

/-- What the decoder reads: a set-channel frame, a DRAW_ALL frame or a magic miss
(30_encoding R83, 41 R133). -/
theorem wireInstr_cases {cfg : Config} {i : Instr} {w : List Byte} (hw : wellFormed cfg i = true)
    (he : encode i = some w) :
    (∃ ch r body, i = setInstr ch r body ∧ bodyWellFormed cfg r body = true ∧
      w = setFrameBytes ch r body) ∨
    (∃ ch crc, i = .drawAll ch crc ∧ w = headerBytes ch typeDrawAll ++ le32Bytes crc) ∨
    (∃ k b, i = .magicMiss k b ∧ b ≠ magicByte k ∧ w = magic.take k.val ++ [b]) := by
  cases i with
  | setWs2812 ch n ord px body =>
    exact .inl ⟨ch, .ws n ord px, body, rfl, hw, by simpa [encode] using he.symm⟩
  | setApa102Data ch f ord px body =>
    exact .inl ⟨ch, .apaData f ord px, body, rfl, hw, by simpa [encode] using he.symm⟩
  | setApa102Clock ch f crc =>
    refine .inl ⟨ch, .apaClk f, crc.map fun w => ⟨[], w⟩, ?_, hw, by simpa [encode] using he.symm⟩
    cases crc <;> rfl
  | drawAll ch crc => exact .inr (.inl ⟨ch, crc, rfl, by simpa [encode] using he.symm⟩)
  | magicMiss k b =>
    exact .inr (.inr ⟨k, b, rfl, by simpa [wellFormed] using hw, by simpa [encode] using he.symm⟩)
  | encode _ _ _ _ => simp [encode] at he
  | fillZero _ _ _ => simp [encode] at he
  | fillOne _ _ _ => simp [encode] at he
  | drawAttempt => simp [encode] at he
  | xferDone => simp [encode] at he
  | tick => simp [encode] at he

/-! ### An invocation, and the other agents' moves -/

/-- Everything one invocation can be (41 R131, R148): one decoder step, the instruction in front of
an idle decoder, or a reserved record type. -/
theorem invocation_cases (s : State) :
    invocation s = decoderStep s ∨
    (s.dstate = .idle ∧ s.cfg.triggerMin ≤ s.queue.length ∧
      ((∃ i rest, decode s.cfg s.queue = .instr i rest ∧
          invocation s = exec i { s with queue := rest }) ∨
        (∃ ch t rest, decode s.cfg s.queue = .rejected (.reservedType ch t rest) ∧
          invocation s = .next (endReserved ch t rest s)))) := by
  cases hd : s.dstate
  case idle =>
    by_cases ht : s.cfg.triggerMin ≤ s.queue.length
    · cases hdec : decode s.cfg s.queue with
      | instr i rest =>
        exact .inr ⟨rfl, ht, .inl ⟨i, rest, rfl, by
          simp only [invocation, hd, idleInvocation, available, ht, if_true, hdec]⟩⟩
      | rejected why =>
        cases why with
        | incomplete =>
          exact .inl (by simp only [invocation, hd, idleInvocation, available, ht, if_true, hdec])
        | reservedType ch t rest =>
          exact .inr ⟨rfl, ht, .inr ⟨ch, t, rest, rfl, by
            simp only [invocation, hd, idleInvocation, available, ht, if_true, hdec]⟩⟩
    · refine .inl ?_
      simp only [invocation, hd, idleInvocation, available, ht, if_false]
  all_goals
    refine .inl ?_
    simp only [invocation, hd]

/-- The lane read of a transfer in flight (60 R237). -/
theorem emitLane_running {s : State} {a : Arm} (hb : s.busy = true) (ha : s.arms.getLast? = some a)
    (v : Nat) :
    emitLane v s = if s.lanesOut.length < a.bitCount then
        if s.lanesOut.length < 8 * s.cfg.cap then
          .next { s with lanesOut := s.lanesOut ++
            [laneRead ((s.bp :: s.pastBp).getD v s.bp) s.lanesOut.length] }
        else .fault (.laneOutsideBuffer s.lanesOut.length)
      else .next s := by
  unfold emitLane
  rw [ha]
  split
  · rename_i h1 h2
    cases h2
    rfl
  · rename_i h1
    exact absurd rfl (h1 a hb)

/-- With no transfer in flight nothing is read (60 R239). -/
theorem emitLane_still {s : State} (h : s.busy = false ∨ s.arms.getLast? = none) (v : Nat) :
    emitLane v s = .next s := by
  unfold emitLane
  split
  · rename_i h1 h2
    rcases h with h | h
    · rw [h] at h1
      exact absurd h1 (by simp)
    · rw [h] at h2
      exact absurd h2 (by simp)
  · rfl

/-- Everything the Output Pipeline's read can do: nothing, one more lane, or the stop on a lane that
is not there. -/
theorem emitLane_cases (v : Nat) (s : State) :
    emitLane v s = .next s ∨
    (∃ a b, s.busy = true ∧ s.arms.getLast? = some a ∧ s.lanesOut.length < a.bitCount ∧
      emitLane v s = .next { s with lanesOut := s.lanesOut ++ [b] }) ∨
    (∃ a ∈ s.arms, 8 * s.cfg.cap ≤ s.lanesOut.length ∧ s.lanesOut.length < a.bitCount ∧
      emitLane v s = .fault (.laneOutsideBuffer s.lanesOut.length)) := by
  by_cases hb : s.busy = true
  · cases ha : s.arms.getLast? with
    | none => exact .inl (emitLane_still (.inr ha) v)
    | some a =>
      rw [emitLane_running hb ha]
      by_cases h1 : s.lanesOut.length < a.bitCount
      · by_cases h2 : s.lanesOut.length < 8 * s.cfg.cap
        · exact .inr (.inl ⟨a, _, hb, rfl, h1, by rw [if_pos h1, if_pos h2]⟩)
        · exact .inr (.inr ⟨a, List.mem_of_getLast? ha, by omega, h1, by rw [if_pos h1, if_neg h2]⟩)
      · exact .inl (by rw [if_neg h1])
  · exact .inl (emitLane_still (.inl (by simpa using hb)) v)

/-- A transfer is complete when it is in flight and has read its last lane. -/
theorem transferComplete_iff (s : State) :
    transferComplete s = true ↔
      s.busy = true ∧ ∃ a, s.arms.getLast? = some a ∧ a.bitCount ≤ s.lanesOut.length := by
  unfold transferComplete
  cases s.arms.getLast? <;> simp

/-- Everything the completion move can do: XFER_DONE after the last lane, or nothing (60 R239). -/
theorem completeTransfer_cases (s : State) :
    (transferComplete s = true ∧ completeTransfer s = .next { s with
      busy := false, latchCount := s.cfg.latchTicks, pastBp := [] }) ∨
    (transferComplete s = false ∧ completeTransfer s = .next s) := by
  unfold completeTransfer
  cases h : transferComplete s
  · exact .inr ⟨rfl, by simp⟩
  · exact .inl ⟨rfl, by simp [exec, execXferDone]⟩

/-- Everything a step can be: the decoder's invocation, or the move at the head of the schedule. -/
theorem step_cases (s : State) :
    (s.sched = [] ∧ step s = invocation s) ∨
    ∃ m ms, s.sched = m :: ms ∧ step s = runMove m { s with sched := ms } := by
  unfold step
  cases hs : s.sched with
  | nil => exact .inl ⟨rfl, rfl⟩
  | cons m ms => exact .inr ⟨m, ms, rfl, rfl⟩

end Sys2Proof.Machine
end

