-- ==== Sys2Proof/Tests/Slice0.lean ====
section
/-! SUPPORT. Tests: the well-formedness smoke test, the decoding of words written out from the spec's
encodings, one or two small steps per instruction with the results of spec/95_test_vectors.md, and a
witness for the hypotheses of every statement. -/

namespace Sys2Proof.Tests

open Sys2Proof Sys2Proof.Machine

/- One theorem at a time: elaborated side by side the tests take many threads. -/
set_option Elab.async false

/-! ### Helpers -/

/-- `CFG_TINY` (00_scope R11). -/
def tiny : Config := ⟨8, 48, 2, 0, 31, .zero, 1, 32⟩

/-- The reset state of a `CFG_TINY` device. -/
def blank : State := State.resetWith tiny

/-- The next state of an outcome; the reset state for a stop. -/
def after (o : Outcome) : State :=
  match o with
  | .next t => t
  | .fault _ => blank
  | .refused _ => blank

/-- Did the machine go on? -/
def goesOn (o : Outcome) : Bool :=
  match o with
  | .next _ => true
  | .fault _ => false
  | .refused _ => false

/-- The 8 bytes of channel `c` of a `CFG_TINY` buffer. -/
def channel (s : State) (c : Nat) : List Byte := (List.range 8).map (chanByte s.bp c)

/-- Lanes `from .. from+7`. -/
def lanes (s : State) (start : Nat) : List Byte := (List.range 8).map fun k => laneRead s.bp (start + k)

/-- The frames of 95_test_vectors. -/
def frameFA : List Byte :=
  [0x55, 0x50, 0x58, 0x4C, 0x00, 0x01, 0x03, 0xE1, 0x02, 0x00,
    0x10, 0x20, 0x30, 0xFF, 0x00, 0x80, 0x0B, 0xD3, 0x8A, 0xC7]

def frameFD : List Byte := [0x55, 0x50, 0x58, 0x4C, 0x00, 0x02, 0xE9, 0xC5, 0xA5, 0x4C]

def frameFB : List Byte :=
  [0x55, 0x50, 0x58, 0x4C, 0x01, 0x03, 0x80, 0x84, 0x1E, 0x00, 0x06, 0x01, 0x00,
    0x11, 0x22, 0x33, 0x07, 0x32, 0x32, 0xBB]

def frameFC : List Byte :=
  [0x55, 0x50, 0x58, 0x4C, 0x02, 0x04, 0x80, 0x84, 0x1E, 0x00, 0x01, 0xAE, 0xE1, 0xAC]

/-- The instructions those frames are. -/
def instrFA : Instr :=
  .setWs2812 0x00 3 0xE1 2 (some ⟨[0x10, 0x20, 0x30, 0xFF, 0x00, 0x80], 0xC78AD30B⟩)

def instrFD : Instr := .drawAll 0x00 0x4CA5C5E9

def instrFB : Instr := .setApa102Data 0x01 2000000 0x06 1 (some ⟨[0x11, 0x22, 0x33], 0xBB323207⟩)

def instrFC : Instr := .setApa102Clock 0x02 2000000 (some 0xACE1AE01)

/-- An idle `CFG_TINY` device with `bs` to read. -/
def fed (bs : List Byte) : State := { blank with queue := bs }

/-- After `FA`. -/
def afterFA : State := after (step (fed frameFA))

/-- After `FA`, then a draw. -/
def drawing : State := after (exec .drawAttempt afterFA)

/-! ### Well-formedness: an ill-formed term for each check -/

theorem test_wellFormed_elemCount : wellFormed tiny
    (.setWs2812 0 5 0xE4 1 (some ⟨[1, 2, 3, 4, 5], 0⟩)) = false := by decide

theorem test_wellFormed_tooLong : wellFormed tiny
    (.setWs2812 0 3 0xE4 3 (some ⟨[1, 2, 3, 4, 5, 6, 7, 8, 9], 0⟩)) = false := by decide

theorem test_wellFormed_dataLength : wellFormed tiny
    (.setWs2812 0 3 0xE4 1 (some ⟨[1, 2], 0⟩)) = false := by decide

theorem test_wellFormed_bodyMissing : wellFormed tiny (.setWs2812 0 3 0xE4 1 none) = false := by decide

theorem test_wellFormed_freq : wellFormed tiny
    (.setApa102Data 0 0 0x24 1 (some ⟨[1, 2, 3], 0⟩)) = false := by decide

theorem test_wellFormed_clockFreq : wellFormed tiny (.setApa102Clock 0 0 (some 0)) = false := by decide

theorem test_wellFormed_encodeRange : wellFormed tiny (.encode 8 0 [1] 1) = false := by decide

theorem test_wellFormed_encodeSource : wellFormed tiny (.encode 0 0 [1] 2) = false := by decide

theorem test_wellFormed_fillRange :
    wellFormed tiny (.fillZero 1 0 8) = false ∧ wellFormed tiny (.fillOne 0 0 9) = false := by decide

theorem test_wellFormed_miss : wellFormed tiny (.magicMiss 1 0x50) = false := by decide

theorem test_wellFormed_frames : wellFormed tiny instrFA = true ∧ wellFormed tiny instrFB = true ∧
    wellFormed tiny instrFC = true ∧ wellFormed tiny (.setWs2812 0 5 0xE4 1 none) = true := by decide

/-! ### Decoding words written out from 30_encoding -/

/-- Frame FA (30_encoding R84; 95). -/
theorem test_decode_setWs2812 : decode tiny frameFA = .instr instrFA [] := by decide +kernel

/-- Frame FD (30_encoding R86; 95). -/
theorem test_decode_drawAll : decode tiny frameFD = .instr instrFD [] := by decide +kernel

/-- Frame FB (30_encoding R87; 95). -/
theorem test_decode_setApa102Data : decode tiny frameFB = .instr instrFB [] := by decide +kernel

/-- Frame FC (30_encoding R88; 95). -/
theorem test_decode_setApa102Clock : decode tiny frameFC = .instr instrFC [] := by decide +kernel

/-- V-MAG-3: `55 50 55` is one miss (41 R133). -/
theorem test_decode_magicMiss :
    decode tiny [0x55, 0x50, 0x55, 0x50] = .instr (.magicMiss 2 0x55) [0x50] := by decide

/-- V-WS-6: `3 * 3 > 8`, the invocation ends after 10 bytes (41 R139). -/
theorem test_decode_refusedRecord : decode tiny
    [0x55, 0x50, 0x58, 0x4C, 0x00, 0x01, 0x03, 0xE4, 0x03, 0x00, 0x01]
      = .instr (.setWs2812 0x00 3 0xE4 3 none) [0x01] := by decide

/-- V-TYPE-1 (30_encoding R92). -/
theorem test_decode_reserved : decode tiny [0x55, 0x50, 0x58, 0x4C, 0x00, 0x05, 0x4A]
    = .rejected (.reservedType 0x00 0x05 [0x4A]) := by decide

/-- V-BLK-1: the first 12 bytes of FA are no whole invocation (41 R149). -/
theorem test_decode_incomplete : decode tiny (frameFA.take 12) = .rejected .incomplete := by
  decide +kernel

/-- The encoder writes the same words (95). -/
theorem test_encode : encode instrFA = some frameFA ∧ encode instrFD = some frameFD ∧
    encode instrFB = some frameFB ∧ encode instrFC = some frameFC := by decide +kernel

/-- The opcode table's words (opcode_table.json): the first byte is the most significant. -/
theorem test_decodeTableWord : decodeTableWord 48 0x5550584C0002 = some (.drawAll 0 0) ∧
    decodeTableWord 48 0x5550584C0004 = some (.setApa102Clock 0 0 none) := by decide +kernel

/-- `step` runs a table word as the first instruction after reset: a wrong CRC is counted. -/
theorem test_withFetchWord :
    (after (step (State.reset.withFetchWord 48 0x5550584C0002))).cntCrcErr = 1 := by decide +kernel

/-! ### SET_WS2812 -/

/-- V-WS-1. -/
theorem test_setWs2812 : afterFA.ch[7] = ⟨.ws2812, 3, 0xE1, 2, 0⟩ ∧
    channel afterFA 7 = [0x20, 0x10, 0x30, 0x00, 0xFF, 0x80, 0x00, 0x00] := by decide +kernel

/-- V-WS-4: a 3-cycle, which tells the two readings of `orders` apart (92 D11). -/
theorem test_setWs2812_cycle :
    channel (after (exec (.setWs2812 0x03 3 0xC9 1 (some ⟨[0xAA, 0xBB, 0xCC], 0xEF1522F7⟩)) blank)) 4
      = [0xCC, 0xAA, 0xBB, 0, 0, 0, 0, 0] := by decide +kernel

/-- V-WS-9: a wrong CRC zeroes slot and channel. -/
theorem test_setWs2812_badCrc :
    let t := after (exec
      (.setWs2812 0x00 3 0xE1 2 (some ⟨[0x10, 0x20, 0x30, 0xFF, 0x00, 0x80], 0xC78AD30A⟩)) afterFA)
    t.cntCrcErr = 1 ∧ t.ch[7] = zeroSlot ∧ channel t 7 = [0, 0, 0, 0, 0, 0, 0, 0] := by decide +kernel

/-! ### SET_APA102_DATA -/

/-- V-APA-1. -/
theorem test_setApa102Data :
    let t := after (step (fed frameFB))
    t.ch[6] = ⟨.apaData, 0, 0x06, 1, 2000000⟩ ∧
      channel t 6 = [0xFF, 0x33, 0x22, 0x11, 0, 0, 0, 0] := by decide +kernel

/-- V-APA-8: the tail filled with ones. -/
theorem test_setApa102Data_tailOne :
    channel (after (exec instrFB { blank with cfg := { tiny with tailFill := .one } })) 6
      = [0xFF, 0x33, 0x22, 0x11, 0xFF, 0xFF, 0xFF, 0xFF] := by decide +kernel

/-! ### SET_APA102_CLOCK -/

/-- V-CLK-1 on channel 5: the slot, and the channel cleared on the change of type. -/
theorem test_setApa102Clock :
    let t := after (exec instrFC (after (exec (.encode 0 5 [0x09, 0x09] 2) blank)))
    t.ch[5] = ⟨.apaClk, 0, 0, 0, 2000000⟩ ∧ channel t 5 = [0, 0, 0, 0, 0, 0, 0, 0] := by decide +kernel

/-- V-CLK-4: a wrong CRC. -/
theorem test_setApa102Clock_badCrc :
    (after (exec (.setApa102Clock 0x02 2000000 (some 0xACE1AE00)) blank)).cntCrcErr = 1 := by
  decide +kernel

/-! ### DRAW_ALL and DRAW_ATTEMPT -/

/-- V-DRAW-3, first frame. -/
theorem test_drawAll :
    let t := after (step { afterFA with queue := frameFD })
    t.arms = [⟨48, 0x80, 0x00, 0xFFFFFFFF⟩] ∧ t.busy = true ∧ t.cntDraws = 1 := by decide +kernel

/-- V-DRAW-11: the channel byte is ignored (43 R191). -/
theorem test_drawAll_anyChannel :
    (after (exec (.drawAll 0xFF 0xDF81389B) afterFA)).cntDraws = 1 := by decide +kernel

/-- V-DRAW-3, second frame: overdraw. -/
theorem test_drawAttempt_overdraw :
    (after (exec .drawAttempt drawing)).cntOverdraw = 1 := by decide +kernel

/-- 10_state R33: a counter of 2 bits goes from 3 to 0. -/
theorem test_counter_wraps :
    (after (exec .drawAttempt
      { drawing with cfg := { tiny with cntW := 2 }, cntOverdraw := 3 })).cntOverdraw = 0 := by
  decide +kernel

/-- V-DRAW-9: the least frequency and the clock mask. -/
theorem test_drawAttempt_apa :
    (after (exec .drawAttempt { blank with
      ch := #v[zeroSlot, zeroSlot, zeroSlot, zeroSlot, zeroSlot, ⟨.apaClk, 0, 0, 0, 1000000⟩,
        ⟨.apaData, 0, 0x06, 1, 2000000⟩, zeroSlot] })).arms = [⟨32, 0x00, 0x20, 0xF4240⟩] := by
  decide +kernel

/-! ### Events -/

/-- V-EVT-2. -/
theorem test_xferDone :
    let t := after (exec .xferDone { blank with busy := true, latchCount := 1 })
    t.busy = false ∧ t.latchCount = 2 := by decide

/-- The transfer of V-DRAW-3 with `n` of its 48 lanes read and the completion event next. -/
def reading (n : Nat) : State :=
  { drawing with lanesOut := List.replicate n 0x00, sched := [.xferDone] }

/-- 60_exceptions R239: the completion event comes after the last lane, and not before. -/
theorem test_completion : (after (step (reading 47))).busy = true ∧
    (after (step (reading 48))).busy = false ∧ (after (step (reading 48))).latchCount = 2 := by
  decide +kernel

/-- V-DRAW-4: `TICK` takes 2 to 1; V-EVT-1: it leaves 0. -/
theorem test_tick : (after (exec .tick { blank with latchCount := 2 })).latchCount = 1 ∧
    (after (exec .tick blank)).latchCount = 0 := by decide

/-! ### Bit-plane operations -/

/-- V-ENC-1, lanes and returned position. -/
theorem test_encode_lanes :
    let t := after (exec (.encode 0 2 [0xA5] 1) blank)
    lanes t 0 = [0x04, 0x00, 0x04, 0x00, 0x00, 0x04, 0x00, 0x04] ∧ t.encodeResult = 1 := by
  decide +kernel

/-- V-ENC-3: two channels share the lanes. -/
theorem test_encode_shares :
    lanes (after (exec (.encode 0 7 [0x01] 1) (after (exec (.encode 0 0 [0xFF] 1) blank)))) 0
      = [0x01, 0x01, 0x01, 0x01, 0x01, 0x01, 0x01, 0x81] := by decide +kernel

/-- V-FILL-3. -/
theorem test_fillZero :
    let t := after (exec (.fillZero 1 4 1) (after (exec (.encode 0 4 [0xDE, 0xAD] 2) blank)))
    lanes t 0 = [0x10, 0x10, 0x00, 0x10, 0x10, 0x10, 0x10, 0x00] ∧
      lanes t 8 = [0, 0, 0, 0, 0, 0, 0, 0] := by decide +kernel

/-- V-FILL-2. -/
theorem test_fillOne :
    let t := after (exec (.fillOne 0 3 1) blank)
    lanes t 0 = [0x08, 0x08, 0x08, 0x08, 0x08, 0x08, 0x08, 0x08] ∧
      lanes t 8 = [0, 0, 0, 0, 0, 0, 0, 0] := by decide +kernel

/-! ### MAGIC_MISS -/

/-- V-MAG-4: one invocation, four bytes, one miss. -/
theorem test_magicMiss :
    let t := after (step (fed [0x55, 0x50, 0x58, 0x00, 0x55]))
    t.cntFrameMiss = 1 ∧ t.queue = [0x55] ∧ t.dstate = .idle := by decide +kernel

/-! ### The decoder byte by byte -/

/-- V-BLK-1: in S_PIX with `pIdx = 0`, `eIdx = 2`. -/
theorem test_decoder_midPixel :
    let t := after (decoderSteps 13 (fed (frameFA.take 12)))
    t.dstate = .pix ∧ t.lat.pIdx = 0 ∧ t.lat.eIdx = 2 ∧ t.bp = [] := by decide +kernel

/-- V-BLK-2: pixel 0 is already in the buffer, uncommitted. -/
theorem test_decoder_uncommitted :
    let t := after (decoderSteps 14 (fed (frameFA.take 13)))
    channel t 7 = [0x20, 0x10, 0x30, 0, 0, 0, 0, 0] ∧ t.ch[7] = zeroSlot := by decide +kernel

/-! ### Memory -/

theorem test_memory_resetWf : State.reset.bp.wf = true := rfl

/-- A write of 0 removes the entry, so equal memories are equal data. -/
theorem test_memory_canonical : laneWrite (laneWrite [] 3 0x10) 3 0 = [] := by decide

/-! ### Witnesses: states and operands that meet the hypotheses of each statement -/

theorem test_witness_WordsOfTheTablesDecode : 6 ≤ tiny.cap := by decide

theorem test_witness_DecodeOfEncodeIsTheInstruction :
    (wellFormed tiny instrFA = true ∧ encode instrFA = some frameFA) ∧
    (wellFormed tiny (.setApa102Data 1 0 0 1 none) = true ∧
      encode (.setApa102Data 1 0 0 1 none)
        = some [0x55, 0x50, 0x58, 0x4C, 0x01, 0x03, 0, 0, 0, 0, 0, 1, 0]) ∧
    (wellFormed tiny (.magicMiss 0 0x00) = true ∧ encode (.magicMiss 0 0x00) = some [0x00]) := by
  decide +kernel

theorem test_witness_EncodeOfDecodeIsTheBytesConsumed :
    decode tiny (frameFB ++ [0x55]) = .instr instrFB [0x55] := by decide +kernel

theorem test_witness_ReservedRecordTypesAreRejected :
    ((0x00 : Byte) = 0x00 ∨ 5 ≤ (0x00 : Byte).toNat) ∧
    ((0x05 : Byte) = 0x00 ∨ 5 ≤ (0x05 : Byte).toNat) := by decide

theorem test_witness_DevicesOfEqualCapacityStayInStep :
    tiny.cap = { tiny with busId := 7 }.cap ∧ tiny ≠ { tiny with busId := 7 } := by decide

/-- Channel bytes 0x07 and 0x08 lie on the two sides of the bus field's boundary for bus 0. -/
theorem test_witness_ChannelByteFields :
    isAddressed tiny 0x07 = true ∧ isAddressed tiny 0x08 = false ∧
    (0x40 : Byte).getLsbD 6 = true ∧ (0x80 : Byte).getLsbD 7 = true := by decide

/-- One product at CAP, one past it. -/
theorem test_witness_PrecheckConditions :
    precheck tiny (.ws 4 0 2) = true ∧ precheck tiny (.ws 3 0 3) = false ∧
    precheck tiny (.apaData 1 0 2) = true ∧ precheck tiny (.apaData 1 0 3) = false ∧
    precheck tiny (.apaClk 0) = false := by decide

theorem test_witness_StepRunsTheDecodedInstruction :
    (fed frameFD).sched = [] ∧ (fed frameFD).dstate = .idle ∧
    (fed frameFD).cfg.triggerMin ≤ (fed frameFD).queue.length ∧
    decode (fed frameFD).cfg (fed frameFD).queue = .instr instrFD [] := by decide +kernel

/-- One schedule for each clause. -/
def scheduled (m : Move) : State := { blank with sched := [m] }

theorem test_witness_StepTakesTheScheduledMove :
    (scheduled .xferDone).sched = [.xferDone] ∧ (scheduled .tick).sched = [.tick] ∧
    (scheduled .decode).sched = [.decode] ∧ (scheduled .invocation).sched = [.invocation] ∧
    (scheduled (.emit 1)).sched = [.emit 1] ∧ (scheduled (.byte 0x55)).sched = [.byte 0x55] := by
  decide

theorem test_witness_ResetAtAnyTimeGivesTheResetState :
    (scheduled .reset).sched = [.reset] := by decide

/-- The stream of V-TYPE-1. -/
def reservedStream : List Byte := [0x55, 0x50, 0x58, 0x4C, 0x00, 0x05, 0x4A]

theorem test_witness_ReservedTypeEndsTheInvocation :
    (fed reservedStream).sched = [] ∧ (fed reservedStream).dstate = .idle ∧
    (fed reservedStream).cfg.triggerMin ≤ (fed reservedStream).queue.length ∧
    (fed reservedStream).queue = 0x55 :: 0x50 :: 0x58 :: 0x4C :: 0x00 :: 0x05 :: [0x4A] ∧
    ((0x05 : Byte) = 0x00 ∨ 5 ≤ (0x05 : Byte).toNat) := by decide

theorem test_witness_ByteByByteRunIsTheInstruction :
    (fed frameFA).dstate = .idle ∧ (fed frameFA).cfg.triggerMin ≤ (fed frameFA).queue.length ∧
    decode (fed frameFA).cfg (fed frameFA).queue = .instr instrFA [] ∧
    encode instrFA = some frameFA := by decide +kernel

/-- Inside a frame; and idle with a declared length the data does not have. -/
theorem test_witness_BytesInsideAFrameAreThatFrames :
    (encode instrFD = some frameFD ∧ { blank with dstate := .pix }.dstate ≠ .idle) ∧
    ((encode (.setApa102Clock 0 1 none)).isSome = true ∧
      wellFormed blank.cfg (.setApa102Clock 0 1 none) = false) := by decide +kernel

theorem test_witness_ReadByteConsumesAndAccumulates :
    (blank.queue = [] ∧ { blank with dstate := .pix }.dstate ≠ .idle) ∧
    (fed frameFD).queue = 0x55 :: frameFD.tail := by decide

/-- At exactly TRIGGER_MIN bytes, and one below. -/
theorem test_witness_TriggerStartsAnInvocation :
    ((fed [0x55]).dstate = .idle ∧ (fed [0x55]).cfg.triggerMin ≤ (fed [0x55]).queue.length) ∧
    ((fed []).dstate = .idle ∧ (fed []).queue.length < (fed []).cfg.triggerMin) := by decide

/-- The first and the last magic byte, each matching and missing. -/
theorem test_witness_MagicScanComparesOneByte :
    ({ fed [0x55] with dstate := .magic 0 }.dstate = .magic 0 ∧ (0x55 : Byte) = magicByte 0) ∧
    ({ fed [0x4D] with dstate := .magic 3 }.dstate = .magic 3 ∧ (0x4D : Byte) ≠ magicByte 3) := by
  decide

theorem test_witness_HeaderLatchesAndDispatches :
    (fed [0x04]).queue = 0x04 :: [] ∧ { fed [0x04] with dstate := .hdr 0 }.dstate = .hdr 0 ∧
    { fed [0x04] with dstate := .hdr 1 }.dstate = .hdr 1 ∧
    ((0x04 : Byte) = 0x01 ∨ (0x04 : Byte) = 0x03 ∨ (0x04 : Byte) = 0x04) ∧
    5 ≤ (0x05 : Byte).toNat := by decide

/-- A device about to read the last parameter byte of a record of type `t`. -/
def lastParam (t : Byte) (j : Fin 7) (par : Vector Byte 7) (b : Byte) : State :=
  { fed [b] with dstate := .param j, lat := { Latches.zero with hType := t, par := par } }

/-- A refused record, one with a pixel, one without. -/
theorem test_witness_LastParameterByteRunsThePrecheck :
    (recordOf 0x01 ((#v[5, 0xE4, 1, 0, 0, 0, 0] : Vector Byte 7).set 3 0) = some (.ws 5 0xE4 1) ∧
      precheck tiny (.ws 5 0xE4 1) = false ∧
      (lastParam 0x01 3 #v[5, 0xE4, 1, 0, 0, 0, 0] 0).dstate = .param 3 ∧
      (3 : Fin 7).val + 1 = parLen 0x01) ∧
    (precheck tiny (.ws 3 0xE4 1) = true ∧ 0 < wireByteCount (.ws 3 0xE4 1)) ∧
    (precheck tiny (.ws 3 0xE4 0) = true ∧ wireByteCount (.ws 3 0xE4 0) = 0) := by decide

theorem test_witness_TickCommutesWithDecoderSteps :
    { blank with dstate := .pix, latchCount := 1 }.dstate ≠ .crc 3 := by decide

theorem test_witness_MagicMissCountsAndConsumesTheComparedBytes :
    (0x00 : Byte) ≠ magicByte 3 ∧
    (fed [0x55, 0x50, 0x58, 0x00]).dstate = .idle ∧ (fed [0x55, 0x50, 0x58, 0x00]).sched = [] ∧
    (fed [0x55, 0x50, 0x58, 0x00]).cfg.triggerMin ≤ (fed [0x55, 0x50, 0x58, 0x00]).queue.length ∧
    (fed [0x55, 0x50, 0x58, 0x00]).queue = magic.take (3 : Fin 4).val ++ 0x00 :: [] := by decide

/-- Two bytes of garbage, then the first byte of a frame. -/
theorem test_witness_NonMagicBytesAreOneMissEach :
    (fed [0x00, 0x50, 0x55]).sched = [] ∧ (fed [0x00, 0x50, 0x55]).dstate = .idle ∧
    (fed [0x00, 0x50, 0x55]).queue = [0x00, 0x50] ++ [0x55] ∧
    (fed [0x00, 0x50, 0x55]).cntFrameMiss < 2 ^ (fed [0x00, 0x50, 0x55]).cfg.cntW ∧
    (fed [0x00, 0x50, 0x55]).cfg.triggerMin ≤ [(0x55 : Byte)].length + 1 ∧
    ∀ b ∈ [(0x00 : Byte), 0x50], b ≠ 0x55 := by decide

/-- The last block of the buffer, channels 7 and 8, one byte and none. -/
theorem test_witness_EncodeWritesLaneBits :
    blank.bp.wf = true ∧ 7 + 1 ≤ blank.cfg.cap ∧ 1 ≤ [(0xA5 : Byte)].length ∧
    (7 : Byte).toNat ≤ 7 ∧ 8 ≤ (8 : Byte).toNat ∧ 8 + 0 ≤ blank.cfg.cap := by decide

theorem test_witness_EncodeThenReadBackGivesTheBytes :
    blank.bp.wf = true ∧ (0 : Byte).toNat ≤ 7 ∧ 0 + 8 ≤ blank.cfg.cap ∧
    8 ≤ (List.replicate 8 (0xA5 : Byte)).length := by decide

theorem test_witness_FillZeroClearsTheBlocks :
    afterFA.bp.wf = true ∧ 0 + 8 ≤ afterFA.cfg.cap ∧ (7 : Byte).toNat ≤ 7 ∧ 8 ≤ (8 : Byte).toNat ∧
    8 + 0 ≤ afterFA.cfg.cap := by decide +kernel

theorem test_witness_FillOneSetsTheBlocks :
    blank.bp.wf = true ∧ 7 + 1 ≤ blank.cfg.cap ∧ (7 : Byte).toNat ≤ 7 ∧ 8 ≤ (8 : Byte).toNat ∧
    8 + 0 ≤ blank.cfg.cap := by decide

theorem test_witness_BitPlaneOperationsAreIndependent :
    afterFA.bp.wf = true ∧ (3 : Byte).toNat ≤ 7 ∧
    goesOn (exec (.encode 0 3 [0xFF] 1) afterFA) = true ∧
    goesOn (exec (.fillZero 0 3 1) afterFA) = true ∧
    goesOn (exec (.fillOne 0 3 1) afterFA) = true := by decide +kernel

theorem test_witness_InvalidChannelIndexWritesNothing :
    8 ≤ (8 : Byte).toNat ∧ 8 ≤ invalidChannel.toNat ∧ 7 + 1 ≤ blank.cfg.cap ∧
    1 ≤ [(0x12 : Byte)].length := by decide

theorem test_witness_CallsOutOfRangeAreRefused : blank.cfg.cap < 8 + 1 ∧ 7 + 1 ≤ blank.cfg.cap ∧
    ([] : List Byte).length < 1 := by decide

theorem test_witness_SetWs2812Commits :
    blank.dstate = .idle ∧ blank.bp.wf = true ∧ wellFormed blank.cfg instrFA = true ∧
    isAddressed blank.cfg 0x00 = true ∧ (7 : Fin 8).val = 7 - (0x00 : Byte).toNat % 8 ∧
    isPermutation 0xE1 3 = true ∧
    (0xC78AD30B : Word) = crc32 (0x55 :: 0x50 :: 0x58 :: 0x4C :: 0x00 :: 0x01 :: 3 :: 0xE1 ::
      (le16Bytes 2 ++ [0x10, 0x20, 0x30, 0xFF, 0x00, 0x80])) := by decide +kernel

theorem test_witness_SetApa102DataCommits :
    blank.dstate = .idle ∧ blank.bp.wf = true ∧ wellFormed blank.cfg instrFB = true ∧
    isAddressed blank.cfg 0x01 = true ∧ (6 : Fin 8).val = 7 - (0x01 : Byte).toNat % 8 ∧
    isPermutation 0x06 3 = true ∧
    (0xBB323207 : Word) = crc32 (0x55 :: 0x50 :: 0x58 :: 0x4C :: 0x01 :: 0x03 ::
      (le32Bytes 2000000 ++ 0x06 :: (le16Bytes 1 ++ [0x11, 0x22, 0x33]))) := by decide +kernel

theorem test_witness_SetApa102ClockCommits :
    blank.dstate = .idle ∧ blank.bp.wf = true ∧ (2000000 : Word) ≠ 0 ∧
    isAddressed blank.cfg 0x02 = true ∧ (5 : Fin 8).val = 7 - (0x02 : Byte).toNat % 8 ∧
    (0xACE1AE01 : Word)
      = crc32 (0x55 :: 0x50 :: 0x58 :: 0x4C :: 0x02 :: 0x04 :: le32Bytes 2000000) := by
  decide +kernel

theorem test_witness_CrcMismatchDisablesTheChannel :
    blank.dstate = .idle ∧ blank.bp.wf = true ∧
    bodyWellFormed blank.cfg (.apaClk 2000000) (some ⟨[], 0xACE1AE00⟩) = true ∧
    isAddressed blank.cfg 0x02 = true ∧ (5 : Fin 8).val = 7 - (0x02 : Byte).toNat % 8 ∧
    (0xACE1AE00 : Word) ≠ crc32 (coveredBytes 0x02 (.apaClk 2000000) []) := by decide +kernel

theorem test_witness_UnaddressedFramesChangeNothing :
    blank.dstate = .idle ∧
    bodyWellFormed blank.cfg (.ws 3 0xE4 1) (some ⟨[0xDE, 0xAD, 0xBE], 0x1E94F34C⟩) = true ∧
    isAddressed blank.cfg 0x0B = false := by decide

theorem test_witness_RefusedRecordsChangeNothing :
    blank.dstate = .idle ∧ precheck blank.cfg (.apaClk 0) = false ∧
    precheck blank.cfg (.ws 3 0xE4 3) = false := by decide

theorem test_witness_SetChannelFrame :
    blank.dstate = .idle ∧ blank.bp.wf = true ∧
    bodyWellFormed blank.cfg (.ws 3 0xE1 2)
      (some ⟨[0x10, 0x20, 0x30, 0xFF, 0x00, 0x80], 0xC78AD30B⟩) = true ∧
    goesOn (exec (setInstr 0x00 (.ws 3 0xE1 2)
      (some ⟨[0x10, 0x20, 0x30, 0xFF, 0x00, 0x80], 0xC78AD30B⟩)) blank) = true := by decide +kernel

theorem test_witness_DrawAllAttemptsADraw : blank.dstate = .idle ∧
    (0x4CA5C5E9 : Word) = crc32 [0x55, 0x50, 0x58, 0x4C, 0x00, 0x02] := by decide +kernel

theorem test_witness_DrawAllWithWrongCrcIsOnlyCounted : blank.dstate = .idle ∧
    (0x4CA5C5E8 : Word) ≠ crc32 [0x55, 0x50, 0x58, 0x4C, 0x00, 0x02] := by decide +kernel

/-- Busy; and an enabled WS2812 slot in the last tick of the latch window. -/
theorem test_witness_OverdrawIsCountedAndDropped :
    drawing.busy = true ∧ ¬ latchPermits { afterFA with latchCount := 1 } := by decide +kernel

/-- An enabled WS2812 slot of 8 bytes on a device whose transfers end at 48 bits. -/
def heavySlot : State := { blank with ch := blank.ch.set 7 ⟨.ws2812, 4, 0xE4, 2, 0⟩ }

/-- Nothing enabled; and 8 bytes against a limit of 48 bits (V-DRAW-5). -/
theorem test_witness_DrawOutsideTheSizeLimitsChangesNothing :
    (blank.busy = false ∧ latchPermits blank ∧ longestEnabled blank = 0) ∧
    (heavySlot.busy = false ∧ latchPermits heavySlot ∧
      heavySlot.cfg.maxBitCycles < longestEnabled heavySlot * 8) := by
  decide +kernel

/-- Six bytes, 48 bits: exactly the limit. -/
theorem test_witness_DrawArmsTheLongestChannel :
    afterFA.busy = false ∧ latchPermits afterFA ∧ 0 < longestEnabled afterFA ∧
    longestEnabled afterFA * 8 = afterFA.cfg.maxBitCycles := by decide +kernel

theorem test_witness_TickCountsTheLatchDown :
    { blank with latchCount := 1 }.latchCount ≠ 0 ∧ blank.latchCount = 0 := by decide

/-- From Idle, Busy and LatchWait. -/
theorem test_witness_SchedulerStateMachine :
    ∀ s ∈ [blank, drawing, { blank with latchCount := 1 }], s.cfg.Legal ∧
      goesOn (exec .xferDone s) = true ∧ goesOn (exec .tick s) = true ∧
      goesOn (exec .drawAttempt s) = true := by decide +kernel

/-- The transfer of V-DRAW-3 under way, its next lane to read being the last. -/
def lastLane : State := { drawing with lanesOut := List.replicate 47 0x00 }

theorem test_witness_TransferReadsOldOrNewLanes :
    lastLane.busy = true ∧ lastLane.arms.getLast? = some ⟨48, 0x80, 0x00, 0xFFFFFFFF⟩ ∧
    lastLane.lanesOut.length < 48 ∧ lastLane.lanesOut.length < 8 * lastLane.cfg.cap := by
  decide +kernel

/-- Meanwhile a frame comes in with a wrong trailer, of which the last byte waits in the queue. -/
def wrongCrc : State := after (decoderSteps 20 { lastLane with queue := frameFA.take 19 ++ [0x00] })

/-- A write of each kind: any write, ENCODE, FILL_ZERO, FILL_ONE, and the clean-up of a wrong CRC in
the step that reads the last byte of a frame. -/
theorem test_witness_TransferReadsOldOrNewLanes_writes :
    (setBp [] lastLane).bp ≠ lastLane.bp ∧
    (goesOn (exec (.encode 5 0 [0xFF] 1) lastLane) = true ∧
      (after (exec (.encode 5 0 [0xFF] 1) lastLane)).bp ≠ lastLane.bp) ∧
    (goesOn (exec (.fillZero 5 7 1) lastLane) = true ∧
      (after (exec (.fillZero 5 7 1) lastLane)).bp ≠ lastLane.bp) ∧
    (goesOn (exec (.fillOne 5 0 1) lastLane) = true ∧
      (after (exec (.fillOne 5 0 1) lastLane)).bp ≠ lastLane.bp) ∧
    (wrongCrc.busy = true ∧ wrongCrc.lanesOut.length < 48 ∧ wrongCrc.sched.head? ≠ some .reset ∧
      goesOn (step wrongCrc) = true ∧ (after (step wrongCrc)).bp ≠ wrongCrc.bp) := by
  decide +kernel

/-- The last lane, a lane that is not there, no lane left, and no transfer. -/
theorem test_witness_PipelineReadsItsNextLane :
    (lastLane.busy = true ∧ lastLane.arms.getLast? = some ⟨48, 0x80, 0x00, 0xFFFFFFFF⟩ ∧
      lastLane.lanesOut.length < 48 ∧ lastLane.lanesOut.length < 8 * lastLane.cfg.cap) ∧
    8 * { lastLane with cfg := { tiny with cap := 1 } }.cfg.cap ≤ lastLane.lanesOut.length ∧
    48 ≤ (reading 48).lanesOut.length ∧ blank.busy = false ∧ blank.arms = [] := by decide +kernel

/-- All lanes read, one lane short, and no transfer. -/
theorem test_witness_CompletionComesOnceAfterTheLastLane :
    ((reading 48).sched = [.xferDone] ∧ (reading 48).busy = true ∧
      (reading 48).arms.getLast? = some ⟨48, 0x80, 0x00, 0xFFFFFFFF⟩ ∧
      48 ≤ (reading 48).lanesOut.length) ∧
    ((reading 47).sched = [.xferDone] ∧
      (reading 47).arms.getLast? = some ⟨48, 0x80, 0x00, 0xFFFFFFFF⟩ ∧
      (reading 47).lanesOut.length < 48) ∧
    ((scheduled .xferDone).sched = [.xferDone] ∧ (scheduled .xferDone).busy = false) := by
  decide +kernel

theorem test_witness_TransferEmitsTheBufferAndCompletes :
    let s := { drawing with sched := List.replicate 48 (Move.emit 0) ++ Move.xferDone :: [] }
    s.busy = true ∧ s.arms.getLast? = some ⟨48, 0x80, 0x00, 0xFFFFFFFF⟩ ∧ s.lanesOut = [] ∧
      48 ≤ 8 * s.cfg.cap := by decide +kernel

theorem test_witness_InvariantsHoldAtReset : tiny.Legal := by decide

theorem test_witness_EveryStepKeepsTheInvariant : Invariant drawing :=
  ⟨by decide +kernel, by decide +kernel, by decide +kernel, by decide +kernel, by decide +kernel,
    by decide +kernel, by decide +kernel, by decide +kernel, by decide +kernel⟩

theorem chanByte_empty (c i : Nat) : chanByte [] c i = 0 := by
  apply BitVec.eq_of_getLsbD_eq
  intro j hj
  rw [chanByte_getLsbD _ _ _ _ hj]
  simp [laneRead]

theorem test_witness_EveryStepKeepsTailsClean :
    Invariant blank ∧ blank.cfg.tailFill ≠ .none ∧ TailsClean blank ∧ step blank = .next blank :=
  ⟨⟨by decide, by decide, by decide, by decide, by decide, by decide, by decide, by decide, by decide⟩,
    by decide,
    fun _ _ _ _ => .inl (chanByte_empty _ _), rfl⟩

theorem test_witness_CountersOnlyCountUp :
    goesOn (step (fed frameFD)) = true ∧ (fed frameFD).sched.head? ≠ some .reset := by decide +kernel

/-- Frame FA but for its last byte, which waits in the queue. -/
def lastByte : State := after (decoderSteps 20 (fed frameFA))

/-- After frame FA, with reset next. -/
def resetNext : State := { afterFA with sched := [.reset] }

/-- The whole frame, its last byte alone, and reset. -/
theorem test_witness_OnlyAddressedSetFramesWriteTheTable :
    (goesOn (step (fed frameFA)) = true ∧ (after (step (fed frameFA))).ch ≠ (fed frameFA).ch ∧
      (fed frameFA).sched = []) ∧
    (lastByte.dstate = .crc 3 ∧ lastByte.sched = [] ∧ lastByte.queue ≠ [] ∧
      goesOn (step lastByte) = true ∧ (after (step lastByte)).ch ≠ lastByte.ch) ∧
    (goesOn (step resetNext) = true ∧ (after (step resetNext)).ch ≠ resetNext.ch) := by decide +kernel

theorem test_witness_OnlyTheDecoderWritesTheBuffer :
    goesOn (step (fed frameFA)) = true ∧ (after (step (fed frameFA))).bp ≠ (fed frameFA).bp := by
  decide +kernel

/-- A transfer in flight, with reset next. -/
def resetWhileBusy : State := { drawing with sched := [.reset] }

/-- The completion event after the last lane; and reset. -/
theorem test_witness_OnlyCompletionClearsBusy :
    (goesOn (step (reading 48)) = true ∧ (reading 48).busy = true ∧
      (after (step (reading 48))).busy = false) ∧
    (goesOn (step resetWhileBusy) = true ∧ resetWhileBusy.busy = true ∧
      (after (step resetWhileBusy)).busy = false) := by decide +kernel

theorem test_witness_TransfersAreArmedOnlyWhenNotBusy :
    let s := { afterFA with queue := frameFD }
    Invariant s ∧ goesOn (step s) = true ∧ (after (step s)).arms ≠ s.arms ∧
      (s.busy = false ∧ (after (step s)).busy = true) ∧ s.sched.head? ≠ some .reset :=
  ⟨⟨by decide +kernel, by decide +kernel, by decide +kernel, by decide +kernel, by decide +kernel,
    by decide +kernel, by decide +kernel, by decide +kernel, by decide +kernel⟩, by decide +kernel,
    by decide +kernel, by decide +kernel, by decide +kernel⟩

theorem test_witness_QuiescentMachinesStay : quiescent blank = true ∧ blank.sched = [] := by decide

end Sys2Proof.Tests
end

/-! PROOFS of the family 20_memory: the Byte Transport's primitives. -/

namespace Sys2Proof.Proofs.Memory

open Sys2Proof Sys2Proof.Machine

/-- `ReadByte()` waits while `Q` is empty (20_memory R62). -/
theorem readByte_of_queue_nil {s : State} (hq : s.queue = []) : readByte s = none := by
  simp only [readByte, hq]

/-- `ReadByte()` takes the first byte of `Q` and appends it to `A` (20_memory R62). -/
theorem readByte_of_queue_cons {s : State} {b : Byte} {q : List Byte} (hq : s.queue = b :: q) :
    readByte s = some (b, { s with queue := q, crcAcc := s.crcAcc ++ [b] }) := by
  simp only [readByte, hq]

/-- Settles O15: the empty queue by `readByte_of_queue_nil` and `decoderStep_holds`, a byte in front
by `readByte_of_queue_cons`. -/
theorem readByteConsumesAndAccumulates : Obligations.ReadByteConsumesAndAccumulates := fun _ =>
  ⟨fun hq => ⟨readByte_of_queue_nil hq, fun hd => decoderStep_holds hd hq⟩,
    fun _ _ hq => readByte_of_queue_cons hq⟩

end Sys2Proof.Proofs.Memory

/-! PROOFS of the family 40_bitplane_ops: ENCODE and FILL_ZERO. What they do to lane bits is read off
the laws of the channel bytes, `encodeOp_chanByte` and `fillOp_chanByte`. -/

namespace Sys2Proof.Proofs.BitPlane

open Sys2Proof Sys2Proof.Machine

/-! ### Lane bits and channel bytes -/

/-- Every lane bit is a bit of a channel byte, most significant first (00_scope R17). -/
theorem laneRead_getLsbD_eq_chanByte (m : Memory) (c L : Nat) :
    (laneRead m L).getLsbD c = (chanByte m c (L / 8)).getLsbD (7 - L % 8) := by
  rw [chanByte_getLsbD _ _ _ _ (by omega)]
  congr 2
  omega

/-- A lane is in the blocks `off .. off + n - 1` when it is one of their `8 * n` lanes. -/
theorem block_range_iff (off n L : Nat) :
    (off ≤ L / 8 ∧ L / 8 < off + n) ↔ (8 * off ≤ L ∧ L < 8 * (off + n)) := by
  omega

/-- The byte a fill leaves has `v` in each bit (40 R114, R115). -/
theorem fillByte_getLsbD (v : Bool) {j : Nat} (hj : j < 8) : (fillByte v).getLsbD j = v := by
  cases v
  · simp [fillByte]
  · unfold fillByte; interval_cases j <;> rfl

/-- The lane bits after ENCODE (40 R111, R117). -/
theorem encodeOp_getLsbD {off n : Nat} {c : Byte} {bytes : List Byte} {s t : State}
    (hwf : s.bp.wf = true) (h : encodeOp off c bytes n s = .next t) (c' L : Nat) :
    (laneRead t.bp L).getLsbD c' =
      if c.toNat < 8 ∧ c' = c.toNat ∧ 8 * off ≤ L ∧ L < 8 * (off + n)
      then (bytes.getD (L / 8 - off) 0).getLsbD (7 - L % 8)
      else (laneRead s.bp L).getLsbD c' := by
  simp only [laneRead_getLsbD_eq_chanByte, encodeOp_chanByte hwf h, block_range_iff]
  split <;> rfl

/-- The lane bits after a fill (40 R114, R115, R117). -/
theorem fillOp_getLsbD {v : Bool} {off n : Nat} {c : Byte} {s t : State}
    (hwf : s.bp.wf = true) (h : fillOp v off c n s = .next t) (c' L : Nat) :
    (laneRead t.bp L).getLsbD c' =
      if c.toNat < 8 ∧ c' = c.toNat ∧ 8 * off ≤ L ∧ L < 8 * (off + n) then v
      else (laneRead s.bp L).getLsbD c' := by
  simp only [laneRead_getLsbD_eq_chanByte, fillOp_chanByte hwf h, block_range_iff]
  split
  · exact fillByte_getLsbD v (by omega)
  · rfl

/-! ### What the operations leave unchanged -/

/-- ENCODE changes the buffer, its earlier contents and nothing else. -/
theorem encodeOp_frame {off n : Nat} {c : Byte} {bytes : List Byte} {s t : State}
    (h : encodeOp off c bytes n s = .next t) : t = { s with bp := t.bp, pastBp := t.pastBp } := by
  obtain ⟨-, -, rfl⟩ := encodeOp_eq_next h
  split <;> rfl

/-- A fill changes the buffer, its earlier contents and nothing else. -/
theorem fillOp_frame {v : Bool} {off n : Nat} {c : Byte} {s t : State}
    (h : fillOp v off c n s = .next t) : t = { s with bp := t.bp, pastBp := t.pastBp } := by
  obtain ⟨-, rfl⟩ := fillOp_eq_next h
  split <;> rfl

/-- ENCODE on no channel, or of no bytes, writes nothing (40 R111, R112). -/
theorem encodeOp_writesNothing {off n : Nat} {c : Byte} {bytes : List Byte} {s t : State}
    (h : encodeOp off c bytes n s = .next t) (hnone : 8 ≤ c.toNat ∨ n = 0) : t = s := by
  obtain ⟨-, -, rfl⟩ := encodeOp_eq_next h
  rcases hnone with hc | rfl
  · exact if_pos hc
  · simp [putBytes]

/-- A fill on no channel, or of no blocks, writes nothing (40 R112, R114, R115). -/
theorem fillOp_writesNothing {v : Bool} {off n : Nat} {c : Byte} {s t : State}
    (h : fillOp v off c n s = .next t) (hnone : 8 ≤ c.toNat ∨ n = 0) : t = s := by
  obtain ⟨-, rfl⟩ := fillOp_eq_next h
  rcases hnone with hc | rfl
  · exact if_pos hc
  · simp [fillLanes]

/-! ### ENCODE -/

/-- In range and with enough source bytes the instruction ENCODE is `encodeOp`, which answers, and
the position it returns (40 R111). -/
theorem exec_encode_inRange {off n : Nat} {c : Byte} {bytes : List Byte} {s : State}
    (hr : off + n ≤ s.cfg.cap) (hn : n ≤ bytes.length) :
    ∃ u, encodeOp off c bytes n s = .next u ∧
      exec (.encode off c bytes n) s = .next { u with encodeResult := off + n } := by
  have h := encodeOp_inRange (c := c) hr hn
  exact ⟨_, h, by simp only [exec, execEncode, h, andThen, encodeReturns]⟩

/-- Settles O23: the lane bits by `encodeOp_getLsbD`, the rest by `encodeOp_frame` and
`encodeOp_writesNothing`. -/
theorem encodeWritesLaneBits : Obligations.EncodeWritesLaneBits := by
  intro s off c bytes n hwf hr hn
  obtain ⟨u, hu, hexec⟩ := exec_encode_inRange (c := c) hr hn
  refine ⟨_, hexec, ?frame, fun hc i hi k hk => ?written, fun L c' hout => ?kept, fun hnone => ?none⟩
  case frame => rw [encodeOp_frame hu]
  case written =>
    have hblock : (8 * (off + i) + k) / 8 - off = i := by omega
    have hbit : (8 * (off + i) + k) % 8 = k := by omega
    rw [encodeOp_getLsbD hwf hu, if_pos ⟨by omega, rfl, by omega, by omega⟩, hblock, hbit]
  case kept => rw [encodeOp_getLsbD hwf hu, if_neg fun hin => hout hin.2]
  case none => rw [encodeOp_writesNothing hu hnone]

/-- Settles O24: block `off + i` of `encodeOp_chanByte`. -/
theorem encodeThenReadBackGivesTheBytes : Obligations.EncodeThenReadBackGivesTheBytes := by
  intro s off c bytes n hwf hc hr hn
  obtain ⟨u, hu, hexec⟩ := exec_encode_inRange (c := c) hr hn
  refine ⟨_, hexec, fun i hi => ?_⟩
  rw [encodeOp_chanByte hwf hu, if_pos ⟨by omega, rfl, by omega, by omega⟩, Nat.add_sub_cancel_left]

/-! ### FILL_ZERO -/

/-- Settles O25: the instruction is `fillOp false`; its lane bits by `fillOp_getLsbD`, its bytes by
`fillOp_chanByte`, the rest by `fillOp_frame` and `fillOp_writesNothing`. -/
theorem fillZeroClearsTheBlocks : Obligations.FillZeroClearsTheBlocks := by
  intro s off c blockCount hwf hr
  have h := fillOp_inRange (v := false) (c := c) hr
  refine ⟨_, h, fillOp_frame h, fun hc L c' => ?lanes, fun hc i hlo hhi => ?bytes,
    fillOp_writesNothing h⟩
  case lanes => simp only [fillOp_getLsbD hwf h, show c.toNat < 8 by omega, true_and]
  case bytes =>
    rw [fillOp_chanByte hwf h, if_pos ⟨by omega, rfl, hlo, hhi⟩]
    rfl

end Sys2Proof.Proofs.BitPlane

/-! PROOFS of the family 41_frame_decoder: the byte-wise steps. -/

namespace Sys2Proof.Proofs.FrameDecoder

open Sys2Proof Sys2Proof.Machine

/-- With a byte in front of the queue a step reads it and goes on with what the rules attach to it
(41 R130). -/
theorem withByte_of_queue_cons {s : State} {b : Byte} {q : List Byte} (hq : s.queue = b :: q)
    (f : Byte → State → Outcome) :
    withByte s f = f b { s with queue := q, crcAcc := s.crcAcc ++ [b] } := by
  simp only [withByte, Memory.readByte_of_queue_cons hq]

/-- One step of the magic scan compares the byte it reads (41 R130, R132). -/
theorem decoderStep_of_dstate_magic {s : State} {i : Fin 4} {b : Byte} {q : List Byte}
    (hd : s.dstate = .magic i) (hq : s.queue = b :: q) :
    decoderStep s = stepMagic i b { s with queue := q, crcAcc := s.crcAcc ++ [b] } := by
  simp only [decoderStep, hd, withByte_of_queue_cons hq]

/-- A byte that is `MAGIC[i]` moves the scan on, after the last one to the header (41 R132). -/
theorem stepMagic_match {i : Fin 4} {b : Byte} (hb : b = magicByte i) (s : State) :
    stepMagic i b s = .next { s with dstate := if i = 3 then .hdr 0 else .magic (i + 1) } :=
  if_pos hb

/-- A miss counts one, modulo `2^CNT_W`, and returns to S_IDLE, where the latches are arbitrary
(41 R133, 10_state R33, R39). -/
theorem raiseError_magic (s : State) :
    raiseError .magic s = { s with
      cntFrameMiss := (s.cntFrameMiss + 1) % 2 ^ s.cfg.cntW, dstate := .idle,
      lat := anyLatches s.drawn, drawn := s.drawn + 1 } := rfl

/-- Settles O17: the step compares the byte it reads; a match by `stepMagic_match`, a miss by
`stepMagic_miss` and `raiseError_magic`. -/
theorem magicScanComparesOneByte : Obligations.MagicScanComparesOneByte := by
  intro s i b q hd hq
  rw [decoderStep_of_dstate_magic hd hq]
  refine ⟨fun hmatch => ?hit, fun hmiss => ⟨anyLatches s.drawn, s.drawn + 1, ?miss⟩⟩
  case hit => exact stepMagic_match hmatch _
  case miss => rw [stepMagic_miss hmiss, raiseError_magic]

end Sys2Proof.Proofs.FrameDecoder

/-! PROOFS of the family 43_draw_scheduler: the draw attempt. -/

namespace Sys2Proof.Proofs.DrawScheduler

open Sys2Proof Sys2Proof.Machine

/-- The instruction makes one draw attempt and is never refused (43 R192). -/
theorem exec_drawAttempt (s : State) : exec .drawAttempt s = .next (drawAttempt s) := rfl

/-- An overdraw is counted modulo `2^CNT_W` and leaves every other component (10_state R33). -/
theorem countError_overdraw (s : State) :
    countError .overdraw s = { s with cntOverdraw := (s.cntOverdraw + 1) % 2 ^ s.cfg.cntW } := rfl

/-- A failed busy or latch test makes the attempt an overdraw: the other outcomes of
`drawAttempt_cases` need both tests to pass (43 R194). -/
theorem drawAttempt_of_rejected {s : State} (hrej : s.busy = true ∨ ¬ latchPermits s) :
    drawAttempt s = countError .overdraw s := by
  have not_passed (hidle : s.busy = false) (hlatch : latchPermits s) : False := by
    rcases hrej with hbusy | hwindow
    · simp [hidle] at hbusy
    · exact hwindow hlatch
  obtain ⟨-, hdrop⟩ | ⟨hidle, hlatch, -⟩ | ⟨hidle, hlatch, -⟩ := drawAttempt_cases s
  · exact hdrop
  · exact (not_passed hidle hlatch).elim
  · exact (not_passed hidle hlatch).elim

/-- Settles O39: whichever test rejects, the attempt is the overdraw `drawAttempt_of_rejected`, and
`countError_overdraw` says what that counts. -/
theorem overdrawIsCountedAndDropped : Obligations.OverdrawIsCountedAndDropped := by
  intro s hrej
  rw [exec_drawAttempt, drawAttempt_of_rejected hrej, countError_overdraw]

end Sys2Proof.Proofs.DrawScheduler

/-! PROOFS of the family 30_encoding: the decoder and the encoder are inverse to each other. Both
directions go record by record: `decodeRecord_record` reads a parameter block, `decodeRecord_instr`
says what can have been read. -/

namespace Sys2Proof.Proofs.Encoding

open Sys2Proof Sys2Proof.Machine

/-! ### Set-channel instructions -/

theorem setInstr_wellFormed {cfg : Config} {r : Record} {body : Option Payload}
    (h : bodyWellFormed cfg r body = true) (ch : Byte) :
    wellFormed cfg (setInstr ch r body) = true := by
  cases r with
  | ws n o px => exact h
  | apaData f o px => exact h
  | apaClk f => simpa only [setInstr, wellFormed, clockBody_eq h] using h

theorem setInstr_encode {cfg : Config} {r : Record} {body : Option Payload}
    (h : bodyWellFormed cfg r body = true) (ch : Byte) :
    encode (setInstr ch r body) = some (setFrameBytes ch r body) := by
  cases r with
  | ws n o px => rfl
  | apaData f o px => rfl
  | apaClk f => simp only [setInstr, encode, clockBody_eq h]

/-! ### From an encoding -/

/-- After the magic and two header bytes the record is read (41 R136). -/
theorem decode_header (cfg : Config) (ch t : Byte) (bs : List Byte) :
    decode cfg (magic ++ ch :: t :: bs) = decodeRecord cfg ch t bs := rfl

/-- A parameter block is read back as the record it was made from (30_encoding R84, R87, R88). -/
theorem decodeRecord_record (cfg : Config) (ch : Byte) (r : Record) (bs : List Byte) :
    decodeRecord cfg ch (recordType r) (paramBytes r ++ bs) = decodeBody cfg r (setInstr ch r) bs := by
  cases r with
  | ws n o px =>
    show decodeBody cfg (.ws n o (le16 (px.extractLsb' 0 8) (px.extractLsb' 8 8)))
      (setInstr ch (.ws n o (le16 (px.extractLsb' 0 8) (px.extractLsb' 8 8)))) bs = _
    rw [le16_of_bytes]
  | apaData f o px =>
    show decodeBody cfg (.apaData (le32 (f.extractLsb' 0 8) (f.extractLsb' 8 8)
        (f.extractLsb' 16 8) (f.extractLsb' 24 8)) o (le16 (px.extractLsb' 0 8) (px.extractLsb' 8 8)))
      (setInstr ch (.apaData (le32 (f.extractLsb' 0 8) (f.extractLsb' 8 8)
        (f.extractLsb' 16 8) (f.extractLsb' 24 8)) o
        (le16 (px.extractLsb' 0 8) (px.extractLsb' 8 8)))) bs = _
    rw [le16_of_bytes, le32_of_bytes]
  | apaClk f =>
    show decodeBody cfg (.apaClk (le32 (f.extractLsb' 0 8) (f.extractLsb' 8 8)
        (f.extractLsb' 16 8) (f.extractLsb' 24 8)))
      (setInstr ch (.apaClk (le32 (f.extractLsb' 0 8) (f.extractLsb' 8 8)
        (f.extractLsb' 16 8) (f.extractLsb' 24 8)))) bs = _
    rw [le32_of_bytes]

theorem decodeRecord_drawAll (cfg : Config) (ch : Byte) (crc : Word) (bs : List Byte) :
    decodeRecord cfg ch typeDrawAll (le32Bytes crc ++ bs) = .instr (.drawAll ch crc) bs := by
  show (match decodeTrailer (le32Bytes crc ++ bs) with
    | some (crc, rest) => Decoded.instr (.drawAll ch crc) rest
    | none => .rejected .incomplete) = _
  rw [decodeTrailer_bytes]

/-- The first byte that differs from the magic ends the scan (41 R132). -/
theorem scanMagic_miss {i : Fin 4} {b : Byte} (hb : b ≠ magicByte i) (rest : List Byte) :
    scanMagic magicIndexed (magic.take i.val ++ b :: rest) = .missed i b rest := by
  match i, hb with
  | 0, hb => exact if_neg hb
  | 1, hb => exact if_neg hb
  | 2, hb => exact if_neg hb
  | 3, hb => exact if_neg hb

theorem decode_magicMiss (cfg : Config) {i : Fin 4} {b : Byte} (hb : b ≠ magicByte i)
    (rest : List Byte) :
    decode cfg (magic.take i.val ++ b :: rest) = .instr (.magicMiss i b) rest := by
  simp only [decode, scanMagic_miss hb]

theorem decode_setFrameBytes {cfg : Config} {r : Record} {body : Option Payload}
    (h : bodyWellFormed cfg r body = true) (ch : Byte) (rest : List Byte) :
    decode cfg (setFrameBytes ch r body ++ rest) = .instr (setInstr ch r body) rest := by
  rw [setFrameBytes_eq, List.append_assoc]
  show decode cfg (magic ++ ch :: recordType r :: ((paramBytes r ++ bodyBytes body) ++ rest)) = _
  rw [decode_header, List.append_assoc, decodeRecord_record, decodeBody_bytes h]

/-- Settles O2: what has bytes is one of the three forms of `wireInstr_cases`, each read back by its
own lemma. -/
theorem decodeOfEncodeIsTheInstruction : Obligations.DecodeOfEncodeIsTheInstruction := by
  intro cfg i bs rest hwf henc
  rcases wireInstr_cases hwf henc with
    ⟨ch, r, body, rfl, hbody, rfl⟩ | ⟨ch, crc, rfl, rfl⟩ | ⟨k, b, rfl, hb, rfl⟩
  case inl => exact decode_setFrameBytes hbody ch rest
  case inr.inl => exact decodeRecord_drawAll cfg ch crc rest
  case inr.inr =>
    rw [List.append_assoc]
    exact decode_magicMiss cfg hb rest

/-! ### From a decoding -/

/-- Everything the decoder can read after the header (30_encoding R83). -/
theorem decodeRecord_instr {cfg : Config} {ch t : Byte} {bs rest : List Byte} {i : Instr}
    (h : decodeRecord cfg ch t bs = .instr i rest) :
    (∃ r body, t = recordType r ∧ i = setInstr ch r body ∧ bodyWellFormed cfg r body = true ∧
      bs = paramBytes r ++ (bodyBytes body ++ rest)) ∨
    (t = typeDrawAll ∧ ∃ crc, i = .drawAll ch crc ∧ bs = le32Bytes crc ++ rest) := by
  have of_body {r : Record} {ps : List Byte} (ht : t = recordType r) {q : List Byte}
      (hps : ps = paramBytes r) (hq : decodeBody cfg r (setInstr ch r) q = .instr i rest) :
      ∃ r body, t = recordType r ∧ i = setInstr ch r body ∧ bodyWellFormed cfg r body = true ∧
        ps ++ q = paramBytes r ++ (bodyBytes body ++ rest) := by
    obtain ⟨body, hi, hb, hbs⟩ := decodeBody_instr hq
    exact ⟨r, body, ht, hi, hb, by rw [hps, hbs]⟩
  unfold decodeRecord at h
  split at h
  case isTrue ht =>
    split at h
    · rename_i n o p0 p1 q
      exact .inl (of_body (r := .ws n o (le16 p0 p1)) (ps := [n, o, p0, p1]) ht
        (by simp only [paramBytes, le16Bytes_le16]) h)
    · cases h
  case isFalse =>
    split at h
    case isTrue ht =>
      split at h
      · rename_i crc q hq
        simp only [Decoded.instr.injEq] at h
        obtain ⟨rfl, rfl⟩ := h
        exact .inr ⟨ht, crc, rfl, decodeTrailer_some hq⟩
      · cases h
    case isFalse =>
      split at h
      case isTrue ht =>
        split at h
        · rename_i f0 f1 f2 f3 o p0 p1 q
          exact .inl (of_body (r := .apaData (le32 f0 f1 f2 f3) o (le16 p0 p1))
            (ps := [f0, f1, f2, f3, o, p0, p1]) ht
            (by simp only [paramBytes, le16Bytes_le16, le32Bytes_le32]; rfl) h)
        · cases h
      case isFalse =>
        split at h
        case isTrue ht =>
          split at h
          · rename_i f0 f1 f2 f3 q
            exact .inl (of_body (r := .apaClk (le32 f0 f1 f2 f3)) (ps := [f0, f1, f2, f3]) ht
              (by simp only [paramBytes, le32Bytes_le32]) h)
          · cases h
        case isFalse => cases h

/-- Everything the decoder can read (41 R148): a set-channel frame, a DRAW_ALL frame or a magic miss,
and the bytes it took for it. -/
theorem decode_instr {cfg : Config} {bs rest : List Byte} {i : Instr}
    (h : decode cfg bs = .instr i rest) :
    (∃ ch r body, i = setInstr ch r body ∧ bodyWellFormed cfg r body = true ∧
      bs = setFrameBytes ch r body ++ rest) ∨
    (∃ ch crc, i = .drawAll ch crc ∧ bs = headerBytes ch typeDrawAll ++ (le32Bytes crc ++ rest)) ∨
    (∃ k b, i = .magicMiss k b ∧ b ≠ magicByte k ∧ bs = magic.take k.val ++ b :: rest) := by
  rcases scanMagic_cases bs with ⟨q, hq, rfl⟩ | ⟨k, b, q, hq, hb, rfl⟩ | hq
  case inl =>
    match q with
    | ch :: t :: q =>
      rw [decode_header] at h
      rcases decodeRecord_instr h with ⟨r, body, rfl, rfl, hbody, rfl⟩ | ⟨rfl, crc, rfl, rfl⟩
      · exact .inl ⟨ch, r, body, rfl, hbody, by simp [setFrameBytes_eq]⟩
      · exact .inr (.inl ⟨ch, crc, rfl, rfl⟩)
    | [] => simp only [decode, hq] at h; cases h
    | [_] => simp only [decode, hq] at h; cases h
  case inr.inl =>
    rw [decode_magicMiss cfg hb] at h
    cases h
    exact .inr (.inr ⟨k, b, rfl, hb, rfl⟩)
  case inr.inr => simp only [decode, hq] at h; cases h

/-- Settles O3: each of the three forms of `decode_instr` is well-formed, and its bytes are its
encoding. -/
theorem encodeOfDecodeIsTheBytesConsumed : Obligations.EncodeOfDecodeIsTheBytesConsumed := by
  intro cfg bs rest i h
  rcases decode_instr h with
    ⟨ch, r, body, rfl, hbody, rfl⟩ | ⟨ch, crc, rfl, rfl⟩ | ⟨k, b, rfl, hb, rfl⟩
  case inl => exact ⟨setInstr_wellFormed hbody ch, _, setInstr_encode hbody ch, rfl⟩
  case inr.inl => exact ⟨rfl, _, rfl, by rw [List.append_assoc]⟩
  case inr.inr => exact ⟨by simpa [wellFormed] using hb, _, rfl, by rw [List.append_assoc]; rfl⟩

/-! ### Words of the tables, reserved types, several devices -/

/-- Settles O1: each word is the encoding of its instruction, which is well-formed with 6 bytes of
capacity, so that `decodeOfEncodeIsTheInstruction` reads it back. -/
theorem wordsOfTheTablesDecode : Obligations.WordsOfTheTablesDecode := by
  intro cfg hcap
  have read (i : Instr) (bs : List Byte) (hwf : wellFormed cfg i = true) (henc : encode i = some bs) :
      decode cfg bs = .instr i [] := by
    have h := decodeOfEncodeIsTheInstruction cfg i bs [] hwf henc
    rwa [List.append_nil] at h
  have ws_fits : precheck cfg (.ws 3 0xE1 2) = true := by
    simp [precheck, hcap]
  have apa_fits : precheck cfg (.apaData 2000000 0x06 1) = true := by
    simp [precheck, show 4 ≤ cfg.cap by omega]
  refine ⟨read _ _ ?_ (by decide), read _ _ rfl (by decide), read _ _ ?_ (by decide),
    read _ _ rfl (by decide), read _ _ rfl (by decide)⟩
  · simp only [wellFormed, bodyWellFormed, ws_fits]
    rfl
  · simp only [wellFormed, bodyWellFormed, apa_fits]
    rfl

/-- A byte outside 1 to 4 is none of the four record types. -/
theorem reserved_ne {t : Byte} (ht : t = 0x00 ∨ 0x05 ≤ t.toNat) :
    t ≠ 0x01 ∧ t ≠ 0x02 ∧ t ≠ 0x03 ∧ t ≠ 0x04 := by
  rcases ht with rfl | ht
  · decide
  · refine ⟨?_, ?_, ?_, ?_⟩ <;> (rintro rfl; revert ht; decide)

theorem decode_reserved (cfg : Config) (ch : Byte) {t : Byte} (ht : t = 0x00 ∨ 0x05 ≤ t.toNat)
    (rest : List Byte) :
    decode cfg (magic ++ ch :: t :: rest) = .rejected (.reservedType ch t rest) := by
  obtain ⟨h1, h2, h3, h4⟩ := reserved_ne ht
  rw [decode_header]
  unfold decodeRecord
  rw [if_neg h1, if_neg h2, if_neg h3, if_neg h4]

/-- Settles O4: by `decode_reserved`. -/
theorem reservedRecordTypesAreRejected : Obligations.ReservedRecordTypesAreRejected :=
  fun cfg ch _ rest ht => decode_reserved cfg ch ht rest

/-- The configuration enters the decoder through the precheck alone, and the precheck reads `CAP`
alone (60 R242). -/
theorem precheck_congr {cfg cfg' : Config} (h : cfg.cap = cfg'.cap) :
    precheck cfg = precheck cfg' := by
  funext r
  cases r with
  | ws n o px => simp only [precheck, h]
  | apaData f o px => simp only [precheck, h]
  | apaClk f => rfl

theorem decodeRecord_congr {cfg cfg' : Config} (h : cfg.cap = cfg'.cap) :
    decodeRecord cfg = decodeRecord cfg' := by
  have hbody : decodeBody cfg = decodeBody cfg' := by
    funext r mk bs
    simp only [decodeBody, precheck_congr h]
  funext ch t bs
  simp only [decodeRecord, hbody]

/-- Settles O5: by `decodeRecord_congr`. -/
theorem devicesOfEqualCapacityStayInStep : Obligations.DevicesOfEqualCapacityStayInStep := by
  intro cfg cfg' bs h
  simp only [decode, decodeRecord_congr h]

/-! ### Fields, precheck, CRC -/

/-- A channel byte with bit 7 or 6 set has a bus field past every 3-bit identity (30_encoding R82). -/
theorem isAddressed_highBits (cfg : Config) {ch : Byte}
    (h : ch.getLsbD 7 = true ∨ ch.getLsbD 6 = true) : isAddressed cfg ch = false := by
  have large : ∀ ch : Byte, ch.getLsbD 7 = true ∨ ch.getLsbD 6 = true → 64 ≤ ch.toNat := by
    decide +kernel
  have hch := large ch h
  have hbus := cfg.busId.isLt
  rw [← Bool.not_eq_true, isAddressed_iff]
  omega

/-- Settles O6: by the laws of the channel byte and `isAddressed_highBits`. -/
theorem channelByteFields : Obligations.ChannelByteFields := fun cfg ch =>
  ⟨isAddressed_iff cfg ch, isAddressed_highBits cfg, physOf_addressed, physOf_unaddressed⟩

/-- Settles O7: each clause is the definition of the precheck on one record. -/
theorem precheckConditions : Obligations.PrecheckConditions := by
  intro cfg n ord px f
  refine ⟨?ws, ?data, ?clock⟩
  case ws => simp only [precheck, Bool.and_eq_true, Bool.or_eq_true, beq_iff_eq, decide_eq_true_eq]
  case data => simp only [precheck, Bool.and_eq_true, bne_iff_ne, decide_eq_true_eq]
  case clock => simp only [precheck, bne_iff_ne]

/-- Settles O8: three closed values. -/
theorem crcCheckValues : Obligations.CrcCheckValues := by
  unfold Obligations.CrcCheckValues
  decide +kernel

end Sys2Proof.Proofs.Encoding

/-! PROOFS: the byte-wise decoder and the instruction agree (spec 41_frame_decoder R130 to R148). A run
of the decoder is cut at the stages of Laws/Invocation: magic, header, parameter block, pixels, trailer.
What the instruction does to the decoder's working state is moved out of the way by the laws that the
operations do not look at it. -/

namespace Sys2Proof.Proofs.ByteWise

open Sys2Proof Sys2Proof.Machine Encoding

/-- Trigger, magic and header (41 R131 to R135). -/
theorem steps_toHeader {s : State} {ch t : Byte} {q : List Byte} (hd : s.dstate = .idle)
    (ht : s.cfg.triggerMin ≤ s.queue.length) (hq : s.queue = magic ++ ch :: t :: q) (n : Nat) :
    decoderSteps (6 + n + 1) s
      = decoderSteps n (dispatchRecord (working (.hdr 1)
          { s.lat with
            hChannel := ch
            hType := t
            addressed := isAddressed s.cfg ch
            phys := physOf s.cfg ch } q (headerBytes ch t) s)) := by
  rw [steps_trigger hd ht, show 6 + n = 4 + (2 + n) by omega, decoderSteps_add, hq, steps_magic,
    andThen_next, decoderSteps_add, steps_header, andThen_next]
  rfl

/-- Trailer and `Finish()` of DRAW_ALL (41 R142, R143). -/
theorem steps_drawTrailer {l : Latches} (ht : l.hType = typeDrawAll) (w : Word) (q a : List Byte)
    (s : State) :
    decoderSteps 4 (working (.crc 0) l (le32Bytes w ++ q) a s)
      = .next (endInvocation (working .idle l q (a ++ le32Bytes w)
          (finishDraw (w == l.crcLocal) s))) := by
  obtain ⟨l', ht', -, -, -, hlocal, hwire, hsteps⟩ := steps_trailer w l q a s
  rw [hsteps, finish_draw (by rw [ht', ht]), hlocal, hwire]
  rfl

/-- Trailer and `Finish()` of a set-channel record (41 R142, R143). -/
theorem steps_setTrailer {l : Latches} {r : Record} (ht : l.hType ≠ typeDrawAll)
    (hr : recordOf l.hType l.par = some r) (w : Word) (q a : List Byte) (s : State) :
    decoderSteps 4 (working (.crc 0) l (le32Bytes w ++ q) a s)
      = andThen (finishSet r l.addressed l.phys (w == l.crcLocal) s)
          fun u => .next (endInvocation (working .idle l q (a ++ le32Bytes w) u)) := by
  obtain ⟨l', ht', hpar, haddr, hphys, hlocal, hwire, hsteps⟩ := steps_trailer w l q a s
  rw [hsteps, finish_set (by rw [ht']; exact ht) (by rw [ht', hpar]; exact hr), haddr, hphys, hlocal,
    hwire, andThen_assoc]
  rfl

/-- The pixels of an accepted record, none or some, up to its trailer (41 R138 to R141). -/
theorem steps_acceptedPixels {l : Latches} {r : Record} {data : List Byte} {s : State}
    (hr : recordOf l.hType l.par = some r) (hp : precheck s.cfg r = true)
    (hlen : data.length = wireByteCount r) (d : DState) (q a : List Byte) :
    ∃ v l', loadPixels r l.phys (pixelCount r) 0 data s = .next v ∧
      l'.hType = l.hType ∧ l'.par = l.par ∧ l'.addressed = l.addressed ∧ l'.phys = l.phys ∧
      l'.crcLocal = crc32 (a ++ data) ∧
      andThen (paramsDone (working d l (data ++ q) a s)) (decoderSteps data.length)
        = .next (working (.crc 0) l' q (a ++ data) v) := by
  cases hcount : pixelCount r with
  | zero =>
    have hz : wireByteCount r = 0 := by simp only [wireByteCount, hcount, Nat.zero_mul]
    obtain rfl : data = [] := List.eq_nil_of_length_eq_zero (hlen.trans hz)
    refine ⟨s, { l with crcLocal := crc32 a }, rfl, rfl, rfl, rfl, rfl, ?_, ?_⟩
    · simp only [List.append_nil]
    · rw [paramsDone_empty hr hp hz]
      simp only [List.append_nil]
      rfl
  | succ n =>
    have hw := wireElems_range hp (by omega)
    have hz : wireByteCount r ≠ 0 := Nat.mul_ne_zero (by omega) (by omega)
    obtain ⟨v, hv⟩ := loadPixels_next (r := r) (count := n + 1) (p := 0) (s := s)
      (by rw [Nat.zero_add, ← hcount]; exact newLen_le_cap hp) l.phys data
    obtain ⟨l', hsteps⟩ := steps_pixels r hw n data { l with pIdx := 0, eIdx := 0 } q a s v hr
      (by rw [hlen, wireByteCount, hcount]) rfl (by simp [hcount]) hv
    exact ⟨v, l', hv, by rwa [paramsDone_pixels hr hp hz, andThen_next]⟩

/-- From S_IDLE to the end of a parameter block (41 R131 to R138). -/
theorem steps_toRecord {s : State} {ch : Byte} {r : Record} {q : List Byte} (hd : s.dstate = .idle)
    (ht : s.cfg.triggerMin ≤ s.queue.length)
    (hq : s.queue = magic ++ ch :: recordType r :: (paramBytes r ++ q)) (n : Nat) :
    ∃ l d, l.hType = recordType r ∧ l.addressed = isAddressed s.cfg ch ∧
      l.phys = physOf s.cfg ch ∧ recordOf l.hType l.par = some r ∧
      decoderSteps (6 + ((paramBytes r).length + n) + 1) s
        = andThen (paramsDone (working d l q (coveredBytes ch r []) s)) (decoderSteps n) := by
  obtain ⟨l, d, htype, haddr, hphys, hrec, hparams⟩ := steps_params r
    { s.lat with
      hChannel := ch
      hType := recordType r
      addressed := isAddressed s.cfg ch
      phys := physOf s.cfg ch } q (headerBytes ch (recordType r)) s rfl
  refine ⟨l, d, htype, haddr, hphys, hrec, ?_⟩
  rw [steps_toHeader hd ht hq, dispatchRecord_set rfl, decoderSteps_add, hparams, coveredBytes,
    List.append_nil]

/-- The instruction on a complete frame, with the decoder's working state set only at the end. -/
theorem runSet_eq_working (ch : Byte) (r : Record) (p : Payload) (l : Latches) (rest : List Byte)
    (s : State) :
    runSet ch r (some p) { s with queue := rest }
      = andThen (loadPixels r (physOf s.cfg ch) (pixelCount r) 0 p.data s) fun v =>
          andThen (finishSet r (isAddressed s.cfg ch) (physOf s.cfg ch)
              (p.crc == crc32 (coveredBytes ch r p.data)) v)
            fun u => .next (endInvocation (working .idle l rest (setFrameBytes ch r (some p)) u)) := by
  show andThen (loadPixels r _ _ _ _
    (working s.dstate s.lat rest (setFrameBytes ch r (some p)) s)) _ = _
  rw [loadPixels_blind, andThen_assoc]
  congr 1
  funext v
  rw [andThen_next, finishSet_blind, andThen_assoc]
  rfl

/-- A refused set-channel record byte by byte (41 R139). -/
theorem decoderSteps_refusedFrame {s : State} {ch : Byte} {r : Record} {rest : List Byte}
    (hd : s.dstate = .idle) (ht : s.cfg.triggerMin ≤ s.queue.length)
    (hq : s.queue = setFrameBytes ch r none ++ rest) (hp : precheck s.cfg r = false) :
    decoderSteps ((setFrameBytes ch r none).length + 1) s
      = runSet ch r none { s with queue := rest } := by
  have hlen : (setFrameBytes ch r none).length = 6 + ((paramBytes r).length + 0) := by
    simp [setFrameBytes_eq, bodyBytes, magic]
    omega
  obtain ⟨l, d, -, -, -, hrec, hsteps⟩ := steps_toRecord (ch := ch) (r := r) (q := rest) hd ht
    (by simp [hq, setFrameBytes_eq, bodyBytes]) 0
  rw [hlen, hsteps, paramsDone_refused hrec hp]
  rfl

/-- A complete set-channel frame byte by byte (41 R138 to R143). -/
theorem decoderSteps_acceptedFrame {s : State} {ch : Byte} {r : Record} {p : Payload}
    {rest : List Byte} (hd : s.dstate = .idle) (ht : s.cfg.triggerMin ≤ s.queue.length)
    (hq : s.queue = setFrameBytes ch r (some p) ++ rest) (hp : precheck s.cfg r = true)
    (hdata : p.data.length = wireByteCount r) :
    decoderSteps ((setFrameBytes ch r (some p)).length + 1) s
      = runSet ch r (some p) { s with queue := rest } := by
  have hlen : (setFrameBytes ch r (some p)).length
      = 6 + ((paramBytes r).length + (p.data.length + 4)) := by
    simp [setFrameBytes_eq, bodyBytes, magic]
    omega
  obtain ⟨l, d, htype, haddr, hphys, hrec, hsteps⟩ :=
    steps_toRecord (ch := ch) (r := r) (q := p.data ++ (le32Bytes p.crc ++ rest)) hd ht
      (by simp [hq, setFrameBytes_eq, bodyBytes]) (p.data.length + 4)
  obtain ⟨v, l', hload, htype', hpar', haddr', hphys', hlocal, hpix⟩ :=
    steps_acceptedPixels (q := le32Bytes p.crc ++ rest) (a := coveredBytes ch r []) hrec hp hdata d
  have hset : l'.hType ≠ typeDrawAll := by rw [htype', htype]; exact (recordType_isSet r).1
  have hcovered : coveredBytes ch r [] ++ p.data = coveredBytes ch r p.data := by
    simp [coveredBytes]
  have hpix4 : andThen (paramsDone (working d l (p.data ++ (le32Bytes p.crc ++ rest))
        (coveredBytes ch r []) s)) (decoderSteps (p.data.length + 4))
      = decoderSteps 4 (working (.crc 0) l' (le32Bytes p.crc ++ rest)
          (coveredBytes ch r p.data) v) := by
    rw [funext (decoderSteps_add p.data.length 4), ← andThen_assoc, hpix, andThen_next, hcovered]
  rw [hphys] at hload
  rw [hlen, hsteps, hpix4, steps_setTrailer hset (by rw [htype', hpar']; exact hrec),
    hlocal, hcovered, haddr', haddr, hphys', hphys, runSet_eq_working ch r p l', hload, andThen_next]
  rfl

/-- A DRAW_ALL frame byte by byte (41 R137, R143, 43 R190). -/
theorem decoderSteps_drawFrame {s : State} {ch : Byte} {crc : Word} {rest : List Byte}
    (hd : s.dstate = .idle) (ht : s.cfg.triggerMin ≤ s.queue.length)
    (hq : s.queue = headerBytes ch typeDrawAll ++ (le32Bytes crc ++ rest)) :
    decoderSteps (6 + 4 + 1) s = .next (runDrawAll ch crc { s with queue := rest }) := by
  rw [steps_toHeader (q := le32Bytes crc ++ rest) hd ht hq, dispatchRecord_draw rfl, steps_drawTrailer rfl]
  show _ = Host.Outcome.next (endInvocation (finishDraw _
    (working s.dstate s.lat rest (wireBytes (.drawAll ch crc)) s)))
  rw [finishDraw_working]
  rfl

/-- A magic miss byte by byte (41 R133). -/
theorem decoderSteps_miss {s : State} {k : Fin 4} {b : Byte} {rest : List Byte}
    (hd : s.dstate = .idle) (ht : s.cfg.triggerMin ≤ s.queue.length) (hb : b ≠ magicByte k)
    (hq : s.queue = magic.take k.val ++ b :: rest) :
    decoderSteps (k.val + 1 + 1) s
      = .next (raiseError .magic (working .idle s.lat rest (magic.take k.val ++ [b]) s)) := by
  rw [steps_trigger hd ht, hq, steps_miss k b hb]

/-- At S_IDLE a magic miss is counted, its bytes read (41 R133). -/
theorem exec_magicMiss {s : State} {k : Fin 4} {b : Byte} (hd : s.dstate = .idle)
    (hb : b ≠ magicByte k) :
    exec (.magicMiss k b) s
      = .next (raiseError .magic { s with crcAcc := magic.take k.val ++ [b] }) :=
  if_pos (by simp [hd, wellFormed, hb])

/-- At S_IDLE a DRAW_ALL frame is one invocation (43 R190). -/
theorem exec_drawAll {s : State} (hd : s.dstate = .idle) (ch : Byte) (crc : Word) :
    exec (.drawAll ch crc) s = .next (runDrawAll ch crc s) := by
  simp only [exec, execDrawAll, hd]

/-- Settles O13: by the form of the frame, `decode_instr`. -/
theorem byteByByteRunIsTheInstruction : Obligations.ByteByByteRunIsTheInstruction := by
  intro s i bs rest hd ht hdec henc
  rcases decode_instr hdec with
    ⟨ch, r, body, rfl, hbody, hq⟩ | ⟨ch, crc, rfl, hq⟩ | ⟨k, b, rfl, hb, hq⟩
  case inl =>
    rw [setInstr_encode hbody, Option.some.injEq] at henc
    rw [exec_setInstr (s := { s with queue := rest }) hd hbody, ← henc]
    cases body with
    | none => exact decoderSteps_refusedFrame hd ht hq (by simpa [bodyWellFormed] using hbody)
    | some p =>
      obtain ⟨hp, hdata⟩ : precheck s.cfg r = true ∧ p.data.length = wireByteCount r := by
        simpa [bodyWellFormed] using hbody
      exact decoderSteps_acceptedFrame hd ht hq hp hdata
  case inr.inl =>
    cases henc
    rw [exec_drawAll (s := { s with queue := rest }) hd]
    exact decoderSteps_drawFrame hd ht hq
  case inr.inr =>
    cases henc
    have hlen : (magic.take k.val ++ [b]).length = k.val + 1 := by simp [magic]
    rw [exec_magicMiss (s := { s with queue := rest }) hd hb, hlen, decoderSteps_miss hd ht hb hq]
    rfl

end Sys2Proof.Proofs.ByteWise

/-! PROOFS: what a step can do, said once for every agent. `DecoderMove` is everything the decoder can
do in one step, and `StepKind` adds the moves of the other agents; the statements about what only one
agent may change are read off them. -/

namespace Sys2Proof.Proofs.StepKinds

open Sys2Proof Sys2Proof.Machine Encoding ByteWise

/-! ### The last trailer byte -/

/-- What the decoder does at the end of the frame in progress, but for the return to S_IDLE
(41 R143). -/
def frameEnd (crcOk : Bool) (s : State) : Outcome :=
  if s.lat.hType = typeDrawAll then .next (finishDraw crcOk s)
  else
    match recordOf s.lat.hType s.lat.par with
    | none => .refused .decoderStateUnreachable
    | some r => finishSet r s.lat.addressed s.lat.phys crcOk s

theorem frameEnd_draw {s : State} (h : s.lat.hType = typeDrawAll) (crcOk : Bool) :
    frameEnd crcOk s = .next (finishDraw crcOk s) := if_pos h

theorem frameEnd_set {s : State} {r : Record} (h : s.lat.hType ≠ typeDrawAll)
    (hr : recordOf s.lat.hType s.lat.par = some r) (crcOk : Bool) :
    frameEnd crcOk s = finishSet r s.lat.addressed s.lat.phys crcOk s := by
  rw [frameEnd, if_neg h, hr]

theorem frameEnd_none {s : State} (h : s.lat.hType ≠ typeDrawAll)
    (hr : recordOf s.lat.hType s.lat.par = none) (crcOk : Bool) :
    frameEnd crcOk s = .refused .decoderStateUnreachable := by
  rw [frameEnd, if_neg h, hr]

/-- The step that reads the last trailer byte ends the frame (41 R142, R143). -/
theorem decoderStep_lastByte {s : State} {b : Byte} {q : List Byte} (hd : s.dstate = .crc 3)
    (hq : s.queue = b :: q) :
    ∃ crcOk, decoderStep s = andThen (frameEnd crcOk s) fun u =>
      .next (endInvocation (working .idle s.lat q (s.crcAcc ++ [b]) u)) := by
  have he : s = working (.crc 3) s.lat (b :: q) s.crcAcc s := by rw [← hd, ← hq]; rfl
  have hstep : decoderStep s = stepCrc 3 b (working (.crc 3) s.lat q (s.crcAcc ++ [b]) s) := by
    conv_lhs => rw [he]
    exact decoderStep_crc _ _ _ _ _ _
  rw [hstep, stepCrc_last rfl]
  generalize le32 (s.lat.t.set 3 b)[0] (s.lat.t.set 3 b)[1] (s.lat.t.set 3 b)[2]
    (s.lat.t.set 3 b)[3] = w
  refine ⟨w == s.lat.crcLocal, ?_⟩
  by_cases ht : s.lat.hType = typeDrawAll
  · rw [finish_draw (l := { s.lat with t := s.lat.t.set 3 b, crcWire := w }) ht, frameEnd_draw ht]
    rfl
  · cases hr : recordOf s.lat.hType s.lat.par with
    | none =>
      rw [finish_noRecord (l := { s.lat with t := s.lat.t.set 3 b, crcWire := w }) ht hr,
        frameEnd_none ht hr]
      rfl
    | some r =>
      rw [finish_set (l := { s.lat with t := s.lat.t.set 3 b, crcWire := w }) ht hr,
        frameEnd_set ht hr, andThen_assoc]
      rfl

/-! ### The decoder's moves -/

/-- Everything the decoder can do in one step from `s`: stay quiet, be it in a step inside a frame or
at a miss or a refused record read as a whole, end a DRAW_ALL frame, read the last trailer byte of a
set-channel frame, or, where `whole` allows it, run a whole set-channel frame. -/
inductive DecoderMove (whole : Prop) (s : State) : State → Prop
  | quiet {t : State} (h : QuietStep s t)
      (hsrc : (decoderStep s = .next t ∧ (s.dstate ≠ .crc 3 ∨ s.queue = [])) ∨
        (s.dstate = .idle ∧ t.dstate = .idle ∧ t.bp = s.bp)) : DecoderMove whole s t
  | draw (crcOk : Bool) (q a : List Byte)
      (hsrc : s.dstate = .idle ∨ (s.dstate = .crc 3 ∧ s.lat.hType = typeDrawAll)) :
      DecoderMove whole s (endInvocation (working .idle s.lat q a (finishDraw crcOk s)))
  | lastByte {r : Record} {crcOk : Bool} {u : State} (q a : List Byte)
      (hd : s.dstate = .crc 3) (hq : s.queue ≠ []) (ht : s.lat.hType ≠ typeDrawAll)
      (hr : recordOf s.lat.hType s.lat.par = some r)
      (hfin : finishSet r s.lat.addressed s.lat.phys crcOk s = .next u) :
      DecoderMove whole s (endInvocation (working .idle s.lat q a u))
  | frame {ch : Byte} {r : Record} {p : Payload} {rest : List Byte} {crcOk : Bool} {v u : State}
      (a : List Byte) (hw : whole) (hd : s.dstate = .idle)
      (hdec : decode s.cfg s.queue = .instr (setInstr ch r (some p)) rest)
      (hb : bodyWellFormed s.cfg r (some p) = true)
      (hload : loadPixels r (physOf s.cfg ch) (pixelCount r) 0 p.data s = .next v)
      (hfin : finishSet r (isAddressed s.cfg ch) (physOf s.cfg ch) crcOk v = .next u) :
      DecoderMove whole s (endInvocation (working .idle s.lat rest a u))

/-- A decoder step that does not end a frame is quiet (41 R130). -/
theorem decoderStep_quiet {s t : State} (h : decoderStep s = .next t)
    (hin : s.dstate ≠ .crc 3 ∨ s.queue = []) : QuietStep s t := by
  rcases decoderStep_cases h with hquiet | ⟨hd, -⟩
  · exact hquiet
  · have hq : s.queue = [] := hin.resolve_left fun hne => hne hd
    cases (decoderStep_holds (by simp [hd]) hq).symm.trans h
    exact ⟨rfl, .inl rfl, KeepsForm.refl _ _, .same rfl rfl⟩

/-- Everything one decoder step can do. -/
theorem decoderStep_move {s t : State} (whole : Prop) (h : decoderStep s = .next t) :
    DecoderMove whole s t := by
  by_cases hin : s.dstate ≠ .crc 3 ∨ s.queue = []
  · exact .quiet (decoderStep_quiet h hin) (.inl ⟨h, hin⟩)
  obtain ⟨hd, hne⟩ : s.dstate = .crc 3 ∧ s.queue ≠ [] := by simpa using hin
  obtain ⟨b, q, hq⟩ := List.exists_cons_of_ne_nil hne
  obtain ⟨crcOk, hstep⟩ := decoderStep_lastByte hd hq
  obtain ⟨u, hend, ht⟩ := andThen_eq_next.1 (hstep.symm.trans h)
  cases ht
  by_cases htype : s.lat.hType = typeDrawAll
  · cases (frameEnd_draw htype crcOk).symm.trans hend
    exact .draw crcOk q _ (.inr ⟨hd, htype⟩)
  · cases hr : recordOf s.lat.hType s.lat.par with
    | none => cases (frameEnd_none htype hr crcOk).symm.trans hend
    | some r => exact .lastByte q _ hd hne htype hr ((frameEnd_set htype hr crcOk).symm.trans hend)

/-- Everything the instruction in front of an idle decoder can do. -/
theorem exec_decoded_move {s t : State} {i : Instr} {rest : List Byte} {whole : Prop} (hw : whole)
    (hd : s.dstate = .idle) (hdec : decode s.cfg s.queue = .instr i rest)
    (h : exec i { s with queue := rest } = .next t) : DecoderMove whole s t := by
  rcases decode_instr hdec with ⟨ch, r, body, rfl, hb, -⟩ | ⟨ch, crc, rfl, -⟩ | ⟨k, b, rfl, hb, -⟩
  case inl =>
    rw [exec_setInstr (s := { s with queue := rest }) hd hb] at h
    cases body with
    | none =>
      cases h
      exact .quiet (quietStep_raise .record (.inr (.inr rfl)) s.dstate s.lat rest _ s)
        (.inr ⟨hd, rfl, rfl⟩)
    | some p =>
      rw [runSet_eq_working ch r p s.lat] at h
      obtain ⟨v, hload, h⟩ := andThen_eq_next.1 h
      obtain ⟨u, hfin, h⟩ := andThen_eq_next.1 h
      cases h
      exact .frame _ hw hd hdec hb hload hfin
  case inr.inl =>
    rw [exec_drawAll (s := { s with queue := rest }) hd] at h
    cases h
    have hrun : runDrawAll ch crc { s with queue := rest }
        = endInvocation (finishDraw (crc == crc32 (headerBytes ch typeDrawAll))
            (working s.dstate s.lat rest (wireBytes (.drawAll ch crc)) s)) := rfl
    rw [hrun, finishDraw_working]
    exact .draw _ rest _ (.inl hd)
  case inr.inr =>
    rw [exec_magicMiss (s := { s with queue := rest }) hd hb] at h
    cases h
    exact .quiet (quietStep_raise .magic (.inl rfl) s.dstate s.lat rest _ s)
      (.inr ⟨hd, rfl, rfl⟩)

/-- Everything one invocation can do. -/
theorem invocation_move {s t : State} {whole : Prop} (hw : whole) (h : invocation s = .next t) :
    DecoderMove whole s t := by
  rcases invocation_cases s with
    hstep | ⟨hd, -, ⟨i, rest, hdec, hexec⟩ | ⟨ch, ty, rest, -, hend⟩⟩
  · exact decoderStep_move whole (hstep ▸ h)
  · exact exec_decoded_move hw hd hdec (hexec ▸ h)
  · rw [hend] at h
    cases h
    exact .quiet (quietStep_raise .recType (.inr (.inl rfl)) s.dstate s.lat rest _ s)
      (.inr ⟨hd, rfl, rfl⟩)

/-! ### The other agents' moves -/

/-- `s` with the move at the head of its schedule taken off. -/
def afterMove (s : State) : State := { s with sched := s.sched.tail }

/-- The decoder moves: nothing is scheduled, or a move of the decoder is. -/
def DecoderScheduled (s : State) : Prop :=
  s.sched = [] ∨ s.sched.head? = some .decode ∨ s.sched.head? = some .invocation

/-- Whole invocations are run. -/
def InvocationScheduled (s : State) : Prop :=
  s.sched = [] ∨ s.sched.head? = some .invocation

/-- Everything a step from `s` can do. -/
inductive StepKind (s : State) : State → Prop
  | decoder {t : State} (hs : DecoderScheduled s)
      (h : DecoderMove (InvocationScheduled s) (afterMove s) t) : StepKind s t
  | byte (b : Byte) (hs : s.sched.head? = some (.byte b)) : StepKind s (linkByte b (afterMove s))
  | complete (hs : s.sched.head? = some .xferDone) (hc : transferComplete s = true) :
      StepKind s { afterMove s with
        busy := false, latchCount := s.cfg.latchTicks, pastBp := [] }
  | stay (hs : s.sched.head? = some .xferDone ∨ ∃ v, s.sched.head? = some (.emit v)) :
      StepKind s (afterMove s)
  | tick (hs : s.sched.head? = some .tick) :
      StepKind s { afterMove s with latchCount := s.latchCount - 1 }
  | emit {v : Nat} {a : Arm} (b : Byte) (hs : s.sched.head? = some (.emit v)) (hb : s.busy = true)
      (ha : s.arms.getLast? = some a) (hl : s.lanesOut.length < a.bitCount) :
      StepKind s { afterMove s with lanesOut := s.lanesOut ++ [b] }
  | reset (hs : s.sched.head? = some .reset) : StepKind s (applyReset (afterMove s))

/-- A tick takes 1 from the latch counter, which stays at 0 (43 R197). -/
theorem exec_tick (s : State) : exec .tick s = .next { s with latchCount := s.latchCount - 1 } := by
  cases hl : s.latchCount with
  | zero =>
    have he : { s with latchCount := 0 } = s := by rw [← hl]
    simp only [exec, execTick, hl]
    exact congrArg Host.Outcome.next he.symm
  | succ n => simp [exec, execTick, hl]

theorem runMove_kind {s t : State} {m : Move} {ms : List Move} (hs : s.sched = m :: ms)
    (h : runMove m { s with sched := ms } = .next t) : StepKind s t := by
  have he : { s with sched := ms } = afterMove s := by simp only [afterMove, hs, List.tail_cons]
  have hhead : s.sched.head? = some m := by simp only [hs, List.head?_cons]
  rw [he] at h
  cases m with
  | decode => exact .decoder (.inr (.inl hhead)) (decoderStep_move _ h)
  | invocation => exact .decoder (.inr (.inr hhead)) (invocation_move (.inr hhead) h)
  | byte b =>
    cases h
    exact .byte b hhead
  | xferDone =>
    rcases completeTransfer_cases (afterMove s) with ⟨hc, hrun⟩ | ⟨-, hrun⟩
    · cases hrun.symm.trans h
      exact .complete hhead hc
    · cases hrun.symm.trans h
      exact .stay (.inl hhead)
  | tick =>
    cases (exec_tick _).symm.trans h
    exact .tick hhead
  | emit v =>
    rcases emitLane_cases v (afterMove s) with hrun | ⟨a, b, hb, ha, hl, hrun⟩ | ⟨a, -, -, -, hrun⟩
    · cases hrun.symm.trans h
      exact .stay (.inr ⟨v, hhead⟩)
    · cases hrun.symm.trans h
      exact .emit b hhead hb ha hl
    · cases hrun.symm.trans h
  | reset =>
    cases h
    exact .reset hhead

/-- Everything a step can do. -/
theorem step_kind {s t : State} (h : step s = .next t) : StepKind s t := by
  rcases step_cases s with ⟨hs, hstep⟩ | ⟨m, ms, hs, hstep⟩
  · have he : afterMove s = s := by simp only [afterMove, hs, List.tail_nil]; rw [← hs]
    refine .decoder (.inl hs) ?_
    rw [he]
    exact invocation_move (.inl hs) (hstep ▸ h)
  · exact runMove_kind hs (hstep ▸ h)

end Sys2Proof.Proofs.StepKinds

/-! PROOFS of the family 10_state: what a step can change of the configuration, the table, the buffer
and `busy`, each by the cases of `step_kind`. -/

namespace Sys2Proof.Proofs.StepKinds

open Sys2Proof Sys2Proof.Machine

/-! ### The ends of a frame -/

/-- What the end of a set-channel frame can change, its pixels included: the table, the buffer, the CRC
counter by at most 1, and the count of free values. -/
structure RecordEnd (s u : State) : Prop where
  changes : u = { s with
    ch := u.ch, bp := u.bp, pastBp := u.pastBp, cntCrcErr := u.cntCrcErr, drawn := u.drawn }
  crc : u.cntCrcErr = s.cntCrcErr ∨ u.cntCrcErr = increment s.cfg s.cntCrcErr
  history : KeepsHistory s u

theorem recordEnd_of_finishSet {r : Record} {addressed crcOk : Bool} {phys : Byte} {s u : State}
    (h : finishSet r addressed phys crcOk s = .next u) : RecordEnd s u := by
  obtain ⟨hchanges, hcrc, -, -, -, hhist⟩ := finishSet_cases h
  refine ⟨by rw [hchanges], ?_, hhist⟩
  rw [hcrc]
  cases crcOk
  · exact .inr rfl
  · exact .inl rfl

theorem recordEnd_of_frame {r : Record} {addressed crcOk : Bool} {phys : Byte} {n p : Nat}
    {data : List Byte} {s v u : State} (hload : loadPixels r phys n p data s = .next v)
    (h : finishSet r addressed phys crcOk v = .next u) : RecordEnd s u := by
  have hsame := loadPixels_sameButBuffer hload
  obtain ⟨hchanges, hcrc, hhist⟩ := recordEnd_of_finishSet h
  refine ⟨?_, ?_, (loadPixels_keepsHistory hload).trans hsame.busy hhist⟩
  · rw [hsame] at hchanges
    exact hchanges
  · rw [hsame] at hcrc
    exact hcrc

/-- What a transfer in flight is known by: its configuration, busy, its call, and the lanes read. -/
structure SameFlight (s t : State) : Prop where
  cfg : t.cfg = s.cfg
  busy : t.busy = s.busy
  arms : t.arms = s.arms
  lanesOut : t.lanesOut = s.lanesOut

theorem quietStep_sameFlight {s t : State} (h : QuietStep s t) : SameFlight s t := by
  constructor <;> rw [h.1]

theorem RecordEnd.sameFlight {s u : State} (h : RecordEnd s u) : SameFlight s u := by
  constructor <;> rw [h.changes]

/-- The return to S_IDLE leaves the transfer in flight alone. -/
theorem SameFlight.ended {s u : State} (h : SameFlight s u) (l : Latches) (q a : List Byte) :
    SameFlight s (endInvocation (working .idle l q a u)) := ⟨h.cfg, h.busy, h.arms, h.lanesOut⟩

/-- Taking a move off the schedule does not touch the transfer in flight. -/
theorem SameFlight.of_afterMove {s t : State} (h : SameFlight (afterMove s) t) : SameFlight s t :=
  ⟨h.cfg, h.busy, h.arms, h.lanesOut⟩

/-- What the end of a DRAW_ALL frame can change (43 R190 to R195). -/
theorem finishDraw_changes (crcOk : Bool) (s : State) :
    finishDraw crcOk s = { s with
      cntCrcErr := (finishDraw crcOk s).cntCrcErr, cntDraws := (finishDraw crcOk s).cntDraws
      cntOverdraw := (finishDraw crcOk s).cntOverdraw, busy := (finishDraw crcOk s).busy
      arms := (finishDraw crcOk s).arms, lanesOut := (finishDraw crcOk s).lanesOut
      pastBp := (finishDraw crcOk s).pastBp } := by
  cases crcOk with
  | false => rfl
  | true =>
    have hrun : finishDraw true s = drawAttempt s := rfl
    rw [hrun, drawAttempt_changes s]

@[simp] theorem finishDraw_cfg (crcOk : Bool) (s : State) : (finishDraw crcOk s).cfg = s.cfg := by
  rw [finishDraw_changes]
@[simp] theorem finishDraw_ch (crcOk : Bool) (s : State) : (finishDraw crcOk s).ch = s.ch := by
  rw [finishDraw_changes]
@[simp] theorem finishDraw_bp (crcOk : Bool) (s : State) : (finishDraw crcOk s).bp = s.bp := by
  rw [finishDraw_changes]

/-! ### The configuration -/

theorem DecoderMove.cfg {whole : Prop} {s t : State} (h : DecoderMove whole s t) : t.cfg = s.cfg := by
  cases h with
  | quiet h hsrc => exact (quietStep_sameFlight h).cfg
  | draw crcOk q a hsrc => exact finishDraw_cfg crcOk s
  | lastByte q a hd hq ht hr hfin => exact (recordEnd_of_finishSet hfin).sameFlight.cfg
  | frame a hw hd hdec hb hload hfin => exact (recordEnd_of_frame hload hfin).sameFlight.cfg

/-- Settles O53: the moves other than the decoder's write no configuration input. -/
theorem configurationIsConstant : Obligations.ConfigurationIsConstant := by
  intro s t h
  cases step_kind h with
  | decoder hs h => exact h.cfg
  | byte b hs => rfl
  | complete hs hc => rfl
  | stay hs => rfl
  | tick hs => rfl
  | emit b hs hb ha hl => rfl
  | reset hs => rfl

/-! ### The counters -/

/-- Each counter is left or counted up once (10_state R31). -/
def CountsUp (s t : State) : Prop :=
  (t.cntCrcErr = s.cntCrcErr ∨ t.cntCrcErr = increment s.cfg s.cntCrcErr) ∧
  (t.cntFrameMiss = s.cntFrameMiss ∨ t.cntFrameMiss = increment s.cfg s.cntFrameMiss) ∧
  (t.cntDraws = s.cntDraws ∨ t.cntDraws = increment s.cfg s.cntDraws) ∧
  (t.cntOverdraw = s.cntOverdraw ∨ t.cntOverdraw = increment s.cfg s.cntOverdraw)

theorem countsUp_refl (s : State) : CountsUp s s := ⟨.inl rfl, .inl rfl, .inl rfl, .inl rfl⟩

theorem countsUp_finishDraw (crcOk : Bool) (s : State) : CountsUp s (finishDraw crcOk s) := by
  cases crcOk with
  | false => exact ⟨.inr rfl, .inl rfl, .inl rfl, .inl rfl⟩
  | true =>
    show CountsUp s (drawAttempt s)
    rcases drawAttempt_cases s with ⟨-, h⟩ | ⟨-, -, -, h⟩ | ⟨-, -, -, -, h⟩ <;> rw [h]
    · exact ⟨.inl rfl, .inl rfl, .inl rfl, .inr rfl⟩
    · exact countsUp_refl s
    · exact ⟨.inl rfl, .inl rfl, .inr rfl, .inl rfl⟩

theorem RecordEnd.countsUp {s u : State} (h : RecordEnd s u) : CountsUp s u :=
  ⟨h.crc, .inl (by rw [h.changes]), .inl (by rw [h.changes]), .inl (by rw [h.changes])⟩

theorem DecoderMove.countsUp {whole : Prop} {s t : State} (h : DecoderMove whole s t) :
    CountsUp s t := by
  cases h with
  | quiet h hsrc =>
    obtain ⟨hchanges, hmiss, -⟩ := h
    exact ⟨.inl (by rw [hchanges]), hmiss, .inl (by rw [hchanges]), .inl (by rw [hchanges])⟩
  | draw crcOk q a hsrc => exact countsUp_finishDraw crcOk s
  | lastByte q a hd hq ht hr hfin => exact (recordEnd_of_finishSet hfin).countsUp
  | frame a hw hd hdec hb hload hfin => exact (recordEnd_of_frame hload hfin).countsUp

/-- Settles O54: only decoder moves count, each as `DecoderMove.countsUp` says. -/
theorem countersOnlyCountUp : Obligations.CountersOnlyCountUp := by
  intro s t h hreset
  show CountsUp s t
  cases step_kind h with
  | decoder hs h => exact h.countsUp
  | byte b hs => exact countsUp_refl s
  | complete hs hc => exact countsUp_refl s
  | stay hs => exact countsUp_refl s
  | tick hs => exact countsUp_refl s
  | emit b hs hb ha hl => exact countsUp_refl s
  | reset hs => exact absurd hs hreset

/-! ### The table -/

/-- Settles O55: of the decoder's moves only the two ends of a set-channel frame touch the table, and
`finishSet_cases` leaves it alone on an unaddressed frame. -/
theorem onlyAddressedSetFramesWriteTheTable : Obligations.OnlyAddressedSetFramesWriteTheTable := by
  intro s t h hne
  have addressed_of_write {r : Record} {addressed crcOk : Bool} {phys : Byte} {v u : State}
      (hfin : finishSet r addressed phys crcOk v = .next u) (hv : v.ch = s.ch) (hu : u.ch ≠ s.ch) :
      addressed = true := by
    obtain ⟨-, -, -, hkeeps, -⟩ := finishSet_cases hfin
    by_contra hun
    exact hu ((hkeeps (by simpa using hun)).1.trans hv)
  cases step_kind h with
  | decoder hs h =>
    cases h with
    | quiet h hsrc => exact absurd (by rw [h.1]; rfl) hne
    | draw crcOk q a hsrc => exact absurd (finishDraw_ch crcOk _) hne
    | lastByte q a hd hq ht hr hfin =>
      exact .inr (.inl ⟨hs, hq, hd, addressed_of_write hfin rfl hne, ht⟩)
    | frame a hw hd hdec hb hload hfin =>
      have hch := (loadPixels_sameButBuffer hload).ch
      exact .inr (.inr ⟨hw, hd, _, _, _, _, addressed_of_write hfin hch hne, hdec⟩)
  | byte b hs => exact absurd rfl hne
  | complete hs hc => exact absurd rfl hne
  | stay hs => exact absurd rfl hne
  | tick hs => exact absurd rfl hne
  | emit b hs hb ha hl => exact absurd rfl hne
  | reset hs => exact .inl hs

/-! ### The buffer -/

/-- Settles O56: the moves other than the decoder's and reset leave the buffer. -/
theorem onlyTheDecoderWritesTheBuffer : Obligations.OnlyTheDecoderWritesTheBuffer := by
  intro s t h hne
  cases step_kind h with
  | decoder hs h => exact hs.imp id (.imp id .inl)
  | byte b hs => exact absurd rfl hne
  | complete hs hc => exact absurd rfl hne
  | stay hs => exact absurd rfl hne
  | tick hs => exact absurd rfl hne
  | emit b hs hb ha hl => exact absurd rfl hne
  | reset hs => exact .inr (.inr (.inr hs))

/-! ### Transfers -/

/-- A decoder move ends a DRAW_ALL frame, or leaves the transfer in flight alone and no content of the
buffer is lost to it. -/
theorem DecoderMove.sameFlight {whole : Prop} {s t : State} (h : DecoderMove whole s t) :
    (∃ crcOk q a, t = endInvocation (working .idle s.lat q a (finishDraw crcOk s))) ∨
    (SameFlight s t ∧ KeepsHistory s t) := by
  cases h with
  | quiet h hsrc => exact .inr ⟨quietStep_sameFlight h, h.2.2.2⟩
  | draw crcOk q a hsrc => exact .inl ⟨crcOk, q, a, rfl⟩
  | lastByte q a hd hq ht hr hfin =>
    have hend := recordEnd_of_finishSet hfin
    exact .inr ⟨hend.sameFlight.ended _ _ _, hend.history⟩
  | frame a hw hd hdec hb hload hfin =>
    have hend := recordEnd_of_frame hload hfin
    exact .inr ⟨hend.sameFlight.ended _ _ _, hend.history⟩

/-- Everything the end of a DRAW_ALL frame can do to the transfer: leave it, or arm one while none is
in flight (43 R192 to R195). -/
theorem finishDraw_flight (crcOk : Bool) (s : State) :
    SameFlight s (finishDraw crcOk s) ∨
    (s.busy = false ∧ 0 < longestEnabled s ∧ longestEnabled s * 8 ≤ s.cfg.maxBitCycles ∧
      finishDraw crcOk s
        = armTransfer (drawArm s) { s with cntDraws := increment s.cfg s.cntDraws, busy := true }) := by
  cases crcOk with
  | false => exact .inl ⟨rfl, rfl, rfl, rfl⟩
  | true =>
    show SameFlight s (drawAttempt s) ∨ (_ ∧ _ ∧ _ ∧ drawAttempt s = _)
    rcases drawAttempt_cases s with ⟨-, h⟩ | ⟨-, -, -, h⟩ | ⟨hb, -, hpos, hmax, h⟩
    · rw [h]; exact .inl ⟨rfl, rfl, rfl, rfl⟩
    · rw [h]; exact .inl ⟨rfl, rfl, rfl, rfl⟩
    · exact .inr ⟨hb, hpos, hmax, h⟩

/-- Settles O57: a DRAW_ALL frame only sets `busy`, and the other moves that touch it are the
completion after the last lane and reset. -/
theorem onlyCompletionClearsBusy : Obligations.OnlyCompletionClearsBusy := by
  intro s t h hbusy hclear
  cases step_kind h with
  | decoder hs h =>
    rcases h.sameFlight with ⟨crcOk, q, a, rfl⟩ | ⟨hsame, -⟩
    · rcases finishDraw_flight crcOk (afterMove s) with hsame | ⟨hidle, -⟩
      · exact absurd (hsame.busy.symm.trans hclear) (by simp [afterMove, hbusy])
      · exact absurd hidle (by simp [afterMove, hbusy])
    · exact absurd (hsame.busy.symm.trans hclear) (by simp [afterMove, hbusy])
  | byte b hs => exact absurd (hbusy.symm.trans hclear) (by decide)
  | complete hs hc => exact .inr ⟨hs, ((transferComplete_iff s).1 hc).2⟩
  | stay hs => exact absurd (hbusy.symm.trans hclear) (by decide)
  | tick hs => exact absurd (hbusy.symm.trans hclear) (by decide)
  | emit b hs hb ha hl => exact absurd (hbusy.symm.trans hclear) (by decide)
  | reset hs => exact .inl hs

/-- A legal slot's length fits the channel (10_state R26). -/
theorem slotLen_le_of_slotOk {cfg : Config} {sl : Slot} (h : slotOk cfg sl = true) :
    slotLen sl ≤ cfg.cap := by
  obtain ⟨tag, n, ord, px, f⟩ := sl
  cases tag with
  | none => exact Nat.zero_le _
  | ws2812 =>
    simp only [slotOk, Bool.and_eq_true, decide_eq_true_eq] at h
    exact h.2
  | apaData =>
    simp only [slotOk, Bool.and_eq_true, decide_eq_true_eq] at h
    exact h.2
  | apaClk => exact Nat.zero_le _

/-- Settles O58: a step that changes the list of calls, or sets `busy`, ends a DRAW_ALL frame in the
arming case of `finishDraw_flight`; its bit count is that of the longest slot, which fits. -/
theorem transfersAreArmedOnlyWhenNotBusy : Obligations.TransfersAreArmedOnlyWhenNotBusy := by
  intro s t hinv h hreset harm
  have not_same (hsame : SameFlight s t) : False := by
    rcases harm with hne | ⟨hidle, hset⟩
    · exact hne hsame.arms
    · rw [hsame.busy, hidle] at hset
      cases hset
  cases step_kind h with
  | decoder hs h =>
    rcases h.sameFlight with ⟨crcOk, q, a, rfl⟩ | ⟨hsame, -⟩
    · rcases finishDraw_flight crcOk (afterMove s) with
        hsame | ⟨hidle, hpos, hmax, hrun⟩
      · exact (not_same (hsame.ended _ _ _).of_afterMove).elim
      · have hfits : longestEnabled (afterMove s) ≤ s.cfg.cap :=
          longestEnabled_le fun c => slotLen_le_of_slotOk (hinv.slots c)
        have hbits := drawArm_bitCount (afterMove s)
        have hmax : longestEnabled (afterMove s) * 8 ≤ s.cfg.maxBitCycles := hmax
        rw [hrun]
        exact ⟨hidle, rfl, rfl, drawArm (afterMove s), rfl, by omega, by omega, by omega⟩
    · exact (not_same hsame.of_afterMove).elim
  | byte b hs => exact (not_same ⟨rfl, rfl, rfl, rfl⟩).elim
  | complete hs hc =>
    rcases harm with hne | ⟨-, hset⟩
    · exact absurd rfl hne
    · cases hset
  | stay hs => exact (not_same ⟨rfl, rfl, rfl, rfl⟩).elim
  | tick hs => exact (not_same ⟨rfl, rfl, rfl, rfl⟩).elim
  | emit b hs hb ha hl =>
    rcases harm with hne | ⟨hidle, hset⟩
    · exact absurd rfl hne
    · exact absurd (hidle.symm.trans hset) (by decide)
  | reset hs => exact absurd hs hreset

/-! ### The race on the buffer -/

/-- The next lane of a transfer in flight, read from the content `v` writes ago (60 R237,
20_memory R71). -/
theorem emitLane_of_flight {s t : State} {a : Arm} {v : Nat} {m : Memory} (hsame : SameFlight s t)
    (hb : s.busy = true) (ha : s.arms.getLast? = some a) (hl : s.lanesOut.length < a.bitCount)
    (hc : s.lanesOut.length < 8 * s.cfg.cap) (hm : (t.bp :: t.pastBp).getD v t.bp = m) :
    emitLane v t = .next { t with lanesOut := s.lanesOut ++ [laneRead m s.lanesOut.length] } := by
  obtain ⟨hcfg, hbusy, harms, hlanes⟩ := hsame
  rw [emitLane_running (by rw [hbusy, hb]) (by rw [harms, ha]), hlanes, if_pos hl, hcfg, if_pos hc, hm]

/-- At most one write: while a transfer is in flight the content written over is the newest of the
earlier ones. -/
def OneWrite (s t : State) : Prop :=
  SameFlight s t ∧ (s.busy = true → t.bp ≠ s.bp → t.pastBp = s.bp :: s.pastBp)

theorem oneWrite_setBp (m : Memory) (s : State) : OneWrite s (setBp m s) := by
  refine ⟨⟨rfl, rfl, rfl, rfl⟩, fun hb hne => ?_⟩
  have hne : m ≠ s.bp := hne
  simp [hb, hne]

theorem oneWrite_refl (s : State) : OneWrite s s :=
  ⟨⟨rfl, rfl, rfl, rfl⟩, fun _ hne => absurd rfl hne⟩

theorem oneWrite_encode {off n : Nat} {c : Byte} {bytes : List Byte} {s t : State}
    (h : exec (.encode off c bytes n) s = .next t) : OneWrite s t := by
  obtain ⟨u, hu, h⟩ := andThen_eq_next.1 h
  obtain ⟨-, -, rfl⟩ := encodeOp_eq_next hu
  cases h
  split
  · exact ⟨⟨rfl, rfl, rfl, rfl⟩, fun _ hne => absurd rfl hne⟩
  · obtain ⟨⟨hcfg, hbusy, harms, hlanes⟩, hpast⟩ :=
      oneWrite_setBp (putBytes s.bp c.toNat off (bytes.take n)) s
    exact ⟨⟨hcfg, hbusy, harms, hlanes⟩, hpast⟩

theorem oneWrite_fill {v : Bool} {off n : Nat} {c : Byte} {s t : State}
    (h : fillOp v off c n s = .next t) : OneWrite s t := by
  obtain ⟨-, rfl⟩ := fillOp_eq_next h
  split
  · exact oneWrite_refl s
  · exact oneWrite_setBp _ s

/-- A step that writes the buffer, and is not reset, leaves the transfer in flight alone, and the
content written over stays readable to it. -/
theorem step_writes {s t : State} (h : step s = .next t) (hreset : s.sched.head? ≠ some .reset)
    (hne : t.bp ≠ s.bp) : SameFlight s t ∧ KeepsHistory s t := by
  cases step_kind h with
  | decoder hs h =>
    rcases h.sameFlight with ⟨crcOk, q, a, rfl⟩ | ⟨hsame, hhist⟩
    · exact absurd (finishDraw_bp crcOk (afterMove s)) hne
    · exact ⟨hsame.of_afterMove, hhist⟩
  | byte b hs => exact absurd rfl hne
  | complete hs hc => exact absurd rfl hne
  | stay hs => exact absurd rfl hne
  | tick hs => exact absurd rfl hne
  | emit b hs hb ha hl => exact absurd rfl hne
  | reset hs => exact absurd hs hreset

/-- Settles O45: a single write keeps the old content at version 1 (`OneWrite`); a step keeps it at
some version (`step_writes`). -/
theorem transferReadsOldOrNewLanes : Obligations.TransferReadsOldOrNewLanes := by
  intro s a hb ha hl hc
  refine ⟨fun t hw hne => ?write, fun t hstep hreset hne => ?step⟩
  case write =>
    have hone : OneWrite s t := by
      rcases hw with ⟨m, rfl⟩ | ⟨off, c, bytes, n, h⟩ | ⟨off, c, n, h⟩ | ⟨off, c, n, h⟩
      · exact oneWrite_setBp m s
      · exact oneWrite_encode h
      · exact oneWrite_fill h
      · exact oneWrite_fill h
    obtain ⟨hsame, hpast⟩ := hone
    exact ⟨emitLane_of_flight hsame hb ha hl hc rfl,
      emitLane_of_flight hsame hb ha hl hc (by rw [hpast hb hne]; rfl)⟩
  case step =>
    obtain ⟨hsame, hhist⟩ := step_writes hstep hreset hne
    obtain ⟨v, hv, hold⟩ := List.mem_iff_getElem.1 (hhist.mem hb hne)
    exact ⟨emitLane_of_flight hsame hb ha hl hc rfl, v + 1,
      emitLane_of_flight hsame hb ha hl hc (by simp [hv, hold])⟩

end Sys2Proof.Proofs.StepKinds

/-! PROOFS of the family 42_set_channel_records: a set-channel frame as an instruction. The tail fill
and the two commits are said once (`tailKept`, `tailFillByte`), then one lemma says what a committed
frame leaves in the table and in the channel (`exec_commits`); each record type reads its statement off
it. -/

namespace Sys2Proof.Proofs.SetChannel

open Sys2Proof Sys2Proof.Machine StepKinds

/-! ### Tail fill and commits -/

/-- The byte a tail fill leaves for record `r` (41 R147). -/
def tailFillByte (cfg : Config) (r : Record) : Byte :=
  if cfg.tailFill = .one ∧ (slotOf r).tag = .apaData then 0xFF else 0x00

/-- Committing record `r` over slot `old` leaves the tail as it was (41 R144, R147). -/
def tailKept (cfg : Config) (old : Slot) (r : Record) : Prop :=
  skipsTailFill old r = true ∨ (cfg.tailFill = .none ∧ (slotOf r).tag = .apaData)

theorem skipsTailFill_iff (old : Slot) (r : Record) :
    skipsTailFill old r = true ↔ old.tag = (slotOf r).tag ∧ slotLen old ≤ newLen r := by
  simp only [skipsTailFill, Bool.and_eq_true, beq_iff_eq, decide_eq_true_eq]

/-- `CommitMatch()` on the table: slot `c` is the record's (41 R144). -/
theorem commitMatch_ch {c : Fin 8} {r : Record} {s t : State} (h : commitMatch c r s = .next t) :
    t.ch = s.ch.set c.val (slotOf r) c.isLt := by
  rcases commitMatch_cases h with ⟨-, rfl⟩ | ⟨-, h⟩
  · rfl
  · exact (tailFill_sameButBuffer h).ch

/-- `CommitMatch()` on the buffer: nothing, or the blocks of channel `c` from the record's length to
CAP filled with `tailFillByte` (41 R144, R147). -/
theorem commitMatch_chanByte {c : Fin 8} {r : Record} {s t : State} (hwf : s.bp.wf = true)
    (h : commitMatch c r s = .next t) :
    (tailKept s.cfg s.ch[c] r ∧ t.bp = s.bp) ∨
    (¬ tailKept s.cfg s.ch[c] r ∧ ∀ c' i, chanByte t.bp c' i =
      if c' = c.val ∧ newLen r ≤ i ∧ i < s.cfg.cap then tailFillByte s.cfg r
      else chanByte s.bp c' i) := by
  rcases commitMatch_cases h with ⟨hskip, rfl⟩ | ⟨hskip, h⟩
  · exact .inl ⟨.inl hskip, rfl⟩
  rcases tailFill_cases h with ⟨rfl, hmode, htag⟩ | ⟨v, hfill, hv, hmode⟩
  · exact .inl ⟨.inr ⟨hmode, htag⟩, rfl⟩
  refine .inr ⟨?_, fun c' i => ?_⟩
  · rintro (hs | ⟨hnone, htag⟩)
    · rw [hskip] at hs
      cases hs
    · exact hmode htag hnone
  have hbyte : fillByte v = tailFillByte s.cfg r := by
    cases v
    · exact (if_neg fun hone => absurd (hv.2 hone) (by decide)).symm
    · exact (if_pos (hv.1 rfl)).symm
  have hrange := (fillOp_eq_next hfill).1
  have hcap : newLen r + (s.cfg.cap - newLen r) = s.cfg.cap ∨ s.cfg.cap < newLen r := by omega
  have h8 := c.isLt
  rw [fillOp_chanByte (s := { s with ch := s.ch.set c.val (slotOf r) c.isLt }) hwf hfill,
    ofNat_fin_toNat, hbyte]
  congr 1
  simp only [eq_iff_iff]
  omega

/-- `CommitMismatch()` on the buffer: channel `c` is zero up to CAP (41 R145). -/
theorem commitMismatch_chanByte {c : Fin 8} {s t : State} (hwf : s.bp.wf = true)
    (h : commitMismatch c s = .next t) (c' i : Nat) :
    chanByte t.bp c' i = if c' = c.val ∧ i < s.cfg.cap then 0x00 else chanByte s.bp c' i := by
  rw [fillOp_chanByte (s := { s with ch := s.ch.set c.val zeroSlot c.isLt }) hwf h, ofNat_fin_toNat]
  have h8 := c.isLt
  congr 1
  simp only [eq_iff_iff]
  omega

/-- One slot of a table after a write to slot `c`. -/
theorem getElem_set_slot (v : Vector Slot 8) (c k : Fin 8) (sl : Slot) :
    (v.set c.val sl c.isLt)[k] = if k = c then sl else v[k] := by
  show (v.set c.val sl c.isLt)[k.val] = _
  rw [Vector.getElem_set]
  by_cases hk : k = c
  · rw [if_pos (by rw [hk]), if_pos hk]
  · rw [if_neg fun he => hk (Fin.ext he.symm), if_neg hk]
    rfl

/-! ### An addressed frame -/

/-- The channel an addressed frame is for (41 R135). -/
theorem physOf_eq_channel {cfg : Config} {ch : Byte} {c : Fin 8} (ha : isAddressed cfg ch = true)
    (hc : c.val = 7 - ch.toNat % 8) : (physOf cfg ch).toNat = c.val := by
  rw [physOf_addressed ha, hc]

/-- A complete frame as an instruction: its pixels, then `Finish()` (42 R160). -/
theorem exec_frame {s : State} {r : Record} {p : Payload} (hd : s.dstate = .idle)
    (hb : bodyWellFormed s.cfg r (some p) = true) (ch : Byte) :
    ∃ u v,
      loadPixels r (physOf s.cfg ch) (pixelCount r) 0 p.data
        { s with crcAcc := setFrameBytes ch r (some p) } = .next u ∧
      finishSet r (isAddressed s.cfg ch) (physOf s.cfg ch)
        (p.crc == crc32 (coveredBytes ch r p.data)) u = .next v ∧
      exec (setInstr ch r (some p)) s = .next (endInvocation v) := by
  rw [exec_setInstr hd hb]
  exact runSet_cases hb

/-- A byte within the pixels of a record is within its length. -/
theorem pixel_lt_newLen {r : Record} {q k : Nat} (hq : q < pixelCount r) (hk : k < pixelBytes r) :
    q * pixelBytes r + k < newLen r := by
  have h : (q + 1) * pixelBytes r ≤ pixelCount r * pixelBytes r := Nat.mul_le_mul_right _ hq
  rw [Nat.add_mul, Nat.one_mul] at h
  simp only [newLen]
  omega

/-- Wire element `j` of pixel `q` (41 R140). -/
theorem wireElem_getD (data : List Byte) {q n j : Nat} (hj : j < n) :
    ((data.drop (q * n)).take n).getD j 0 = data.getD (q * n + j) 0 := by
  simp only [List.getD_eq_getElem?_getD, List.getElem?_take_of_lt hj, List.getElem?_drop]

/-- All wire elements of a pixel are there. -/
theorem wireElems_length {data : List Byte} {q n count : Nat} (hlen : data.length = count * n)
    (hq : q < count) : n ≤ ((data.drop (q * n)).take n).length := by
  have h : (q + 1) * n ≤ count * n := Nat.mul_le_mul_right _ hq
  rw [Nat.add_mul, Nat.one_mul] at h
  rw [List.length_take, List.length_drop]
  omega

/-- An addressed frame whose CRC matches: the slot is the record's, byte `k` of pixel `q` is what
assembly makes of that pixel's wire elements, and the tail is filled unless it is kept (41 R140, R144,
R147). -/
theorem exec_commits {s : State} {ch : Byte} {r : Record} {p : Payload} {c : Fin 8}
    (hd : s.dstate = .idle) (hwf : s.bp.wf = true) (hb : bodyWellFormed s.cfg r (some p) = true)
    (ha : isAddressed s.cfg ch = true) (hc : c.val = 7 - ch.toNat % 8)
    (hcrc : p.crc = crc32 (coveredBytes ch r p.data)) :
    ∃ t, exec (setInstr ch r (some p)) s = .next t ∧
      (∀ k : Fin 8, t.ch[k] = if k = c then slotOf r else s.ch[k]) ∧
      (∀ q k, q < pixelCount r → k < pixelBytes r → ∃ d,
        chanByte t.bp c.val (q * pixelBytes r + k) = (assemblePixel s.cfg r
          ((p.data.drop (q * wireElems r)).take (wireElems r)) d).1.getD k 0) ∧
      ∀ i, newLen r ≤ i → i < s.cfg.cap →
        (tailKept s.cfg s.ch[c] r → chanByte t.bp c.val i = chanByte s.bp c.val i) ∧
        (¬ tailKept s.cfg s.ch[c] r → chanByte t.bp c.val i = tailFillByte s.cfg r) := by
  have hphys := physOf_eq_channel ha hc
  obtain ⟨u, v, hload, hfin, hexec⟩ := exec_frame hd hb ch
  have hsame := loadPixels_sameButBuffer hload
  have hcfg : u.cfg = s.cfg := hsame.cfg
  have hch : u.ch = s.ch := hsame.ch
  have hwfu : u.bp.wf = true := (loadPixels_keepsForm hload).1 hwf
  rw [ha, finishSet_addressed r c hphys, if_pos (by rw [hcrc]; simp)] at hfin
  have hcommit := commitMatch_chanByte hwfu hfin
  rw [hcfg, hch] at hcommit
  have outside (i : Nat) (hi : newLen r ≤ i) : chanByte u.bp c.val i = chanByte s.bp c.val i :=
    loadPixels_chanByte_outside (s := { s with crcAcc := setFrameBytes ch r (some p) }) hwf hload
      (.inr (.inr (.inr (by rw [Nat.zero_add]; exact hi))))
  have inside (i : Nat) (hi : i < newLen r) : chanByte v.bp c.val i = chanByte u.bp c.val i := by
    rcases hcommit with ⟨-, hbp⟩ | ⟨-, hbp⟩
    · rw [hbp]
    · rw [hbp, if_neg (by omega)]
  refine ⟨_, hexec, fun k => ?slot, fun q k hq hk => ?pixel, fun i hi hcap => ?tail⟩
  case slot => rw [endInvocation_ch, commitMatch_ch hfin, getElem_set_slot, hch]
  case pixel =>
    obtain ⟨d, hbyte⟩ := loadPixels_chanByte_inside
      (s := { s with crcAcc := setFrameBytes ch r (some p) }) hwf hload (by omega) hq hk
    rw [Nat.zero_add, hphys] at hbyte
    exact ⟨d, (inside _ (pixel_lt_newLen hq hk)).trans hbyte⟩
  case tail =>
    rw [endInvocation_bp]
    rcases hcommit with ⟨hkept, hbp⟩ | ⟨hfilled, hbp⟩
    · rw [hbp]
      exact ⟨fun _ => outside i hi, fun hn => absurd hkept hn⟩
    · exact ⟨fun hk => absurd hk hfilled, fun _ => by rw [hbp, if_pos ⟨rfl, hi, hcap⟩]⟩

/-- Settles O30: `exec_commits` on a WS2812 record; its pixels by `colourBytes_getD`. -/
theorem setWs2812Commits : Obligations.SetWs2812Commits := by
  intro s ch n ord px data crc c hd hwf hwell ha hc hcrc
  obtain ⟨hpre, hlen⟩ : precheck s.cfg (.ws n ord px) = true ∧
      data.length = px.toNat * n.toNat := by
    simpa [wellFormed, bodyWellFormed, wireByteCount, pixelCount, wireElems] using hwell
  obtain ⟨t, hexec, hslots, hpixels, htail⟩ :=
    exec_commits (r := .ws n ord px) (p := ⟨data, crc⟩) hd hwf hwell ha hc hcrc
  refine ⟨t, hexec, hslots, fun hperm q hq j hj => ?pixel, fun i hi hcap => ?tail⟩
  case pixel =>
    have hn := (precheck_ws hpre).1
    obtain ⟨d, hbyte⟩ := hpixels q _ hq (orderIdx_lt hn hperm hj)
    have hplace := colourBytes_getD hn hperm ((data.drop (q * n.toNat)).take n.toNat) d j hj
      (wireElems_length hlen hq)
    exact hbyte.trans (hplace.trans (wireElem_getD data hj))
  case tail =>
    have hkept : tailKept s.cfg s.ch[c] (.ws n ord px) ↔
        s.ch[c].tag = .ws2812 ∧ slotLen s.ch[c] ≤ px.toNat * n.toNat := by
      simp [tailKept, skipsTailFill_iff, slotOf, newLen, pixelCount, pixelBytes]
    have hbyte : tailFillByte s.cfg (.ws n ord px) = 0x00 := if_neg (by simp [slotOf])
    obtain ⟨hk, hf⟩ := htail i hi hcap
    rw [hkept, hbyte] at hf
    rw [hkept] at hk
    split
    case isTrue h => exact hk h
    case isFalse h => exact hf h

/-- Settles O31: `exec_commits` on an APA102 data record; the brightness byte comes first in every
pixel, the colours by `colourBytes_getD`. -/
theorem setApa102DataCommits : Obligations.SetApa102DataCommits := by
  intro s ch f ord px data crc c hd hwf hwell ha hc hcrc
  have hlen : data.length = px.toNat * 3 := by
    have h : precheck s.cfg (.apaData f ord px) = true ∧ data.length = px.toNat * 3 := by
      simpa [wellFormed, bodyWellFormed, wireByteCount, pixelCount, wireElems] using hwell
    exact h.2
  have hcrc' : crc = crc32 (coveredBytes ch (.apaData f ord px) data) := by
    rw [hcrc]
    simp [coveredBytes, headerBytes, magic, recordType, paramBytes]
  obtain ⟨t, hexec, hslots, hpixels, htail⟩ :=
    exec_commits (r := .apaData f ord px) (p := ⟨data, crc⟩) hd hwf hwell ha hc hcrc'
  refine ⟨t, hexec, hslots, fun q hq => ?bright, fun hperm q hq j hj => ?pixel,
    fun i hi hcap => ?tail⟩
  case bright =>
    obtain ⟨d, hbyte⟩ := hpixels q 0 hq (Nat.succ_pos 3)
    exact hbyte
  case pixel =>
    have hk := orderIdx_lt (n := 3) (.inl rfl) hperm hj
    obtain ⟨d, hbyte⟩ := hpixels q (orderIdx ord j + 1) hq (Nat.succ_lt_succ hk)
    have hplace := colourBytes_getD (.inl rfl) hperm ((data.drop (q * 3)).take 3) d j hj
      (wireElems_length hlen hq)
    rw [Nat.add_comm 1]
    exact hbyte.trans (hplace.trans (wireElem_getD data hj))
  case tail =>
    have hkept : tailKept s.cfg s.ch[c] (.apaData f ord px) ↔
        s.cfg.tailFill = .none ∨ (s.ch[c].tag = .apaData ∧ slotLen s.ch[c] ≤ px.toNat * 4) := by
      simp [tailKept, skipsTailFill_iff, slotOf, newLen, pixelCount, pixelBytes, or_comm]
    have hbyte : tailFillByte s.cfg (.apaData f ord px)
        = if s.cfg.tailFill = .one then 0xFF else 0x00 := by
      simp [tailFillByte, slotOf]
    obtain ⟨hk, hf⟩ := htail i hi hcap
    rw [hkept, hbyte] at hf
    rw [hkept] at hk
    split
    case isTrue h => exact hk h
    case isFalse h => exact hf h

/-- Settles O32: `exec_commits` on a clock record, which has no pixels, so that every byte of the
channel is tail. -/
theorem setApa102ClockCommits : Obligations.SetApa102ClockCommits := by
  intro s ch f crc c hd hwf hf0 ha hc hcrc
  have hb : bodyWellFormed s.cfg (.apaClk f) (some ⟨[], crc⟩) = true := by
    simpa [bodyWellFormed, precheck, wireByteCount, pixelCount] using hf0
  have hcrc' : crc = crc32 (coveredBytes ch (.apaClk f) []) := by
    rw [hcrc]
    simp [coveredBytes, headerBytes, magic, recordType, paramBytes]
  obtain ⟨t, hexec, hslots, -, htail⟩ :=
    exec_commits (r := .apaClk f) (p := ⟨[], crc⟩) hd hwf hb ha hc hcrc'
  refine ⟨t, hexec, hslots, fun i hcap => ?_⟩
  have hkept : tailKept s.cfg s.ch[c] (.apaClk f) ↔ s.ch[c].tag = .apaClk := by
    have hlen (htag : s.ch[c].tag = .apaClk) : slotLen s.ch[c] = 0 := by
      simp only [slotLen, htag]
    simp only [tailKept, skipsTailFill_iff, slotOf, newLen, pixelCount, Nat.zero_mul,
      reduceCtorEq, and_false, or_false]
    exact ⟨And.left, fun htag => ⟨htag, (hlen htag).le⟩⟩
  have hbyte : tailFillByte s.cfg (.apaClk f) = 0x00 := if_neg (by simp [slotOf])
  obtain ⟨hk, hf⟩ := htail i (by simp [newLen, pixelCount]) hcap
  rw [hkept, hbyte] at hf
  rw [hkept] at hk
  split
  case isTrue h => exact hk h
  case isFalse h => exact hf h

/-- Settles O33: the pixels, then `CommitMismatch()` by `commitMismatch_eq` and
`commitMismatch_chanByte`. -/
theorem crcMismatchDisablesTheChannel : Obligations.CrcMismatchDisablesTheChannel := by
  intro s ch r p c hd hwf hb ha hc hcrc
  obtain ⟨u, v, hload, hfin, hexec⟩ := exec_frame hd hb ch
  have hsame := loadPixels_sameButBuffer hload
  have hcfg : u.cfg = s.cfg := hsame.cfg
  have hch : u.ch = s.ch := hsame.ch
  have hcnt : u.cntCrcErr = s.cntCrcErr := by rw [hsame]
  have hwfu : u.bp.wf = true := (loadPixels_keepsForm hload).1 hwf
  rw [ha, finishSet_addressed r c (physOf_eq_channel ha hc), if_neg (by simpa using hcrc)] at hfin
  have hzero := commitMismatch_chanByte (s := countError .crc u) hwfu hfin
  rw [commitMismatch_eq] at hfin
  cases hfin
  refine ⟨_, hexec, fun k => ?slot, fun i hi => ?bytes, ?count⟩
  case slot => exact (getElem_set_slot u.ch c k zeroSlot).trans (by rw [hch])
  case bytes => exact (hzero c.val i).trans (if_pos ⟨rfl, hcfg.symm ▸ hi⟩)
  case count =>
    show (u.cntCrcErr + 1) % 2 ^ u.cfg.cntW = _
    rw [hcnt, hcfg]

/-! ### Unaddressed and refused frames -/

/-- For no channel the pixels write nothing (40 R112). -/
theorem loadPixel_unaddressed {r : Record} {phys : Byte} {p : Nat} {ein : List Byte} {s t : State}
    (hp : 8 ≤ phys.toNat) (h : loadPixel r phys p ein s = .next t) :
    t = { s with drawn := t.drawn } := by
  rw [loadPixel_eq_encodeOp] at h
  obtain ⟨-, -, rfl⟩ := encodeOp_eq_next h
  rw [if_pos hp]

theorem loadPixels_unaddressed {r : Record} {phys : Byte} {count p : Nat} {data : List Byte}
    {s t : State} (hp : 8 ≤ phys.toNat) (h : loadPixels r phys count p data s = .next t) :
    t = { s with drawn := t.drawn } := by
  induction count generalizing p data s with
  | zero => cases h; rfl
  | succ n ih =>
    obtain ⟨u, hu, ht⟩ := andThen_eq_next.1 h
    rw [ih ht, loadPixel_unaddressed hp hu]

/-- Settles O34: pixels for no channel, then `finishSet_unaddressed`. -/
theorem unaddressedFramesChangeNothing : Obligations.UnaddressedFramesChangeNothing := by
  intro s ch r p hd hb ha
  obtain ⟨u, v, hload, hfin, hexec⟩ := exec_frame hd hb ch
  have hu := loadPixels_unaddressed (physOf_ge ha) hload
  rw [ha, finishSet_unaddressed] at hfin
  cases hfin
  refine ⟨anyLatches u.drawn, u.drawn + 1, hexec.trans (congrArg Host.Outcome.next ?_)⟩
  rw [hu]
  by_cases hcrc : p.crc = crc32 (coveredBytes ch r p.data)
  · rw [if_pos hcrc, if_pos (by simpa using hcrc)]
    simp only [endInvocation, setFrameBytes, hd]
  · rw [if_neg hcrc, if_neg (by simpa using hcrc)]
    simp only [endInvocation, countError, increment, setFrameBytes, hd]

/-- Settles O35: the invocation ends at the parameter block with E_RECORD, which counts nothing. -/
theorem refusedRecordsChangeNothing : Obligations.RefusedRecordsChangeNothing := by
  intro s ch r hd hp
  refine ⟨anyLatches s.drawn, s.drawn + 1, ?_⟩
  rw [exec_setInstr hd (by simp [bodyWellFormed, hp])]
  simp only [runSet, raiseError, countError, endInvocation, setFrameBytes, hd]

/-! ### The frame of a set-channel frame -/

/-- `Finish()` leaves every byte of other channels, and every byte past CAP (41 R144 to R147). -/
theorem finishSet_chanByte_outside {r : Record} {addressed crcOk : Bool} {phys : Byte} {s t : State}
    (hwf : s.bp.wf = true) (h : finishSet r addressed phys crcOk s = .next t) {c i : Nat}
    (hi : c ≠ phys.toNat ∨ s.cfg.cap ≤ i) : chanByte t.bp c i = chanByte s.bp c i := by
  obtain ⟨-, -, -, hkept, hslot, -⟩ := finishSet_cases h
  cases addressed with
  | false => rw [(hkept rfl).2]
  | true =>
    obtain ⟨c0, hc0, -⟩ := hslot rfl
    rw [finishSet_addressed r c0 hc0] at h
    cases crcOk with
    | false =>
      rw [commitMismatch_chanByte (s := countError .crc s) hwf h,
        if_neg (by rw [countError_cfg]; omega)]
      rfl
    | true =>
      rcases commitMatch_chanByte hwf h with ⟨-, hbp⟩ | ⟨-, hbp⟩
      · rw [hbp]
      · rw [hbp, if_neg (by omega)]

/-- Settles O36: the pixels by `loadPixels_sameButBuffer`, `Finish()` by `finishSet_cases` and
`finishSet_chanByte_outside`. -/
theorem setChannelFrame : Obligations.SetChannelFrame := by
  intro s t ch r p hd hwf hb h
  obtain ⟨u, v, hload, hfin, hexec⟩ := exec_frame hd hb ch
  cases hexec.symm.trans h
  have hsame := loadPixels_sameButBuffer hload
  obtain ⟨hchanges, hcnt, -, hkept, hslot, -⟩ := finishSet_cases hfin
  have hfits : newLen r ≤ s.cfg.cap := by
    have hpre : precheck s.cfg r = true ∧ p.data.length = wireByteCount r := by
      simpa [bodyWellFormed] using hb
    exact newLen_le_cap hpre.1
  refine ⟨?frame, ?count, fun k hk => ?slots, fun c i hi => ?bytes⟩
  case frame =>
    rw [hchanges, hsame]
    simp only [endInvocation, setFrameBytes, hd]
  case count =>
    rw [endInvocation_cntCrcErr, hcnt, hsame]
    by_cases hcrc : p.crc = crc32 (coveredBytes ch r p.data)
    · rw [if_pos hcrc, if_pos (by simpa using hcrc)]
    · rw [if_neg hcrc, if_neg (by simpa using hcrc)]
      rfl
  case slots =>
    have hch : u.ch = s.ch := hsame.ch
    rw [endInvocation_ch, ← hch]
    cases ha : isAddressed s.cfg ch with
    | false => rw [(hkept ha).1]
    | true =>
      obtain ⟨c0, hc0, hset⟩ := hslot ha
      rw [hset, getElem_set_slot, if_neg fun he => hk (by rw [he, hc0])]
  case bytes =>
    rw [endInvocation_bp]
    have hcfg : u.cfg = s.cfg := hsame.cfg
    refine (finishSet_chanByte_outside ((loadPixels_keepsForm hload).1 hwf) hfin
      (by rw [hcfg]; exact hi)).trans ?_
    refine loadPixels_chanByte_outside (s := { s with crcAcc := setFrameBytes ch r (some p) }) hwf
      hload ?_
    rcases hi with hne | hcap
    · exact .inr (.inl hne)
    · exact .inr (.inr (.inr (by rw [Nat.zero_add]; exact hfits.trans hcap)))

end Sys2Proof.Proofs.SetChannel

/-! PROOFS of the family 10_state: the invariant. A decoder step inside a frame answers and leaves the
latches fitting its new state (`decoderStep_follows`, one lemma per decoder state); every other part of
the invariant is kept by each of the moves of `step_kind`. -/

namespace Sys2Proof.Proofs.Invariants

open Sys2Proof Sys2Proof.Machine StepKinds SetChannel

/-! ### A step inside a frame -/

/-- What a decoder step inside a frame leaves: latches that fit the state, no change of configuration
and table, the same record in progress once there is one, and every tail byte as it was. -/
structure Follows (s t : State) : Prop where
  decoder : decoderOk t = true
  cfg : t.cfg = s.cfg
  ch : t.ch = s.ch
  record : ∀ c, receivedRecord s c = none ∨ receivedRecord t c = receivedRecord s c
  tails : ∀ (c : Fin 8) i, tailStart s c ≤ i → chanByte t.bp c.val i = chanByte s.bp c.val i

theorem Follows.refl {s : State} (h : decoderOk s = true) : Follows s s :=
  ⟨h, rfl, rfl, fun _ => .inr rfl, fun _ _ _ => rfl⟩

/-- A step that writes nothing, in a state where no pixels are received. -/
theorem Follows.of_noRecord {s : State} (hnone : ∀ c, receivedRecord s c = none) {d : DState}
    {l : Latches} {q a : List Byte} (h : decoderOk (working d l q a s) = true) :
    Follows s (working d l q a s) :=
  ⟨h, rfl, rfl, fun c => .inl (hnone c), fun _ _ _ => rfl⟩

/-- The same, where the step ends the invocation with an error. -/
theorem Follows.raised {s : State} (hnone : ∀ c, receivedRecord s c = none) (e : ErrorKind)
    (d : DState) (l : Latches) (q a : List Byte) : Follows s (raiseError e (working d l q a s)) := by
  refine ⟨rfl, ?_, ?_, fun c => .inl (hnone c), fun _ _ _ => ?_⟩ <;> cases e <;> rfl

theorem receivedRecord_noFrame {s : State} (h1 : s.dstate ≠ .pix) (h2 : ∀ k, s.dstate ≠ .crc k)
    (c : Nat) : receivedRecord s c = none := by
  unfold receivedRecord
  split
  · cases hd : s.dstate with
    | pix => exact absurd hd h1
    | crc k => exact absurd hd (h2 k)
    | idle => rfl
    | magic i => rfl
    | hdr j => rfl
    | param j => rfl
  · rfl

/-- In a frame past its parameter block the record in progress is the latched one, on the latched
channel (41 R140). -/
theorem receivedRecord_inFrame {s : State} (h : s.dstate = .pix ∨ ∃ k, s.dstate = .crc k) (c : Nat) :
    receivedRecord s c = if s.lat.addressed = true ∧ s.lat.phys.toNat = c
      then recordOf s.lat.hType s.lat.par else none := by
  rcases h with h | ⟨k, h⟩ <;> simp [receivedRecord, h]

/-- `addressed` and `phys` are what the latched channel byte says (41 R135). -/
def AddressLatched (cfg : Config) (l : Latches) : Prop :=
  l.addressed = isAddressed cfg l.hChannel ∧ l.phys = physOf cfg l.hChannel

theorem decoderOk_param {s : State} {j : Fin 7} (hd : s.dstate = .param j) :
    decoderOk s = true ↔ AddressLatched s.cfg s.lat ∧ j.val < parLen s.lat.hType := by
  simp [decoderOk, hd, addressOk, AddressLatched]

theorem recordOk_iff (s : State) :
    recordOk s = true ↔ ∃ r, recordOf s.lat.hType s.lat.par = some r ∧ precheck s.cfg r = true := by
  unfold recordOk
  cases recordOf s.lat.hType s.lat.par <;> simp

theorem decoderOk_pix {s : State} (hd : s.dstate = .pix) :
    decoderOk s = true ↔ AddressLatched s.cfg s.lat ∧
      ∃ r, recordOf s.lat.hType s.lat.par = some r ∧ precheck s.cfg r = true ∧
        s.lat.pIdx.toNat < pixelCount r ∧ s.lat.eIdx.toNat < wireElems r := by
  simp only [decoderOk, hd, addressOk, AddressLatched, recordOk, pixelOk, Bool.and_eq_true, beq_iff_eq]
  cases recordOf s.lat.hType s.lat.par <;> simp [and_assoc]

theorem decoderOk_crc {s : State} {k : Fin 4} (hd : s.dstate = .crc k) :
    decoderOk s = true ↔ AddressLatched s.cfg s.lat ∧ (s.lat.hType = typeDrawAll ∨
      ∃ r, recordOf s.lat.hType s.lat.par = some r ∧ precheck s.cfg r = true) := by
  rw [← recordOk_iff]
  simp [decoderOk, hd, addressOk, AddressLatched]

/-- Writes out the decoder's state and the next byte of the stream, so that the equations
`decoderStep_magic` to `decoderStep_crc` of the byte-wise decoder apply. -/
theorem decoderStep_eq {s : State} {d : DState} {b : Byte} {q : List Byte} (hd : s.dstate = d)
    (hq : s.queue = b :: q) :
    decoderStep s = decoderStep (working d s.lat (b :: q) s.crcAcc s) := by
  rw [← hd, ← hq]
  rfl

theorem decoderStep_idle_follows {s : State} (hd : s.dstate = .idle) :
    ∃ t, decoderStep s = .next t ∧ Follows s t := by
  have hnone := receivedRecord_noFrame (s := s) (by simp [hd]) (by simp [hd])
  refine ⟨stepIdle s, by simp only [decoderStep, hd], ?_⟩
  unfold stepIdle
  split
  · exact .of_noRecord hnone (d := .magic 0) (l := s.lat) (q := s.queue) (a := []) rfl
  · exact .refl (by simp only [decoderOk, hd])

theorem decoderStep_magic_follows {s : State} {i : Fin 4} {b : Byte} {q : List Byte}
    (hd : s.dstate = .magic i) (hq : s.queue = b :: q) :
    ∃ t, decoderStep s = .next t ∧ Follows s t := by
  have hnone := receivedRecord_noFrame (s := s) (by simp [hd]) (by simp [hd])
  rw [decoderStep_eq hd hq, decoderStep_magic]
  by_cases hb : b = magicByte i
  · refine ⟨_, FrameDecoder.stepMagic_match hb _, ?_⟩
    by_cases hi : i = 3
    · rw [if_pos hi]
      exact .of_noRecord hnone (d := .hdr 0) (l := s.lat) (q := q) (a := s.crcAcc ++ [b]) rfl
    · rw [if_neg hi]
      exact .of_noRecord hnone (d := .magic (i + 1)) (l := s.lat) (q := q) (a := s.crcAcc ++ [b]) rfl
  · exact ⟨_, stepMagic_miss hb _, .raised hnone .magic _ _ _ _⟩

theorem decoderStep_hdr_follows {s : State} {j : Fin 2} {b : Byte} {q : List Byte}
    (hd : s.dstate = .hdr j) (hq : s.queue = b :: q) :
    ∃ t, decoderStep s = .next t ∧ Follows s t := by
  have hnone := receivedRecord_noFrame (s := s) (by simp [hd]) (by simp [hd])
  rw [decoderStep_eq hd hq, decoderStep_hdr]
  unfold stepHdr
  split
  · exact ⟨_, rfl, .of_noRecord hnone (d := .hdr 1) (l := { s.lat with hChannel := b }) (q := q)
      (a := s.crcAcc ++ [b]) rfl⟩
  · refine ⟨_, rfl, ?_⟩
    show Follows s (dispatchRecord (working (.hdr j) { s.lat with
      hType := b
      addressed := isAddressed s.cfg s.lat.hChannel
      phys := physOf s.cfg s.lat.hChannel } q (s.crcAcc ++ [b]) s))
    by_cases hdraw : b = typeDrawAll
    · rw [dispatchRecord_draw hdraw]
      exact .of_noRecord hnone ((decoderOk_crc rfl).2 ⟨⟨rfl, rfl⟩, .inl hdraw⟩)
    · by_cases hlen : parLen b = 0
      · unfold dispatchRecord
        rw [if_neg (by exact hdraw), if_pos (by exact hlen)]
        exact .raised hnone .recType _ _ _ _
      · unfold dispatchRecord
        rw [if_neg (by exact hdraw), if_neg (by exact hlen)]
        exact .of_noRecord hnone (d := .param 0)
          ((decoderOk_param rfl).2 ⟨⟨rfl, rfl⟩, Nat.pos_of_ne_zero hlen⟩)

/-- A record type with a parameter block has a record (30_encoding R83). -/
theorem recordOf_isSome {t : Byte} (h : parLen t ≠ 0) (par : Vector Byte 7) :
    ∃ r, recordOf t par = some r := by
  unfold parLen at h
  unfold recordOf
  by_cases h1 : t = 0x01
  · exact ⟨_, if_pos h1⟩
  · by_cases h3 : t = 0x03
    · exact ⟨_, by rw [if_neg h1, if_pos h3]⟩
    · by_cases h4 : t = 0x04
      · exact ⟨_, by rw [if_neg h1, if_neg h3, if_pos h4]⟩
      · rw [if_neg h1, if_neg h3, if_neg h4] at h
        exact absurd rfl h

theorem parLen_le (t : Byte) : parLen t ≤ 7 := by
  unfold parLen
  split_ifs <;> omega

theorem decoderStep_param_follows {s : State} {j : Fin 7} {b : Byte} {q : List Byte}
    (hd : s.dstate = .param j) (hq : s.queue = b :: q) (hok : decoderOk s = true) :
    ∃ t, decoderStep s = .next t ∧ Follows s t := by
  have hnone := receivedRecord_noFrame (s := s) (by simp [hd]) (by simp [hd])
  obtain ⟨haddr, hj⟩ := (decoderOk_param hd).1 hok
  rw [decoderStep_eq hd hq, decoderStep_param]
  by_cases hmore : j.val + 1 < parLen s.lat.hType
  · have h7 := parLen_le s.lat.hType
    have hsucc : (j + 1).val = j.val + 1 := Fin.val_add_one_of_lt' (by omega)
    exact ⟨_, stepParam_more hmore, .of_noRecord hnone
      ((decoderOk_param rfl).2 ⟨haddr, by rw [hsucc]; exact hmore⟩)⟩
  rw [stepParam_last (by omega)]
  obtain ⟨r, hr⟩ := recordOf_isSome (t := s.lat.hType) (by omega) (s.lat.par.set j.val b j.isLt)
  cases hp : precheck s.cfg r with
  | false => exact ⟨_, paramsDone_refused hr hp, .raised hnone .record _ _ _ _⟩
  | true =>
    by_cases hz : wireByteCount r = 0
    · exact ⟨_, paramsDone_empty hr hp hz, .of_noRecord hnone
        ((decoderOk_crc rfl).2 ⟨haddr, .inr ⟨r, hr, hp⟩⟩)⟩
    · obtain ⟨hcount, helems⟩ : pixelCount r ≠ 0 ∧ wireElems r ≠ 0 := Nat.mul_ne_zero_iff.1 hz
      exact ⟨_, paramsDone_pixels hr hp hz, .of_noRecord hnone
        ((decoderOk_pix rfl).2 ⟨haddr, r, hr, hp, Nat.pos_of_ne_zero hcount,
          Nat.pos_of_ne_zero helems⟩)⟩

/-- A step from a frame's pixels or trailer that keeps the record in progress, and the latches that say
so, and writes within the record. -/
theorem Follows.of_record {s u : State} {d : DState} {l : Latches} {q a : List Byte}
    (hs : s.dstate = .pix ∨ ∃ k, s.dstate = .crc k) (hd : d = .pix ∨ ∃ k, d = .crc k)
    (hok : decoderOk (working d l q a u) = true) (hu : SameButBuffer s u)
    (haddr : l.addressed = s.lat.addressed) (hphys : l.phys = s.lat.phys)
    (htype : l.hType = s.lat.hType) (hpar : l.par = s.lat.par)
    (htails : ∀ (c : Fin 8) i, tailStart s c ≤ i → chanByte u.bp c.val i = chanByte s.bp c.val i) :
    Follows s (working d l q a u) := by
  refine ⟨hok, hu.cfg, hu.ch, fun c => .inr ?_, htails⟩
  rw [receivedRecord_inFrame hs, receivedRecord_inFrame (s := working d l q a u) hd]
  simp only [working_lat, haddr, hphys, htype, hpar]

/-- A channel byte gives a channel exactly when it is addressed (41 R135). -/
theorem physOf_lt_iff (cfg : Config) (ch : Byte) :
    (physOf cfg ch).toNat < 8 ↔ isAddressed cfg ch = true := by
  refine ⟨fun hlt => ?_, physOf_lt⟩
  by_contra hun
  have hge := physOf_ge (cfg := cfg) (ch := ch) (by simpa using hun)
  omega

/-- An unaddressed record is for no channel, an addressed one for the latched one. -/
theorem AddressLatched.phys_lt_iff {cfg : Config} {l : Latches} (h : AddressLatched cfg l) :
    l.phys.toNat < 8 ↔ l.addressed = true := by
  obtain ⟨haddr, hphys⟩ := h
  rw [haddr, hphys]
  exact physOf_lt_iff cfg l.hChannel

/-- On the channel of the record in progress the tail starts past the record (70 R271). -/
theorem newLen_le_tailStart {s : State} {r : Record} {c : Fin 8}
    (hs : s.dstate = .pix ∨ ∃ k, s.dstate = .crc k) (ha : s.lat.addressed = true)
    (hc : s.lat.phys.toNat = c.val) (hr : recordOf s.lat.hType s.lat.par = some r) :
    newLen r ≤ tailStart s c := by
  have hrec : receivedRecord s c.val = some r := by
    rw [receivedRecord_inFrame hs, if_pos ⟨ha, hc⟩, hr]
  simp only [tailStart, hrec]
  exact Nat.le_max_right _ _

theorem decoderStep_pix_follows {s : State} {b : Byte} {q : List Byte} (hd : s.dstate = .pix)
    (hq : s.queue = b :: q) (hok : decoderOk s = true) (hwf : s.bp.wf = true) :
    ∃ t, decoderStep s = .next t ∧ Follows s t := by
  obtain ⟨haddr, r, hr, hp, hpix, helem⟩ := (decoderOk_pix hd).1 hok
  obtain ⟨hw1, hw4⟩ := wireElems_range hp (by omega)
  rw [decoderStep_eq hd hq, decoderStep_pix]
  by_cases hmore : s.lat.eIdx.toNat + 1 < wireElems r
  · have hone : (1 : BitVec 2).toNat = 1 := rfl
    have hsucc : (s.lat.eIdx + 1).toNat = s.lat.eIdx.toNat + 1 := by
      rw [BitVec.toNat_add, hone, Nat.mod_eq_of_lt (by omega)]
    refine ⟨_, stepPix_more hr hmore, .of_record (.inl hd) (.inl rfl) ((decoderOk_pix rfl).2
      ⟨haddr, r, hr, hp, hpix, ?_⟩) (SameButBuffer.refl s) rfl rfl rfl rfl fun _ _ _ => rfl⟩
    exact hsucc.trans_lt hmore
  have hend : s.lat.pIdx.toNat * pixelBytes r + pixelBytes r ≤ newLen r := by
    rw [← Nat.succ_mul]
    exact Nat.mul_le_mul_right _ hpix
  obtain ⟨u, hu⟩ := loadPixel_next (hend.trans (newLen_le_cap hp)) s.lat.phys
    ((s.lat.ein.set s.lat.eIdx.toNat b).toList.take (wireElems r))
  have hsame := loadPixel_sameButBuffer hu
  have htails (c : Fin 8) (i : Nat) (hi : tailStart s c ≤ i) :
      chanByte u.bp c.val i = chanByte s.bp c.val i := by
    rw [loadPixel_chanByte hwf hu, if_neg]
    rintro ⟨hlt, hc, -, hin⟩
    have := newLen_le_tailStart (.inl hd) (haddr.phys_lt_iff.1 hlt) hc.symm hr
    omega
  have hcount := pixelCount_lt r
  have hsucc := succ_toNat_half (v := s.lat.pIdx) (by omega)
  rw [stepPix_last hr hmore, hu, andThen_next]
  by_cases hlast : (s.lat.pIdx + 1).toNat = pixelCount r
  · rw [nextPixel_last (l := { s.lat with ein := s.lat.ein.set s.lat.eIdx.toNat b }) hlast]
    exact ⟨_, rfl, .of_record (.inl hd) (.inr ⟨0, rfl⟩) ((decoderOk_crc rfl).2
      ⟨hsame.cfg ▸ haddr, .inr ⟨r, hr, hsame.cfg ▸ hp⟩⟩) hsame rfl rfl rfl rfl htails⟩
  · rw [nextPixel_more (l := { s.lat with ein := s.lat.ein.set s.lat.eIdx.toNat b }) hlast]
    refine ⟨_, rfl, .of_record (.inl hd) (.inl rfl) ((decoderOk_pix rfl).2
      ⟨hsame.cfg ▸ haddr, r, hr, hsame.cfg ▸ hp, ?_, hw1⟩) hsame rfl rfl rfl rfl htails⟩
    show (s.lat.pIdx + 1).toNat < pixelCount r
    omega

theorem decoderStep_crc_follows {s : State} {k : Fin 4} {b : Byte} {q : List Byte}
    (hd : s.dstate = .crc k) (hk : k ≠ 3) (hq : s.queue = b :: q) (hok : decoderOk s = true) :
    ∃ t, decoderStep s = .next t ∧ Follows s t := by
  rw [decoderStep_eq hd hq, decoderStep_crc, stepCrc_more hk]
  exact ⟨_, rfl, .of_record (.inr ⟨k, hd⟩) (.inr ⟨k + 1, rfl⟩)
    ((decoderOk_crc rfl).2 ((decoderOk_crc hd).1 hok)) (SameButBuffer.refl s) rfl rfl rfl rfl
    fun _ _ _ => rfl⟩

/-- Every decoder step but the one on the last trailer byte. -/
theorem decoderStep_follows {s : State} (hok : decoderOk s = true) (hwf : s.bp.wf = true)
    (hin : s.dstate ≠ .crc 3 ∨ s.queue = []) : ∃ t, decoderStep s = .next t ∧ Follows s t := by
  by_cases hi : s.dstate = .idle
  · exact decoderStep_idle_follows hi
  cases hq : s.queue with
  | nil => exact ⟨s, decoderStep_holds hi hq, .refl hok⟩
  | cons b q =>
    cases hd : s.dstate with
    | idle => exact absurd hd hi
    | magic i => exact decoderStep_magic_follows hd hq
    | hdr j => exact decoderStep_hdr_follows hd hq
    | param j => exact decoderStep_param_follows hd hq hok
    | pix => exact decoderStep_pix_follows hd hq hok hwf
    | crc k =>
      refine decoderStep_crc_follows hd (fun hk => ?_) hq hok
      rcases hin with hne | hnil
      · exact hne (by rw [hd, hk])
      · rw [hnil] at hq
        cases hq

/-! ### The decoder never stops -/

/-- `Finish()` of an accepted record answers (41 R143, 60 R228). -/
theorem finishSet_answers {r : Record} {addressed : Bool} {phys : Byte} {s : State}
    (hp : precheck s.cfg r = true) (haddr : addressed = true → phys.toNat < 8) (crcOk : Bool) :
    ∃ u, finishSet r addressed phys crcOk s = .next u := by
  cases addressed with
  | false => exact ⟨_, finishSet_unaddressed r phys crcOk s⟩
  | true =>
    rw [finishSet_addressed r ⟨_, haddr rfl⟩ rfl]
    cases crcOk with
    | false => exact ⟨_, commitMismatch_eq _ _⟩
    | true => exact commitMatch_next (newLen_le_cap hp) _

theorem decoderStep_lastByte_answers {s : State} (hok : decoderOk s = true) (hd : s.dstate = .crc 3)
    (hne : s.queue ≠ []) : ∃ t, decoderStep s = .next t ∧ decoderOk t = true := by
  obtain ⟨b, q, hq⟩ := List.exists_cons_of_ne_nil hne
  obtain ⟨crcOk, hstep⟩ := decoderStep_lastByte hd hq
  have hend : ∃ u, frameEnd crcOk s = .next u := by
    obtain ⟨haddr, hrec⟩ := (decoderOk_crc hd).1 hok
    by_cases ht : s.lat.hType = typeDrawAll
    · exact ⟨_, frameEnd_draw ht crcOk⟩
    · obtain ⟨r, hr, hp⟩ := hrec.resolve_left ht
      rw [frameEnd_set ht hr]
      exact finishSet_answers hp haddr.phys_lt_iff.2 crcOk
  obtain ⟨u, hu⟩ := hend
  exact ⟨_, by rw [hstep, hu, andThen_next], rfl⟩

theorem decoderStep_answers {s : State} (hinv : Invariant s) :
    ∃ t, decoderStep s = .next t ∧ decoderOk t = true := by
  by_cases hin : s.dstate ≠ .crc 3 ∨ s.queue = []
  · obtain ⟨t, ht, hfollows⟩ := decoderStep_follows hinv.decoder hinv.memWf hin
    exact ⟨t, ht, hfollows.decoder⟩
  · obtain ⟨hd, hne⟩ : s.dstate = .crc 3 ∧ s.queue ≠ [] := by simpa using hin
    exact decoderStep_lastByte_answers hinv.decoder hd hne

/-- What an idle decoder has read as an instruction runs to the return to S_IDLE. -/
theorem exec_decoded_answers {s : State} {i : Instr} {rest : List Byte} (hd : s.dstate = .idle)
    (hdec : decode s.cfg s.queue = .instr i rest) :
    ∃ t, exec i { s with queue := rest } = .next t ∧ t.dstate = .idle := by
  rcases Encoding.decode_instr hdec with
    ⟨ch, r, body, rfl, hb, -⟩ | ⟨ch, crc, rfl, -⟩ | ⟨k, b, rfl, hb, -⟩
  case inl =>
    rw [exec_setInstr (s := { s with queue := rest }) hd hb]
    cases body with
    | none => exact ⟨_, rfl, rfl⟩
    | some p =>
      obtain ⟨u, v, -, -, hrun⟩ := runSet_cases (s := { s with queue := rest }) (ch := ch) hb
      exact ⟨_, hrun, rfl⟩
  case inr.inl => exact ⟨_, ByteWise.exec_drawAll (s := { s with queue := rest }) hd ch crc, rfl⟩
  case inr.inr => exact ⟨_, ByteWise.exec_magicMiss (s := { s with queue := rest }) hd hb, rfl⟩

theorem decoderOk_of_idle {s : State} (h : s.dstate = .idle) : decoderOk s = true := by
  simp only [decoderOk, h]

theorem invocation_answers {s : State} (hinv : Invariant s) :
    ∃ t, invocation s = .next t ∧ decoderOk t = true := by
  rcases invocation_cases s with
    hstep | ⟨hd, -, ⟨i, rest, hdec, hexec⟩ | ⟨ch, ty, rest, -, hend⟩⟩
  · rw [hstep]
    exact decoderStep_answers hinv
  · rw [hexec]
    obtain ⟨t, ht, hidle⟩ := exec_decoded_answers hd hdec
    exact ⟨t, ht, decoderOk_of_idle hidle⟩
  · exact ⟨_, hend, rfl⟩

/-- The lane read finds its lane, a transfer being no longer than the buffer (60 R239). -/
theorem emitLane_answers {s : State} (hinv : Invariant s) (v : Nat) :
    ∃ t, emitLane v s = .next t ∧ decoderOk t = true := by
  rcases emitLane_cases v s with hrun | ⟨a, b, -, -, -, hrun⟩ | ⟨a, ha, hpast, hl, -⟩
  · exact ⟨_, hrun, hinv.decoder⟩
  · exact ⟨_, hrun, hinv.decoder⟩
  · have harm := hinv.arms a ha
    simp only [armOk, Bool.and_eq_true, decide_eq_true_eq] at harm
    omega

theorem invariant_sched {s : State} (h : Invariant s) (ms : List Move) :
    Invariant { s with sched := ms } :=
  ⟨h.legal, h.memWf, h.memBelow, h.slots, h.latch, h.decoder, h.arms, h.counters, h.flight⟩

theorem invariant_afterMove {s : State} (h : Invariant s) : Invariant (afterMove s) :=
  invariant_sched h s.sched.tail

/-- Every step answers, and leaves the latches fitting the decoder's state (60 R228). -/
theorem step_answers {s : State} (hinv : Invariant s) :
    ∃ t, step s = .next t ∧ decoderOk t = true := by
  rcases step_cases s with ⟨-, hstep⟩ | ⟨m, ms, -, hstep⟩
  · rw [hstep]
    exact invocation_answers hinv
  · have hinv' := invariant_sched hinv ms
    rw [hstep]
    cases m with
    | decode => exact decoderStep_answers hinv'
    | invocation => exact invocation_answers hinv'
    | byte b => exact ⟨_, rfl, hinv.decoder⟩
    | xferDone =>
      rcases completeTransfer_cases { s with sched := ms } with ⟨-, hrun⟩ | ⟨-, hrun⟩
      · exact ⟨_, hrun, hinv.decoder⟩
      · exact ⟨_, hrun, hinv.decoder⟩
    | tick => exact ⟨_, exec_tick _, hinv.decoder⟩
    | emit v => exact emitLane_answers hinv' v
    | reset => exact ⟨_, rfl, rfl⟩

/-! ### What a decoder move keeps -/

theorem move_keepsForm {whole : Prop} {s t : State} (h : DecoderMove whole s t) :
    KeepsForm s.cfg.cap s.bp t.bp := by
  cases h with
  | quiet h hsrc => exact h.2.2.1
  | draw crcOk q a hsrc =>
    rw [endInvocation_bp]
    show KeepsForm s.cfg.cap s.bp (finishDraw crcOk s).bp
    rw [finishDraw_bp]
    exact KeepsForm.refl _ _
  | lastByte q a hd hq ht hr hfin =>
    obtain ⟨-, -, hform, -⟩ := finishSet_cases hfin
    exact hform
  | frame a hw hd hdec hb hload hfin =>
    obtain ⟨-, -, hform, -⟩ := finishSet_cases hfin
    rw [(loadPixels_sameButBuffer hload).cfg] at hform
    exact (loadPixels_keepsForm hload).trans hform

theorem move_latchCount {whole : Prop} {s t : State} (h : DecoderMove whole s t) :
    t.latchCount = s.latchCount := by
  cases h with
  | quiet h hsrc => rw [h.1]
  | draw crcOk q a hsrc =>
    show (finishDraw crcOk s).latchCount = s.latchCount
    rw [finishDraw_changes]
  | lastByte q a hd hq ht hr hfin =>
    rw [endInvocation_latchCount, working, (recordEnd_of_finishSet hfin).changes]
  | frame a hw hd hdec hb hload hfin =>
    rw [endInvocation_latchCount, working, (recordEnd_of_frame hload hfin).changes]

theorem slotOk_zeroSlot (cfg : Config) : slotOk cfg zeroSlot = true := by
  simp [slotOk, zeroSlot]

/-- A record that passes the precheck builds a legal slot (10_state R23 to R26). -/
theorem slotOk_slotOf {cfg : Config} {r : Record} (h : precheck cfg r = true) :
    slotOk cfg (slotOf r) = true := by
  have hlen := newLen_le_cap h
  rw [← slotLen_slotOf] at hlen
  cases r with
  | ws n ord px =>
    simp only [precheck, Bool.and_eq_true] at h
    simp only [slotOk, slotOf, Bool.and_eq_true]
    exact ⟨⟨h.1, rfl⟩, decide_eq_true hlen⟩
  | apaData f ord px =>
    simp only [precheck, Bool.and_eq_true] at h
    simp only [slotOk, slotOf, Bool.and_eq_true]
    exact ⟨⟨rfl, h.1⟩, decide_eq_true hlen⟩
  | apaClk f =>
    simp only [slotOk, slotOf, Bool.and_eq_true]
    exact ⟨⟨⟨rfl, rfl⟩, rfl⟩, h⟩

theorem finishSet_slots {r : Record} {addressed crcOk : Bool} {phys : Byte} {s u : State}
    (hp : precheck s.cfg r = true) (hs : ∀ c : Fin 8, slotOk s.cfg s.ch[c] = true)
    (h : finishSet r addressed phys crcOk s = .next u) (c : Fin 8) : slotOk s.cfg u.ch[c] = true := by
  obtain ⟨-, -, -, hkept, hslot, -⟩ := finishSet_cases h
  cases addressed with
  | false =>
    rw [(hkept rfl).1]
    exact hs c
  | true =>
    obtain ⟨c0, -, hset⟩ := hslot rfl
    rw [hset, getElem_set_slot]
    split
    · cases crcOk
      · exact slotOk_zeroSlot s.cfg
      · exact slotOk_slotOf hp
    · exact hs c

theorem move_slots {whole : Prop} {s t : State} (h : DecoderMove whole s t)
    (hinv : Invariant s) (c : Fin 8) : slotOk s.cfg t.ch[c] = true := by
  cases h with
  | quiet h hsrc =>
    have hch : t.ch = s.ch := by rw [h.1]
    rw [hch]
    exact hinv.slots c
  | draw crcOk q a hsrc =>
    rw [endInvocation_ch]
    show slotOk s.cfg (finishDraw crcOk s).ch[c] = true
    rw [finishDraw_ch]
    exact hinv.slots c
  | lastByte q a hd hq ht hr hfin =>
    obtain ⟨-, hrec⟩ := (decoderOk_crc hd).1 hinv.decoder
    obtain ⟨r', hr', hp⟩ := hrec.resolve_left ht
    rw [hr, Option.some.injEq] at hr'
    exact finishSet_slots (hr' ▸ hp) hinv.slots hfin c
  | frame a hw hd hdec hb hload hfin =>
    have hsame := loadPixels_sameButBuffer hload
    simp only [bodyWellFormed, Bool.and_eq_true] at hb
    rw [← hsame.cfg]
    exact finishSet_slots (hsame.cfg ▸ hb.1)
      (fun c => by rw [hsame.cfg, hsame.ch]; exact hinv.slots c) hfin c

theorem flightOk_iff (s : State) :
    flightOk s = true ↔
      (s.busy = true → ∃ a, s.arms.getLast? = some a ∧ s.lanesOut.length ≤ a.bitCount) := by
  unfold flightOk
  cases s.arms.getLast? <;> cases s.busy <;> simp

theorem sameFlight_flightOk {s t : State} (h : SameFlight s t) (hs : flightOk s = true) :
    flightOk t = true := by
  rw [flightOk_iff] at hs ⊢
  rwa [h.busy, h.arms, h.lanesOut]

/-- The call of a draw is within the limits (43 R195, 60 R239). -/
theorem drawArm_ok {s : State} (hinv : Invariant s) (hpos : 0 < longestEnabled s)
    (hmax : longestEnabled s * 8 ≤ s.cfg.maxBitCycles) : armOk s.cfg (drawArm s) = true := by
  have hfits := longestEnabled_le fun c => slotLen_le_of_slotOk (hinv.slots c)
  simp only [armOk, Bool.and_eq_true, decide_eq_true_eq, drawArm_bitCount]
  omega

theorem move_transfer {whole : Prop} {s t : State} (h : DecoderMove whole s t)
    (hinv : Invariant s) : (∀ a ∈ t.arms, armOk s.cfg a = true) ∧ flightOk t = true := by
  have of_same {t : State} (hsame : SameFlight s t) :
      (∀ a ∈ t.arms, armOk s.cfg a = true) ∧ flightOk t = true :=
    ⟨by rw [hsame.arms]; exact hinv.arms, sameFlight_flightOk hsame hinv.flight⟩
  rcases h.sameFlight with ⟨crcOk, q, a, rfl⟩ | ⟨hsame, -⟩
  · rcases finishDraw_flight crcOk s with hsame | ⟨-, hpos, hmax, hrun⟩
    · exact of_same (hsame.ended _ _ _)
    · rw [hrun]
      refine ⟨fun b hb => ?_, (flightOk_iff _).2 fun _ => ⟨drawArm s, ?_, Nat.zero_le _⟩⟩
      · rcases List.mem_append.1 hb with hb | hb
        · exact hinv.arms b hb
        · rw [List.mem_singleton.1 hb]
          exact drawArm_ok hinv hpos hmax
      · exact List.getLast?_append_of_ne_nil _ (by simp)
  · exact of_same hsame

theorem countersOk_iff (s : State) :
    countersOk s = true ↔ s.cntCrcErr < 2 ^ s.cfg.cntW ∧ s.cntFrameMiss < 2 ^ s.cfg.cntW ∧
      s.cntDraws < 2 ^ s.cfg.cntW ∧ s.cntOverdraw < 2 ^ s.cfg.cntW := by
  simp only [countersOk, Bool.and_eq_true, decide_eq_true_eq, and_assoc]

theorem countsUp_countersOk {s t : State} (h : CountsUp s t) (hcfg : t.cfg = s.cfg)
    (hs : countersOk s = true) : countersOk t = true := by
  have bound {m n : Nat} (hm : m < 2 ^ s.cfg.cntW) (hn : n = m ∨ n = increment s.cfg m) :
      n < 2 ^ s.cfg.cntW := by
    rcases hn with rfl | rfl
    · exact hm
    · exact increment_lt _ _
  obtain ⟨hcrc, hmiss, hdraws, hover⟩ := h
  rw [countersOk_iff] at hs ⊢
  obtain ⟨hcrc', hmiss', hdraws', hover'⟩ := hs
  rw [hcfg]
  exact ⟨bound hcrc' hcrc, bound hmiss' hmiss, bound hdraws' hdraws, bound hover' hover⟩

theorem move_invariant {whole : Prop} {s t : State} (h : DecoderMove whole s t)
    (hinv : Invariant s) (hok : decoderOk t = true) : Invariant t where
  legal := h.cfg ▸ hinv.legal
  memWf := (move_keepsForm h).1 hinv.memWf
  memBelow := by
    rw [h.cfg]
    exact (move_keepsForm h).2 hinv.memBelow
  slots c := by
    rw [h.cfg]
    exact move_slots h hinv c
  latch := by
    rw [move_latchCount h, h.cfg]
    exact hinv.latch
  decoder := hok
  arms := by
    rw [h.cfg]
    exact (move_transfer h hinv).1
  counters := countsUp_countersOk h.countsUp h.cfg hinv.counters
  flight := (move_transfer h hinv).2

/-! ### The invariant -/

theorem invariant_resetWith {cfg : Config} (h : cfg.Legal) : Invariant (State.resetWith cfg) where
  legal := h
  memWf := rfl
  memBelow := rfl
  slots c := by
    simp only [State.resetWith, Fin.getElem_fin, Vector.getElem_replicate]
    exact slotOk_zeroSlot cfg
  latch := Nat.zero_le _
  decoder := rfl
  arms a ha := absurd ha List.not_mem_nil
  counters := (countersOk_iff _).2
    ⟨Nat.two_pow_pos _, Nat.two_pow_pos _, Nat.two_pow_pos _, Nat.two_pow_pos _⟩
  flight := rfl

theorem invariant_applyReset {s : State} (h : Invariant s) : Invariant (applyReset s) :=
  have hr := invariant_resetWith h.legal
  ⟨hr.legal, hr.memWf, hr.memBelow, hr.slots, hr.latch, hr.decoder, hr.arms, hr.counters, hr.flight⟩

/-- Settles O51: a step answers by `step_answers`; the decoder's moves keep the invariant by
`move_invariant`, the others touch only the parts named in their case. -/
theorem everyStepKeepsTheInvariant : Obligations.EveryStepKeepsTheInvariant := by
  intro s hinv
  obtain ⟨t, hstep, hok⟩ := step_answers hinv
  obtain ⟨hlegal, hwf, hbelow, hslots, hlatch, hdecoder, harms, hcounters, hflight⟩ :=
    invariant_afterMove hinv
  refine ⟨t, hstep, ?_⟩
  cases step_kind hstep with
  | decoder hs h => exact move_invariant h (invariant_afterMove hinv) hok
  | byte b hs => exact ⟨hlegal, hwf, hbelow, hslots, hlatch, hok, harms, hcounters, hflight⟩
  | complete hs hc =>
    exact ⟨hlegal, hwf, hbelow, hslots, le_rfl, hok, harms, hcounters,
      (flightOk_iff _).2 fun hb => absurd hb Bool.false_ne_true⟩
  | stay hs => exact invariant_afterMove hinv
  | tick hs =>
    exact ⟨hlegal, hwf, hbelow, hslots, (Nat.sub_le _ _).trans hinv.latch, hok, harms, hcounters,
      hflight⟩
  | emit b hs hb ha hl =>
    refine ⟨hlegal, hwf, hbelow, hslots, hlatch, hok, harms, hcounters,
      (flightOk_iff _).2 fun _ => ⟨_, ha, ?_⟩⟩
    rw [List.length_append, List.length_singleton]
    exact hl
  | reset hs => exact invariant_applyReset (invariant_afterMove hinv)

/-! ### Clean tails -/

/-- While no record is received the tail of a channel starts past its slot (10_state R29). -/
theorem tailStart_eq_slotLen {s : State} {c : Fin 8} (h : receivedRecord s c.val = none) :
    tailStart s c = slotLen s.ch[c] := by
  simp only [tailStart, h]

theorem slotLen_le_tailStart (s : State) (c : Fin 8) : slotLen s.ch[c] ≤ tailStart s c := by
  unfold tailStart
  split
  · exact Nat.le_max_left _ _
  · exact le_rfl

/-- Where the tail of slot `c` of a table starts while record `r` is received for channel `phys`
(70 R271). -/
def recordStart (addressed : Bool) (phys : Byte) (r : Record) (ch : Vector Slot 8) (c : Fin 8) : Nat :=
  if addressed = true ∧ phys.toNat = c.val then max (slotLen ch[c]) (newLen r) else slotLen ch[c]

theorem tailStart_eq_recordStart {s : State} {r : Record}
    (hs : s.dstate = .pix ∨ ∃ k, s.dstate = .crc k) (hr : recordOf s.lat.hType s.lat.par = some r)
    (c : Fin 8) : tailStart s c = recordStart s.lat.addressed s.lat.phys r s.ch c := by
  unfold tailStart recordStart
  rw [receivedRecord_inFrame hs, hr]
  by_cases h : s.lat.addressed = true ∧ s.lat.phys.toNat = c.val
  · rw [if_pos h, if_pos h]
  · rw [if_neg h, if_neg h]

theorem tailByteOk_tailFillByte (cfg : Config) (r : Record) : tailByteOk cfg (tailFillByte cfg r) := by
  unfold tailFillByte
  split
  case isTrue h => exact .inr ⟨h.1, rfl⟩
  case isFalse => exact .inl rfl

/-- `Finish()` of a record leaves clean tails past the table's new lengths, when the tails were clean
past the old ones and past the record (10_state R29, 41 R144 to R147). -/
theorem finishSet_tails {r : Record} {addressed crcOk : Bool} {phys : Byte} {v u : State}
    (hwf : v.bp.wf = true) (hmode : v.cfg.tailFill ≠ .none)
    (hfin : finishSet r addressed phys crcOk v = .next u)
    (htails : ∀ (c : Fin 8) i, recordStart addressed phys r v.ch c ≤ i → i < v.cfg.cap →
      tailByteOk v.cfg (chanByte v.bp c.val i)) (c : Fin 8) (i : Nat) (hi : slotLen u.ch[c] ≤ i)
    (hcap : i < v.cfg.cap) : tailByteOk v.cfg (chanByte u.bp c.val i) := by
  obtain ⟨-, -, -, hkept, hslot, -⟩ := finishSet_cases hfin
  by_cases hc : addressed = true ∧ phys.toNat = c.val
  · obtain ⟨rfl, hphys⟩ := hc
    rw [finishSet_addressed r c hphys] at hfin
    cases crcOk with
    | false =>
      rw [commitMismatch_chanByte (s := countError .crc v) hwf hfin, if_pos ⟨rfl, hcap⟩]
      exact .inl rfl
    | true =>
      rw [commitMatch_ch hfin, getElem_set_slot, if_pos rfl, slotLen_slotOf] at hi
      rcases commitMatch_chanByte hwf hfin with ⟨hkeep, hbp⟩ | ⟨-, hbp⟩
      · have hskip : skipsTailFill v.ch[c] r = true := by
          rcases hkeep with hskip | ⟨hnone, -⟩
          · exact hskip
          · exact absurd hnone hmode
        have hlen := ((skipsTailFill_iff _ _).1 hskip).2
        rw [hbp]
        exact htails c i (by rw [recordStart, if_pos ⟨rfl, hphys⟩]; omega) hcap
      · rw [hbp, if_pos ⟨rfl, hi, hcap⟩]
        exact tailByteOk_tailFillByte v.cfg r
  · have hch : u.ch[c] = v.ch[c] := by
      cases addressed with
      | false => rw [(hkept rfl).1]
      | true =>
        obtain ⟨c0, hc0, hset⟩ := hslot rfl
        rw [hset, getElem_set_slot, if_neg fun he => hc ⟨rfl, by rw [hc0, he]⟩]
    have hbyte : chanByte u.bp c.val i = chanByte v.bp c.val i := by
      cases addressed with
      | false => rw [(hkept rfl).2]
      | true => exact finishSet_chanByte_outside hwf hfin (.inl fun he => hc ⟨rfl, he.symm⟩)
    rw [hbyte]
    exact htails c i (by rw [recordStart, if_neg hc, ← hch]; exact hi) hcap

/-- Clean tails of a state outside a frame. -/
theorem tailsClean_of_idle {s : State} (hd : s.dstate = .idle)
    (h : ∀ (c : Fin 8) i, slotLen s.ch[c] ≤ i → i < s.cfg.cap →
      tailByteOk s.cfg (chanByte s.bp c.val i)) : TailsClean s := by
  intro c i hi
  rw [tailStart_eq_slotLen (receivedRecord_noFrame (by simp [hd]) (by simp [hd]) _)] at hi
  exact h c i hi

theorem tailsClean_ended {u : State} {l : Latches} {q a : List Byte}
    (h : ∀ (c : Fin 8) i, slotLen u.ch[c] ≤ i → i < u.cfg.cap →
      tailByteOk u.cfg (chanByte u.bp c.val i)) :
    TailsClean (endInvocation (working .idle l q a u)) := tailsClean_of_idle rfl h

theorem Follows.tailsClean {s t : State} (h : Follows s t) (hclean : TailsClean s) : TailsClean t := by
  intro c i hi hcap
  have hstart : tailStart s c ≤ tailStart t c := by
    rcases h.record c.val with hnone | hsame
    · rw [tailStart_eq_slotLen hnone, ← h.ch]
      exact slotLen_le_tailStart t c
    · simp only [tailStart, hsame, h.ch, le_refl]
  rw [h.cfg] at hcap ⊢
  rw [h.tails c i (hstart.trans hi)]
  exact hclean c i (hstart.trans hi) hcap

/-- In a state before the end of a DRAW_ALL frame no pixels are received. -/
theorem receivedRecord_draw {s : State}
    (h : s.dstate = .idle ∨ (s.dstate = .crc 3 ∧ s.lat.hType = typeDrawAll)) (c : Nat) :
    receivedRecord s c = none := by
  rcases h with hd | ⟨hd, htype⟩
  · exact receivedRecord_noFrame (by simp [hd]) (by simp [hd]) c
  · have hnone : recordOf typeDrawAll s.lat.par = none := rfl
    rw [receivedRecord_inFrame (.inr ⟨3, hd⟩), htype, hnone]
    split <;> rfl

/-- The pixels of a whole frame leave the tails past its record clean (70 R271). -/
theorem loadPixels_tails {s v : State} {r : Record} {addressed : Bool} {phys : Byte}
    {data : List Byte} (hwf : s.bp.wf = true)
    (hload : loadPixels r phys (pixelCount r) 0 data s = .next v)
    (haddr : phys.toNat < 8 → addressed = true)
    (htails : ∀ (c : Fin 8) i, slotLen s.ch[c] ≤ i → i < s.cfg.cap →
      tailByteOk s.cfg (chanByte s.bp c.val i)) (c : Fin 8) (i : Nat)
    (hi : recordStart addressed phys r s.ch c ≤ i) (hcap : i < s.cfg.cap) :
    tailByteOk s.cfg (chanByte v.bp c.val i) := by
  have hsame : chanByte v.bp c.val i = chanByte s.bp c.val i := by
    refine loadPixels_chanByte_outside hwf hload ?_
    by_cases hc : c.val = phys.toNat
    · rw [recordStart, if_pos ⟨haddr (hc ▸ c.isLt), hc.symm⟩] at hi
      exact .inr (.inr (.inr (by rw [Nat.zero_add]; exact (Nat.le_max_right _ _).trans hi)))
    · exact .inr (.inl hc)
  have hstart : slotLen s.ch[c] ≤ recordStart addressed phys r s.ch c := by
    unfold recordStart
    split
    · exact Nat.le_max_left _ _
    · exact le_rfl
  rw [hsame]
  exact htails c i (hstart.trans hi) hcap

theorem move_tailsClean {whole : Prop} {s t : State} (h : DecoderMove whole s t)
    (hinv : Invariant s) (hmode : s.cfg.tailFill ≠ .none) (hclean : TailsClean s) :
    TailsClean t := by
  have outside_frame (hnone : ∀ c, receivedRecord s c = none) (c : Fin 8) (i : Nat)
      (hi : slotLen s.ch[c] ≤ i) (hcap : i < s.cfg.cap) :
      tailByteOk s.cfg (chanByte s.bp c.val i) :=
    hclean c i (by rwa [tailStart_eq_slotLen (hnone c)]) hcap
  cases h with
  | quiet h hsrc =>
    rcases hsrc with ⟨hstep, hin⟩ | ⟨hd, hdt, hbp⟩
    · obtain ⟨t', hstep', hfollows⟩ := decoderStep_follows hinv.decoder hinv.memWf hin
      cases hstep'.symm.trans hstep
      exact hfollows.tailsClean hclean
    · have hcfg : t.cfg = s.cfg := by rw [h.1]
      have hch : t.ch = s.ch := by rw [h.1]
      refine tailsClean_of_idle hdt ?_
      rw [hcfg, hch, hbp]
      exact outside_frame (receivedRecord_draw (.inl hd))
  | draw crcOk q a hsrc =>
    refine tailsClean_ended ?_
    rw [finishDraw_cfg, finishDraw_ch, finishDraw_bp]
    exact outside_frame (receivedRecord_draw hsrc)
  | lastByte q a hd hq ht hr hfin =>
    refine tailsClean_ended ?_
    rw [(recordEnd_of_finishSet hfin).sameFlight.cfg]
    refine finishSet_tails hinv.memWf hmode hfin fun c i hi => ?_
    rw [← tailStart_eq_recordStart (.inr ⟨3, hd⟩) hr] at hi
    exact hclean c i hi
  | frame a hw hd hdec hb hload hfin =>
    refine tailsClean_ended ?_
    have hsame := loadPixels_sameButBuffer hload
    have hloaded := loadPixels_tails hinv.memWf hload (physOf_lt_iff _ _).1
      (outside_frame (receivedRecord_draw (.inl hd)))
    rw [(recordEnd_of_frame hload hfin).sameFlight.cfg, ← hsame.cfg]
    rw [← hsame.cfg] at hfin
    rw [← hsame.cfg, ← hsame.ch] at hloaded
    exact finishSet_tails ((loadPixels_keepsForm hload).1 hinv.memWf) (hsame.cfg ▸ hmode) hfin hloaded

/-- Every byte of an empty buffer is zero (10_state R42). -/
theorem chanByte_nil (c i : Nat) : chanByte [] c i = 0x00 := by
  apply BitVec.eq_of_getLsbD_eq
  intro j hj
  rw [chanByte_getLsbD _ _ _ _ hj]
  simp [laneRead]

theorem tailsClean_resetWith (cfg : Config) : TailsClean (State.resetWith cfg) :=
  fun c i _ _ => .inl (chanByte_nil c.val i)

/-- Settles O52: the decoder's moves by `move_tailsClean`; the others, but for reset, leave table,
buffer and latches. -/
theorem everyStepKeepsTailsClean : Obligations.EveryStepKeepsTailsClean := by
  intro s t hinv hmode hclean hstep
  cases step_kind hstep with
  | decoder hs h => exact move_tailsClean h (invariant_afterMove hinv) hmode hclean
  | byte b hs => exact hclean
  | complete hs hc => exact hclean
  | stay hs => exact hclean
  | tick hs => exact hclean
  | emit b hs hb ha hl => exact hclean
  | reset hs => exact tailsClean_resetWith s.cfg

/-- The device at hand has legal parameters (assumption 2). -/
theorem device_legal : Config.device.Legal := by
  simp only [Config.Legal, Config.device]
  omega

/-- Settles O50: by `invariant_resetWith` and `tailsClean_resetWith`, the device's parameters being
legal. -/
theorem invariantsHoldAtReset : Obligations.InvariantsHoldAtReset :=
  ⟨fun cfg hlegal => ⟨invariant_resetWith hlegal, tailsClean_resetWith cfg⟩,
    invariant_resetWith device_legal, tailsClean_resetWith Config.device⟩

/-- Settles O49: each clause is the value `State.resetWith` writes. -/
theorem resetZeroesEverything : Obligations.ResetZeroesEverything := by
  intro cfg
  refine ⟨fun c => ?slots, fun L => rfl, rfl, rfl, rfl, rfl, rfl, rfl, rfl, rfl, rfl, rfl⟩
  case slots => simp only [State.resetWith, Fin.getElem_fin, Vector.getElem_replicate]

end Sys2Proof.Proofs.Invariants

/-! PROOFS: the step of the machine (10_state R40 to R43, 41 R149, 70 R281). -/

namespace Sys2Proof.Proofs.Dispatch

open Sys2Proof Sys2Proof.Machine

/-- With nothing scheduled the decoder moves. -/
theorem step_of_sched_nil {s : State} (hs : s.sched = []) : step s = invocation s := by
  simp only [step, hs]

/-- The first move scheduled is made, and taken off the schedule. -/
theorem step_of_sched_cons {s : State} {m : Move} {ms : List Move} (hs : s.sched = m :: ms) :
    step s = runMove m { s with sched := ms } := by
  simp only [step, hs]

/-- Settles O9: the branch of `idleInvocation` that has read an instruction. -/
theorem stepRunsTheDecodedInstruction : Obligations.StepRunsTheDecodedInstruction := by
  intro s i rest hs hd ht hdec
  simp only [step_of_sched_nil hs, invocation, hd, idleInvocation, available, ht, if_true, hdec]

/-- Settles O10: each clause is `step_of_sched_cons` with the arm of `runMove` for that move. -/
theorem stepTakesTheScheduledMove : Obligations.StepTakesTheScheduledMove := fun _ _ =>
  ⟨step_of_sched_cons, step_of_sched_cons, step_of_sched_cons, step_of_sched_cons,
    fun _ => step_of_sched_cons, fun _ => step_of_sched_cons⟩

/-- Settles O11: the reset move is `applyReset`, which keeps the schedule and the draw count. -/
theorem resetAtAnyTimeGivesTheResetState : Obligations.ResetAtAnyTimeGivesTheResetState :=
  fun _ _ hs => step_of_sched_cons hs

/-- Settles O12: a triggered idle decoder reads the six bytes and ends with E_RECTYPE. -/
theorem reservedTypeEndsTheInvocation : Obligations.ReservedTypeEndsTheInvocation := by
  intro s ch t rest hs hd ht hq htype
  refine ⟨anyLatches s.drawn, s.drawn + 1, ?_⟩
  have hdec : decode s.cfg s.queue = .rejected (.reservedType ch t rest) := by
    rw [hq]
    exact Encoding.decode_reserved s.cfg ch htype rest
  have hstep : step s = .next (endReserved ch t rest s) := by
    simp only [step_of_sched_nil hs, invocation, hd, idleInvocation, available, ht, if_true, hdec]
  rw [hstep]
  simp only [endReserved, raiseError, countError, endInvocation, headerBytes, magic, List.cons_append,
    List.nil_append, hd]

/-- A set-channel term inside a frame, or ill-formed, is plain bytes (41 R149). -/
theorem execSet_delivers {s : State} {i : Instr} {ch : Byte} {r : Record} {body : Option Payload}
    {bs : List Byte} (he : encode i = some bs)
    (h : s.dstate ≠ .idle ∨ bodyWellFormed s.cfg r body = false) :
    execSet i ch r body s = .next { s with queue := bs ++ s.queue } := by
  have hcond : ¬ (s.dstate == .idle && bodyWellFormed s.cfg r body) = true := by
    rw [Bool.and_eq_true, beq_iff_eq]
    rintro ⟨hd, hb⟩
    rcases h with h | h
    · exact h hd
    · rw [h] at hb
      cases hb
  rw [execSet, if_neg hcond, deliver, wireBytes, he]
  rfl

/-- Settles O14: by the form of the term; `execSet_delivers` for the set-channel terms. -/
theorem bytesInsideAFrameAreThatFrames : Obligations.BytesInsideAFrameAreThatFrames := by
  intro s i bs he h
  cases i with
  | setWs2812 ch n ord px body => exact execSet_delivers he h
  | setApa102Data ch f ord px body => exact execSet_delivers he h
  | setApa102Clock ch f crc => exact execSet_delivers he h
  | drawAll ch crc =>
    have hd : s.dstate ≠ .idle := h.resolve_right (by simp [wellFormed])
    cases he
    show execDrawAll ch crc s = _
    unfold execDrawAll
    split
    case h_1 hidle => exact absurd hidle hd
    case h_2 => rfl
  | magicMiss k b =>
    have hcond : ¬ (s.dstate == .idle && wellFormed s.cfg (.magicMiss k b)) = true := by
      rw [Bool.and_eq_true, beq_iff_eq]
      rintro ⟨hd, hwf⟩
      rcases h with h | h
      · exact h hd
      · rw [h] at hwf
        cases hwf
    cases he
    exact if_neg hcond
  | encode off c bytes n => cases he
  | fillZero off c n => cases he
  | fillOne off c n => cases he
  | drawAttempt => cases he
  | xferDone => cases he
  | tick => cases he

/-- An idle decoder with too few bytes for the trigger holds (41 R131). -/
theorem stepIdle_holds {s : State} (h : s.queue.length < s.cfg.triggerMin) : stepIdle s = s :=
  if_neg (Nat.not_le_of_lt h)

/-- Settles O59: nothing is scheduled, and the idle decoder holds. -/
theorem quiescentMachinesStay : Obligations.QuiescentMachinesStay := by
  intro s hquiet hs
  simp only [quiescent, Bool.and_eq_true, beq_iff_eq] at hquiet
  obtain ⟨⟨⟨⟨havail, hd⟩, -⟩, -⟩, -⟩ := hquiet
  have hfew : s.queue.length < s.cfg.triggerMin := of_decide_eq_true havail
  have hnot : ¬ s.cfg.triggerMin ≤ s.queue.length := Nat.not_le_of_lt hfew
  simp only [step_of_sched_nil hs, invocation, hd, idleInvocation, available, hnot, if_false,
    decoderStep, stepIdle_holds hfew]

end Sys2Proof.Proofs.Dispatch

/-! PROOFS of the family 41_frame_decoder: trigger, header, parameter block, magic misses, and ticks
between steps. -/

namespace Sys2Proof.Proofs.DecoderSteps

open Sys2Proof Sys2Proof.Machine

/-! ### Trigger, header, parameter block -/

/-- Settles O16: both branches of `stepIdle`. -/
theorem triggerStartsAnInvocation : Obligations.TriggerStartsAnInvocation := by
  intro s hd
  have hstep : decoderStep s = .next (stepIdle s) := by simp only [decoderStep, hd]
  rw [hstep]
  exact ⟨fun ht => congrArg Host.Outcome.next (if_pos ht),
    fun hfew => congrArg Host.Outcome.next (Dispatch.stepIdle_holds hfew)⟩

/-- A header byte is read (41 R130, R134). -/
theorem decoderStep_of_dstate_hdr {s : State} {j : Fin 2} {b : Byte} {q : List Byte}
    (hd : s.dstate = .hdr j) (hq : s.queue = b :: q) :
    decoderStep s = stepHdr j b { s with queue := q, crcAcc := s.crcAcc ++ [b] } := by
  simp only [decoderStep, hd, FrameDecoder.withByte_of_queue_cons hq]

theorem dispatchRecord_of_drawAll {s : State} (h : s.lat.hType = typeDrawAll) :
    dispatchRecord s = toTrailer s := if_pos h

theorem dispatchRecord_of_reserved {s : State} (h : s.lat.hType ≠ typeDrawAll)
    (hlen : parLen s.lat.hType = 0) : dispatchRecord s = raiseError .recType s := by
  rw [dispatchRecord, if_neg h, if_pos hlen]

theorem dispatchRecord_of_record {s : State} (h : s.lat.hType ≠ typeDrawAll)
    (hlen : parLen s.lat.hType ≠ 0) : dispatchRecord s = { s with dstate := .param 0 } := by
  rw [dispatchRecord, if_neg h, if_neg hlen]

theorem parLen_reserved {t : Byte} (h : t = 0x00 ∨ 0x05 ≤ t.toNat) : parLen t = 0 := by
  obtain ⟨h1, -, h3, h4⟩ := Encoding.reserved_ne h
  rw [parLen, if_neg h1, if_neg h3, if_neg h4]

theorem parLen_record {t : Byte} (h : t = 0x01 ∨ t = 0x03 ∨ t = 0x04) :
    t ≠ typeDrawAll ∧ parLen t ≠ 0 := by
  rcases h with rfl | rfl | rfl <;> decide

/-- Settles O18: the first header byte by definition, the second by the three cases of
`dispatchRecord`. -/
theorem headerLatchesAndDispatches : Obligations.HeaderLatchesAndDispatches := by
  intro s b q hq
  refine ⟨fun hd => ?channel, fun hd => ?type⟩
  case channel =>
    rw [decoderStep_of_dstate_hdr hd hq]
    rfl
  case type =>
    have hstep : decoderStep s = .next (dispatchRecord { s with
        queue := q
        crcAcc := s.crcAcc ++ [b]
        lat := { s.lat with
          hType := b
          addressed := isAddressed s.cfg s.lat.hChannel
          phys := physOf s.cfg s.lat.hChannel } }) := by
      rw [decoderStep_of_dstate_hdr hd hq]
      rfl
    rw [hstep]
    refine ⟨fun hb => ?_, fun hb => ?_, fun hb => ⟨anyLatches s.drawn, s.drawn + 1, ?_⟩⟩
    · obtain ⟨hdraw, hlen⟩ := parLen_record hb
      rw [dispatchRecord_of_record hdraw hlen]
    · rw [dispatchRecord_of_drawAll hb]
      rfl
    · have hdraw : b ≠ typeDrawAll := (Encoding.reserved_ne hb).2.1
      rw [dispatchRecord_of_reserved hdraw (parLen_reserved hb)]
      rfl

/-- Settles O19: `stepParam_last`, then the three cases of the precheck. -/
theorem lastParameterByteRunsThePrecheck : Obligations.LastParameterByteRunsThePrecheck := by
  intro s j b q r hd hq hj hr
  rw [Invariants.decoderStep_eq hd hq, decoderStep_param, stepParam_last hj]
  refine ⟨fun hp => ⟨anyLatches s.drawn, s.drawn + 1, ?_⟩, fun hp hpos => ?_, fun hp hz => ?_⟩
  · exact paramsDone_refused hr hp
  · exact paramsDone_pixels hr hp (Nat.ne_of_gt hpos)
  · exact paramsDone_empty hr hp hz

/-! ### Ticks between steps -/

/-- `s` with another latch count. -/
def withLatch (n : Nat) (s : State) : State := { s with latchCount := n }

/-- `f` neither reads nor writes the latch count. -/
def BlindToLatch (f : State → Outcome) : Prop :=
  ∀ n s, f (withLatch n s) = andThen (f s) fun t => .next (withLatch n t)

/-- What follows a choice follows each branch. -/
theorem ite_andThen (c : Prop) [Decidable c] (x y : Outcome) (k : State → Outcome) :
    andThen (if c then x else y) k = if c then andThen x k else andThen y k :=
  apply_ite (andThen · k) c x y

theorem loadPixel_blindToLatch (r : Record) (phys : Byte) (p : Nat) (ein : List Byte) :
    BlindToLatch (loadPixel r phys p ein) := by
  intro n s
  rw [loadPixel_eq_encodeOp, loadPixel_eq_encodeOp]
  unfold encodeOp
  simp only [ite_andThen]
  rfl

theorem stepIdle_withLatch (n : Nat) (s : State) :
    stepIdle (withLatch n s) = withLatch n (stepIdle s) := by
  unfold stepIdle
  rw [apply_ite (withLatch n)]
  rfl

theorem stepMagic_blindToLatch (i : Fin 4) (b : Byte) : BlindToLatch (stepMagic i b) := by
  intro n s
  unfold stepMagic
  rw [ite_andThen]
  rfl

theorem dispatchRecord_withLatch (n : Nat) (s : State) :
    dispatchRecord (withLatch n s) = withLatch n (dispatchRecord s) := by
  unfold dispatchRecord
  rw [apply_ite (withLatch n), apply_ite (withLatch n)]
  rfl

theorem stepHdr_blindToLatch (j : Fin 2) (b : Byte) : BlindToLatch (stepHdr j b) := by
  intro n s
  unfold stepHdr
  simp only [ite_andThen, andThen_next, ← dispatchRecord_withLatch]
  rfl

theorem paramsDone_blindToLatch : BlindToLatch paramsDone := by
  intro n s
  unfold paramsDone
  cases hr : recordOf s.lat.hType s.lat.par with
  | none => rw [show recordOf (withLatch n s).lat.hType (withLatch n s).lat.par = none from hr]; rfl
  | some r =>
    rw [show recordOf (withLatch n s).lat.hType (withLatch n s).lat.par = some r from hr]
    simp only [ite_andThen]
    rfl

theorem stepParam_blindToLatch (j : Fin 7) (b : Byte) : BlindToLatch (stepParam j b) := by
  intro n s
  unfold stepParam
  simp only [ite_andThen]
  rw [← paramsDone_blindToLatch]
  rfl

theorem nextPixel_withLatch (r : Record) (n : Nat) (s : State) :
    nextPixel r (withLatch n s) = withLatch n (nextPixel r s) := by
  unfold nextPixel
  rw [apply_ite (withLatch n)]
  rfl

theorem stepPix_blindToLatch (b : Byte) : BlindToLatch (stepPix b) := by
  intro n s
  unfold stepPix
  cases hr : recordOf s.lat.hType s.lat.par with
  | none => rw [show recordOf (withLatch n s).lat.hType (withLatch n s).lat.par = none from hr]; rfl
  | some r =>
    rw [show recordOf (withLatch n s).lat.hType (withLatch n s).lat.par = some r from hr]
    simp only [ite_andThen, andThen_assoc, andThen_next, ← nextPixel_withLatch]
    have hload := loadPixel_blindToLatch r s.lat.phys s.lat.pIdx.toNat
      ((s.lat.ein.set s.lat.eIdx.toNat b).toList.take (wireElems r)) n
      { s with lat := { s.lat with ein := s.lat.ein.set s.lat.eIdx.toNat b } }
    refine (congrArg (fun o => if s.lat.eIdx.toNat + 1 < wireElems r then _ else andThen o _)
      hload).trans ?_
    rw [andThen_assoc]
    rfl

theorem stepCrc_blindToLatch {k : Fin 4} (hk : k ≠ 3) (b : Byte) : BlindToLatch (stepCrc k b) := by
  intro n s
  unfold stepCrc
  simp only [if_neg hk]
  rfl

theorem withByte_blindToLatch {f : Byte → State → Outcome} (hf : ∀ b, BlindToLatch (f b)) :
    BlindToLatch fun s => withByte s f := by
  intro n s
  cases hq : s.queue with
  | nil => simp only [withByte, readByte, withLatch, hq, andThen_next]
  | cons b q =>
    have hq' : (withLatch n s).queue = b :: q := hq
    simp only [FrameDecoder.withByte_of_queue_cons hq, FrameDecoder.withByte_of_queue_cons hq']
    exact hf b n { s with queue := q, crcAcc := s.crcAcc ++ [b] }

/-- Only the step on the last trailer byte, where a draw is attempted, looks at the latch count. -/
theorem decoderStep_withLatch {s : State} (h : s.dstate ≠ .crc 3) (n : Nat) :
    decoderStep (withLatch n s) = andThen (decoderStep s) fun t => .next (withLatch n t) := by
  have hstate : (withLatch n s).dstate = s.dstate := rfl
  unfold decoderStep
  rw [hstate]
  cases hd : s.dstate with
  | idle => exact congrArg Host.Outcome.next (stepIdle_withLatch n s)
  | magic i => exact withByte_blindToLatch (stepMagic_blindToLatch i) n s
  | hdr j => exact withByte_blindToLatch (stepHdr_blindToLatch j) n s
  | param j => exact withByte_blindToLatch (stepParam_blindToLatch j) n s
  | pix => exact withByte_blindToLatch stepPix_blindToLatch n s
  | crc k =>
    exact withByte_blindToLatch (stepCrc_blindToLatch fun hk => h (by rw [hd, hk])) n s

/-- Settles O20: a tick sets the latch count to one less, a decoder step keeps it
(`move_latchCount`), and but for the last trailer byte does not look at it. -/
theorem tickCommutesWithDecoderSteps : Obligations.TickCommutesWithDecoderSteps := by
  intro s h
  have htick : andThen (exec .tick s) decoderStep
      = andThen (decoderStep s) fun t => .next (withLatch (s.latchCount - 1) t) := by
    rw [StepKinds.exec_tick, andThen_next]
    exact decoderStep_withLatch h (s.latchCount - 1)
  rw [htick]
  cases hstep : decoderStep s with
  | next t =>
    have hlatch := Invariants.move_latchCount (StepKinds.decoderStep_move True hstep)
    rw [andThen_next, andThen_next, StepKinds.exec_tick, hlatch]
    rfl
  | fault f => rfl
  | refused r => rfl

/-! ### Magic misses -/

/-- Settles O21: the instruction by `exec_magicMiss`; the step runs it, as the bytes decode to it. -/
theorem magicMissCountsAndConsumesTheComparedBytes :
    Obligations.MagicMissCountsAndConsumesTheComparedBytes := by
  intro s i b hd hb
  have hexec (rest : List Byte) : exec (.magicMiss i b) { s with queue := rest }
      = .next { s with
        queue := rest, cntFrameMiss := (s.cntFrameMiss + 1) % 2 ^ s.cfg.cntW
        crcAcc := magic.take i.val ++ [b], lat := anyLatches s.drawn, drawn := s.drawn + 1 } := by
    rw [ByteWise.exec_magicMiss (s := { s with queue := rest }) hd hb, FrameDecoder.raiseError_magic]
    simp only [hd]
  refine ⟨⟨_, _, hexec s.queue⟩, fun rest hs ht hq => ⟨anyLatches s.drawn, s.drawn + 1, ?_⟩⟩
  rw [Dispatch.stepRunsTheDecodedInstruction s (.magicMiss i b) rest hs hd ht
    (by rw [hq]; exact Encoding.decode_magicMiss s.cfg hb rest)]
  exact hexec rest

/-- Two counts modulo the width add up (10_state R33). -/
theorem add_mod_succ (c n m : Nat) : ((c + 1) % m + n) % m = (c + (n + 1)) % m := by
  rw [Nat.mod_add_mod, Nat.add_assoc, Nat.add_comm 1 n]

/-- Settles O22, by induction on the bytes: the first is a miss at magic byte 0. -/
theorem nonMagicBytesAreOneMissEach : Obligations.NonMagicBytesAreOneMissEach := by
  intro s bs rest hs hd hq ht hcnt hne
  induction bs generalizing s with
  | nil =>
    refine ⟨s.crcAcc, s.lat, s.drawn, congrArg Host.Outcome.next ?_⟩
    have hq : s.queue = rest := hq
    rw [← hq, List.length_nil, Nat.add_zero, Nat.mod_eq_of_lt hcnt]
  | cons b bs ih =>
    have hb : b ≠ magicByte 0 := hne b List.mem_cons_self
    have hlen : s.cfg.triggerMin ≤ s.queue.length := by
      simp only [hq, List.length_append, List.length_cons]
      omega
    obtain ⟨lat, d, hstep⟩ := (magicMissCountsAndConsumesTheComparedBytes s 0 b hd hb).2
      (bs ++ rest) hs hlen hq
    obtain ⟨acc, lat', d', hrest⟩ := ih
      { s with
        queue := bs ++ rest, cntFrameMiss := (s.cntFrameMiss + 1) % 2 ^ s.cfg.cntW
        crcAcc := magic.take (0 : Fin 4).val ++ [b], lat := lat, drawn := d }
      hs hd rfl ht (Nat.mod_lt _ (Nat.two_pow_pos _)) fun b' hb' => hne b' (List.mem_cons_of_mem _ hb')
    refine ⟨acc, lat', d', ?_⟩
    rw [List.length_cons, steps, hstep, andThen_next, hrest]
    simp only [add_mod_succ]

end Sys2Proof.Proofs.DecoderSteps

/-! PROOFS of the family 40_bitplane_ops: FILL_ONE, independence, calls on no channel and out of range. -/

namespace Sys2Proof.Proofs.BitPlaneCalls

open Sys2Proof Sys2Proof.Machine BitPlane

/-- Settles O26: the instruction is `fillOp true`; its lane bits by `fillOp_getLsbD`, its bytes by
`fillOp_chanByte`, the rest by `fillOp_frame` and `fillOp_writesNothing`. -/
theorem fillOneSetsTheBlocks : Obligations.FillOneSetsTheBlocks := by
  intro s off c blockCount hwf hr
  have h := fillOp_inRange (v := true) (c := c) hr
  refine ⟨_, h, fillOp_frame h, fun hc L c' => ?lanes, fun hc i hlo hhi => ?bytes,
    fillOp_writesNothing h⟩
  case lanes => simp only [fillOp_getLsbD hwf h, show c.toNat < 8 by omega, true_and]
  case bytes =>
    rw [fillOp_chanByte hwf h, if_pos ⟨by omega, rfl, hlo, hhi⟩]
    rfl

/-- Settles O27: a byte that is not of channel `c`, or outside the blocks, is in the unchanged branch of
`encodeOp_chanByte` and `fillOp_chanByte`. -/
theorem bitPlaneOperationsAreIndependent : Obligations.BitPlaneOperationsAreIndependent := by
  intro s t off c bytes n hwf hc h
  have kept (c' i : Nat) (hout : ¬ (c' = c.toNat ∧ off ≤ i ∧ i < off + n)) :
      chanByte t.bp c' i = chanByte s.bp c' i := by
    rcases h with h | h | h
    · obtain ⟨u, hu, ht⟩ := andThen_eq_next.1 h
      cases ht
      exact (encodeOp_chanByte hwf hu c' i).trans (if_neg fun hin => hout hin.2)
    · exact (fillOp_chanByte hwf h c' i).trans (if_neg fun hin => hout hin.2)
    · exact (fillOp_chanByte hwf h c' i).trans (if_neg fun hin => hout hin.2)
  exact ⟨fun c' i hne => kept c' i fun hin => hne hin.1, fun i hi => kept c.toNat i (by omega)⟩

/-- Settles O28: in range the operations answer, on no channel with the state they were given. -/
theorem invalidChannelIndexWritesNothing : Obligations.InvalidChannelIndexWritesNothing := by
  intro s off c bytes n hc hr
  have fill (v : Bool) : fillOp v off c n s = .next s := by rw [fillOp_inRange hr, if_pos hc]
  refine ⟨fun hn => ?_, fill false, fill true⟩
  obtain ⟨u, hu, hexec⟩ := exec_encode_inRange (c := c) hr hn
  rw [hexec, encodeOp_writesNothing hu (.inl hc)]

/-- Settles O29: the two refusals of the operations. -/
theorem callsOutOfRangeAreRefused : Obligations.CallsOutOfRangeAreRefused := by
  intro s off c bytes n
  refine ⟨fun hpast => ⟨?_, if_pos hpast, if_pos hpast⟩, fun hr hshort => ?_⟩
  · have h : encodeOp off c bytes n s = .refused (.blockRangePastCap off n) := if_pos hpast
    show andThen (encodeOp off c bytes n s) _ = _
    rw [h]
    rfl
  · have h : encodeOp off c bytes n s = .refused (.encodeSourceTooShort n) := by
      rw [encodeOp, if_neg (Nat.not_lt_of_le hr), if_pos hshort]
    show andThen (encodeOp off c bytes n s) _ = _
    rw [h]
    rfl

end Sys2Proof.Proofs.BitPlaneCalls

/-! PROOFS of the family 43_draw_scheduler: DRAW_ALL, the outcomes of a draw attempt, the events and the
scheduler's states. -/

namespace Sys2Proof.Proofs.Draws

open Sys2Proof Sys2Proof.Machine DrawScheduler

/-! ### DRAW_ALL -/

/-- A DRAW_ALL frame as an instruction, with its bytes and the return to S_IDLE set apart
(43 R190). -/
theorem exec_drawAll_eq {s : State} (hd : s.dstate = .idle) (ch : Byte) (crc : Word) :
    exec (.drawAll ch crc) s
      = .next (endInvocation (working .idle s.lat s.queue
          (headerBytes ch typeDrawAll ++ le32Bytes crc)
          (finishDraw (crc == crc32 (headerBytes ch typeDrawAll)) s))) := by
  rw [ByteWise.exec_drawAll hd]
  show Host.Outcome.next (endInvocation (finishDraw _
    (working s.dstate s.lat s.queue (wireBytes (.drawAll ch crc)) s))) = _
  rw [finishDraw_working, hd]
  rfl

/-- Settles O37: with a matching CRC `finishDraw` is the draw attempt, which leaves the decoder's state
and the queue. -/
theorem drawAllAttemptsADraw : Obligations.DrawAllAttemptsADraw := by
  intro s ch crc hd hcrc
  have hok : (crc == crc32 (headerBytes ch typeDrawAll)) = true := by rw [hcrc]; exact beq_self_eq_true _
  have hkeeps := drawAttempt_changes s
  refine ⟨drawAttempt s, anyLatches (drawAttempt s).drawn, (drawAttempt s).drawn + 1,
    exec_drawAttempt s, ?_⟩
  have hidle : (drawAttempt s).dstate = .idle := by rw [hkeeps, ← hd]
  have hqueue : (drawAttempt s).queue = s.queue := by rw [hkeeps]
  rw [exec_drawAll_eq hd, hok, ← hqueue]
  simp only [finishDraw, if_true, endInvocation, working, hidle]
  rfl

/-- Settles O38: with a wrong CRC `finishDraw` only counts. -/
theorem drawAllWithWrongCrcIsOnlyCounted : Obligations.DrawAllWithWrongCrcIsOnlyCounted := by
  intro s ch crc hd hcrc
  have hbad : (crc == crc32 (headerBytes ch typeDrawAll)) = false := beq_eq_false_iff_ne.2 hcrc
  refine ⟨anyLatches s.drawn, s.drawn + 1, ?_⟩
  rw [exec_drawAll_eq hd, hbad]
  simp only [finishDraw, Bool.false_eq_true, if_false, countError, increment, endInvocation, working, hd]
  rfl

/-! ### The draw attempt -/

/-- Nothing to send, or too much (43 R195). -/
theorem drawAttempt_of_size {s : State} (hb : s.busy = false) (hl : latchPermits s)
    (hsize : longestEnabled s = 0 ∨ s.cfg.maxBitCycles < longestEnabled s * 8) :
    drawAttempt s = s := by
  obtain ⟨hrej, -⟩ | ⟨-, -, -, h⟩ | ⟨-, -, hpos, hmax, -⟩ := drawAttempt_cases s
  · rcases hrej with hbusy | hwindow
    · rw [hb] at hbusy
      cases hbusy
    · exact absurd hl hwindow
  · exact h
  · omega

/-- A draw within the limits arms a transfer (43 R192, R193). -/
theorem drawAttempt_of_arm {s : State} (hb : s.busy = false) (hl : latchPermits s)
    (hpos : 0 < longestEnabled s) (hmax : longestEnabled s * 8 ≤ s.cfg.maxBitCycles) :
    drawAttempt s
      = armTransfer (drawArm s) { s with cntDraws := increment s.cfg s.cntDraws, busy := true } := by
  obtain ⟨hrej, -⟩ | ⟨-, -, hsize, -⟩ | ⟨-, -, -, -, h⟩ := drawAttempt_cases s
  · rcases hrej with hbusy | hwindow
    · rw [hb] at hbusy
      cases hbusy
    · exact absurd hl hwindow
  · omega
  · exact h

/-- Settles O40: by `drawAttempt_of_size`. -/
theorem drawOutsideTheSizeLimitsChangesNothing : Obligations.DrawOutsideTheSizeLimitsChangesNothing := by
  intro s hb hl hsize
  rw [exec_drawAttempt, drawAttempt_of_size hb hl hsize]

/-- Slot `c` of the table as a list. -/
theorem slots_getElem? (s : State) (c : Fin 8) : s.ch.toList[c.val]? = some s.ch[c] := by
  simp

theorem drawArm_masks (s : State) (c : Fin 8) :
    (drawArm s).startMask.getLsbD c.val = wsEnabled s.ch[c] ∧
      (drawArm s).clockMask.getLsbD c.val = clkEnabled s.ch[c] := by
  obtain ⟨hstart, hclock⟩ := addSlots_masks 0 s.ch.toList Timing.init (by simp) c.val
  rw [Nat.sub_zero, slots_getElem?] at hstart hclock
  simpa [drawArm, armOf, Timing.init] using And.intro hstart hclock

theorem drawArm_freqSel (s : State) :
    (∀ c : Fin 8, apaEnabled s.ch[c] = true → (drawArm s).freqSel.toNat ≤ s.ch[c].freq.toNat) ∧
      ((drawArm s).freqSel = 0xFFFFFFFF ∨
        ∃ c : Fin 8, apaEnabled s.ch[c] = true ∧ (drawArm s).freqSel = s.ch[c].freq) := by
  obtain ⟨-, hle, hone⟩ := addSlots_freqSel 0 s.ch.toList Timing.init
  refine ⟨fun c hc => hle s.ch[c] (by simp) hc, hone.imp id ?_⟩
  rintro ⟨sl, hmem, hen, hfreq⟩
  obtain ⟨k, hk, rfl⟩ := List.mem_iff_getElem.1 hmem
  have hk8 : k < 8 := by simpa using hk
  have hfreq : (drawArm s).freqSel = s.ch.toList[k].freq := hfreq
  exact ⟨⟨k, hk8⟩, by simpa using hen, by simpa using hfreq⟩

/-- Settles O41: the call is `drawArm`, its arguments by `drawArm_bitCount`, `drawArm_masks` and
`drawArm_freqSel`. -/
theorem drawArmsTheLongestChannel : Obligations.DrawArmsTheLongestChannel := by
  intro s hb hl hpos hmax
  obtain ⟨hle, hone⟩ := drawArm_freqSel s
  refine ⟨drawArm s, ?_, drawArm_bitCount s, fun c => (drawArm_masks s c).1,
    fun c => (drawArm_masks s c).2, hle, hone⟩
  rw [exec_drawAttempt, drawAttempt_of_arm hb hl hpos hmax]
  rfl

/-! ### Events -/

/-- Settles O42: the handler's three assignments. -/
theorem xferDoneClearsBusyAndStartsTheLatch : Obligations.XferDoneClearsBusyAndStartsTheLatch :=
  fun _ => rfl

/-- Settles O43: by `exec_tick`; at 0 one less is the same. -/
theorem tickCountsTheLatchDown : Obligations.TickCountsTheLatchDown := by
  refine fun s => ⟨fun _ => StepKinds.exec_tick s, fun hz => ?_⟩
  rw [StepKinds.exec_tick, hz]
  exact congrArg (fun n => Host.Outcome.next { s with latchCount := n }) hz.symm

/-! ### The scheduler's states -/

theorem schedState_of_busy {s : State} (h : s.busy = true) : schedState s = .busy := if_pos h

/-- Out of a transfer the state says whether the latch window is open (10_state R35). -/
theorem schedState_of_not_busy {s : State} (h : s.busy = false) :
    schedState s = if s.latchCount = 0 then .idle else .latchWait := by
  have hlatch : latchActive s = true ↔ s.latchCount ≠ 0 := bne_iff_ne
  unfold schedState
  rw [h, if_neg Bool.false_ne_true]
  by_cases hz : s.latchCount = 0
  · rw [if_neg (fun hl => hlatch.1 hl hz), if_pos hz]
  · rw [if_pos (hlatch.2 hz), if_neg hz]

theorem schedState_eq_busy_iff (s : State) : schedState s = .busy ↔ s.busy = true := by
  cases hb : s.busy with
  | true => simp only [schedState_of_busy hb]
  | false =>
    rw [schedState_of_not_busy hb]
    split <;> simp

/-- The state under a tick (43 R198). -/
theorem schedState_tick (s : State) :
    schedState { s with latchCount := s.latchCount - 1 }
      = if schedState s = .latchWait ∧ s.latchCount = 1 then .idle else schedState s := by
  by_cases hb : s.busy = true
  · have hs := schedState_of_busy hb
    rw [if_neg (by simp [hs]), hs]
    exact schedState_of_busy hb
  · rw [Bool.not_eq_true] at hb
    rw [schedState_of_not_busy (s := { s with latchCount := s.latchCount - 1 }) hb,
      schedState_of_not_busy hb]
    by_cases h0 : s.latchCount = 0
    · simp [h0]
    · by_cases h1 : s.latchCount = 1
      · simp [h1]
      · have hmore : s.latchCount - 1 ≠ 0 := by omega
        simp [h0, h1, hmore]

/-- The state after a draw attempt (43 R198, conflict C6). -/
theorem schedState_drawAttempt (s : State) :
    schedState (drawAttempt s)
      = if schedState s = .busy then .busy
        else if latchPermits s ∧ 0 < longestEnabled s ∧
            longestEnabled s * 8 ≤ s.cfg.maxBitCycles then .busy
        else schedState s := by
  simp only [schedState_eq_busy_iff]
  rcases drawAttempt_cases s with ⟨hrej, h⟩ | ⟨hb, -, hsize, h⟩ | ⟨hb, hl, hpos, hmax, h⟩ <;> rw [h]
  · have hsame : schedState (countError .overdraw s) = schedState s := rfl
    rw [hsame]
    rcases hrej with hbusy | hwindow
    · rw [if_pos hbusy, schedState_of_busy hbusy]
    · rw [if_neg (c := latchPermits s ∧ _) (fun hp => hwindow hp.1)]
      split
      case isTrue hbusy => exact schedState_of_busy hbusy
      case isFalse => rfl
  · rw [if_neg (by simp [hb]), if_neg (by omega)]
  · rw [if_neg (by simp [hb]), if_pos ⟨hl, hpos, hmax⟩]
    rfl

/-- Settles O44: XFER_DONE opens the latch window; the other clauses are `schedState_tick` and
`schedState_drawAttempt`. -/
theorem schedulerStateMachine : Obligations.SchedulerStateMachine := by
  intro s t hlegal
  refine ⟨fun h => ?done, fun h => ?tick, fun h => ?draw⟩
  case done =>
    have hticks : s.cfg.latchTicks ≠ 0 := by
      have hlegal := hlegal
      simp only [Config.Legal] at hlegal
      omega
    cases h
    rw [schedState_of_not_busy rfl]
    exact if_neg hticks
  case tick =>
    cases (StepKinds.exec_tick s).symm.trans h
    exact schedState_tick s
  case draw =>
    cases h
    exact schedState_drawAttempt s

end Sys2Proof.Proofs.Draws

/-! PROOFS of the family 60_exceptions: the Output Pipeline's lane reads and its completion event. -/

namespace Sys2Proof.Proofs.Pipeline

open Sys2Proof Sys2Proof.Machine

/-- Settles O46: `emitLane_running` and `emitLane_still`. -/
theorem pipelineReadsItsNextLane : Obligations.PipelineReadsItsNextLane := by
  intro s v
  refine ⟨fun a hb ha hl => ⟨fun hc => ?_, fun hc => ?_⟩, fun a ha hl => ?_, fun h => ?_⟩
  · rw [emitLane_running hb ha, if_pos hl, if_pos hc]
  · rw [emitLane_running hb ha, if_pos hl, if_neg (Nat.not_lt_of_le hc)]
  · cases hb : s.busy with
    | true => rw [emitLane_running hb ha, if_neg (Nat.not_lt_of_le hl)]
    | false => exact emitLane_still (.inl hb) v
  · exact emitLane_still (h.imp id fun harms => by rw [harms]; rfl) v

/-- Settles O47: by `transferComplete_iff`, and nothing is complete once `busy` is cleared. -/
theorem completionComesOnceAfterTheLastLane : Obligations.CompletionComesOnceAfterTheLastLane := by
  intro s ms hs
  have hstep : step s = completeTransfer { s with sched := ms } := Dispatch.step_of_sched_cons hs
  have hiff := transferComplete_iff { s with sched := ms }
  rw [hstep]
  refine ⟨fun hdone => ?_, fun hnot => ?_⟩
  · rcases completeTransfer_cases { s with sched := ms } with ⟨-, hrun⟩ | ⟨hno, -⟩
    · refine ⟨_, hrun, rfl, rfl, ?_⟩
      rw [← Bool.not_eq_true, transferComplete_iff]
      exact fun hc => Bool.false_ne_true hc.1
    · rw [hiff.2 hdone] at hno
      cases hno
  · rcases completeTransfer_cases { s with sched := ms } with ⟨hyes, -⟩ | ⟨-, hrun⟩
    · obtain ⟨hb, a, ha, hl⟩ := hiff.1 hyes
      rcases hnot with hidle | hnone | ⟨a', ha', hl'⟩
      · rw [hidle] at hb
        cases hb
      · rw [hnone] at ha
        cases ha
      · cases ha.symm.trans ha'
        exact absurd hl' (Nat.not_lt_of_le hl)
    · exact hrun

theorem steps_add (a b : Nat) (s : State) : steps (a + b) s = andThen (steps a s) (steps b) := by
  induction a generalizing s with
  | zero => rw [Nat.zero_add, steps, andThen_next]
  | succ n ih =>
    rw [Nat.succ_add, steps, steps, andThen_assoc]
    congr 1
    funext t
    exact ih t

/-- `k` lane reads in a row of the buffer as it is: the next `k` lanes, in order (60 R237). -/
theorem steps_emit {s : State} {a : Arm} {k : Nat} {ms : List Move} (hb : s.busy = true)
    (ha : s.arms.getLast? = some a) (hl : s.lanesOut.length + k ≤ a.bitCount)
    (hc : a.bitCount ≤ 8 * s.cfg.cap) (hs : s.sched = List.replicate k (.emit 0) ++ ms) :
    steps k s = .next { s with
      lanesOut := s.lanesOut ++ (List.range' s.lanesOut.length k).map (laneRead s.bp), sched := ms } := by
  induction k generalizing s with
  | zero =>
    have hs : s.sched = ms := hs
    simp only [steps, List.range'_zero, List.map_nil, List.append_nil, ← hs]
  | succ n ih =>
    have hstep : step s = .next { s with
        sched := List.replicate n (.emit 0) ++ ms
        lanesOut := s.lanesOut ++ [laneRead s.bp s.lanesOut.length] } := by
      rw [Dispatch.step_of_sched_cons hs]
      exact (emitLane_running (s := { s with sched := List.replicate n (.emit 0) ++ ms }) hb ha 0).trans
        ((if_pos (by show s.lanesOut.length < a.bitCount; omega)).trans
          (if_pos (by show s.lanesOut.length < 8 * s.cfg.cap; omega)))
    have hrest := ih (s := { s with
        sched := List.replicate n (.emit 0) ++ ms
        lanesOut := s.lanesOut ++ [laneRead s.bp s.lanesOut.length] }) hb ha
      (by rw [List.length_append, List.length_singleton]; omega) hc rfl
    rw [steps, hstep, andThen_next, hrest]
    simp only [List.length_append, List.length_singleton, List.append_assoc, List.range'_succ,
      List.map_cons, List.singleton_append]

/-- Settles O48: the lane reads by `steps_emit`, then the completion move. -/
theorem transferEmitsTheBufferAndCompletes : Obligations.TransferEmitsTheBufferAndCompletes := by
  intro s a ms hb ha hnone hc hs
  have hemit := steps_emit hb ha (by rw [hnone]; simp) hc hs
  rw [hnone, List.length_nil, List.nil_append, ← List.range_eq_range'] at hemit
  rw [steps_add, hemit, andThen_next, steps, Dispatch.step_of_sched_cons rfl]
  have hdone : transferComplete { s with
      lanesOut := (List.range a.bitCount).map (laneRead s.bp), sched := ms } = true :=
    (transferComplete_iff _).2 ⟨hb, a, ha, by simp⟩
  show andThen (completeTransfer { s with
    lanesOut := (List.range a.bitCount).map (laneRead s.bp), sched := ms }) _ = _
  rw [completeTransfer, if_pos hdone]
  rfl

end Sys2Proof.Proofs.Pipeline
